-- ==== Sys2Proof/Word.lean ====
section
/-! DEFINITION. The word types of the block: a byte, a device tick, a host time (00_scope.md R11, R14). -/

namespace Sys2Proof

/-- One byte: `u8` of R11. -/
abbrev Byte := BitVec 8

/-- A device tick: the value of the device's free-running 16-bit counter (R9 `TICK_BITS`, R164). -/
abbrev Tick := BitVec 16

/-- A host time: `u64` microseconds on the host's clock (R14). -/
abbrev Instant := BitVec 64

end Sys2Proof
end

