-- ==== Sys2Proof/Config.lean ====
section
/-! DEFINITION. The parameters of the block: the constants the source fixes (00_scope.md R9) and the
parameters it leaves open (R10), each under its own name. -/

namespace Sys2Proof.Config

/-! ### Constants (R9) -/

/-- `TICK_MUL` (R9): the fixed-point multiplier of a tick count. -/
def tickMul : Nat := 44739243

/-- `TICK_SHIFT` (R9): the right shift after the multiply. -/
def tickShift : Nat := 20

/-- `REBASE_US` (R9): 4200 s in microseconds. -/
def rebaseUs : Nat := 4200000000

/-- `CMD_LEN` (R9): length in bytes of a command frame and of its reply. -/
def cmdLen : Nat := 16

/-- `CMD_ARGS` (R9): argument or result bytes of a command frame. -/
def cmdArgs : Nat := 14

/-! ### Parameters with a default (R10) -/

/-- `F_LIGHT` (R10, R72). PRESUMED: the spec's default, marked by it as general knowledge (log entry 1). -/
def fLight : Byte := 0x04#8

/-- `F_HEAVY` (R10, R72). PRESUMED (log entry 1). -/
def fHeavy : Byte := 0x08#8

/-- `F_OFF` (R10, R72). PRESUMED (log entry 1). -/
def fOff : Byte := 0x10#8

/-- `F_RXQOVR` (R10, R72). PRESUMED (log entry 1). -/
def fRxqovr : Byte := 0x02#8

/-- `F_QOVR` (R10, R72). PRESUMED (log entry 1). -/
def fQovr : Byte := 0x40#8

/-- `DC_SET_BITRATE`, (functionality, number) (R10, R81). PRESUMED (log entry 1). -/
def dcSetBitrate : Byte × Byte := (1#8, 2#8)

/-- `DC_GET_SERIAL` (R10, R81). PRESUMED (log entry 1). -/
def dcGetSerial : Byte × Byte := (6#8, 1#8)

/-- `DC_GET_DEVID` (R10, R81). PRESUMED (log entry 1). -/
def dcGetDevid : Byte × Byte := (4#8, 1#8)

/-- `BTR_ARGS` (R10, R81): the order of the two register bytes in the arguments of the bit-timing
command, `args[0] = BTR1`, `args[1] = BTR0`. PRESUMED (log entry 1). -/
def btrArgs (btr0 btr1 : Byte) : List Byte := [btr1, btr0]

/-- `P_DATA_TS_ALWAYS` (R10, R147): false, so bit 7 governs the timestamp field of a data record. -/
def dataTsAlways : Bool := false

/-- `DEV_TICK_RESET` (R10, R230). -/
def devTickReset : Tick := 0#16

/-- `RX_MAX` (R10): the greatest inbound buffer length; the default is unbounded (log entry 7). -/
def rxMax : Option Nat := none

/-! ### Open parameters (R10): opaque, nothing can evaluate them -/

/-- How many transmit slots there are beyond the first. -/
opaque slotsBeyondFirst : Nat

/-- `N_TX_SLOTS` (R10): a natural, at least 1. -/
def txSlots : Nat := slotsBeyondFirst + 1

/-- How far `CMD_TIMEOUT` exceeds the least duration. -/
opaque timeoutBeyondLeast : Nat

/-- `CMD_TIMEOUT` (R10): the transport's time limit, a positive duration. No rule depends on its
value (R205): whether a call times out is an oracle answer. -/
def cmdTimeout : Nat := timeoutBeyondLeast + 1

/-- How many bytes of a TXBUF there are beyond the least capacity. -/
opaque txCapBeyondLeast : Nat

/-- `TX_CAP` (R10, R240, U28 of 93_implementation_defined.md): the capacity of every TXBUF, a natural,
at least 16. -/
def txCap : Nat := txCapBeyondLeast + 16

/-- A free value: the host time behind the `k`-th `host_now` sample when `State` lists no further
one (R27, U7; log entry 5). -/
opaque hostClock : Nat → Instant

end Sys2Proof.Config
end

