-- ==== Sys2Proof/Syntax.lean ====
section
/-! DEFINITION. The instructions of the block, one constructor per row of spec/opcode_table.json
(00_scope.md R7), and the value types that cross its ports (R14). -/

namespace Sys2Proof

/-- The instruction set: 17 host operations, 8 record kinds, 3 device command frames (R7).
An operation carries no operand: its operands arrive on the operand ports (R15, R21).
A record carries the bits of its status/length byte (R63) and, where it is not fixed, its
functionality byte; its other fields are read from RXBUF when it runs. A device command frame
carries nothing: its arguments stand in CMDBUF (R81). -/
inductive Instr where
  /-- SESSION.RESET (R230). -/
  | sessionReset
  /-- CMD.BUILD (R100). -/
  | cmdBuild
  /-- CMD.PARSE (R101). -/
  | cmdParse
  /-- CMD.BTR (R102). -/
  | cmdBtr
  /-- CMD.PRESET (R103). -/
  | cmdPreset
  /-- CMD.SETBTR (R104). -/
  | cmdSetbtr
  /-- CMD.GETSN (R105). -/
  | cmdGetsn
  /-- CMD.GETDEVID (R106). -/
  | cmdGetdevid
  /-- CMD.SEND_SYNC (R109). -/
  | cmdSendSync
  /-- CMD.SEND_AWAIT (R110). -/
  | cmdSendAwait
  /-- CMD.SEND_ASYNC (R111). -/
  | cmdSendAsync
  /-- ENC.FRAME (R120). -/
  | encFrame
  /-- DEC.MESSAGE (R130). -/
  | decMessage
  /-- TSS.SET (R161). -/
  | tssSet
  /-- TSS.UPDATE (R162). -/
  | tssUpdate
  /-- TSS.COMPUTE (R163). -/
  | tssCompute
  /-- BES.PROCESS (R180). -/
  | besProcess
  /-- REC.DATA.STD (R135): TS, RTR and LEN of `sl`. -/
  | recDataStd (ts rtr : Bool) (len : BitVec 4)
  /-- REC.DATA.EXT (R136). -/
  | recDataExt (ts rtr : Bool) (len : BitVec 4)
  /-- REC.INT.ERROR (R138): TS, the two ignored bits 5 and 4, and LEN of `sl`. -/
  | recIntError (ts : Bool) (ign : BitVec 2) (len : BitVec 4)
  /-- REC.INT.ANALOG (R139). -/
  | recIntAnalog (ts : Bool) (ign : BitVec 2) (len : BitVec 4)
  /-- REC.INT.BUSLOAD (R140). -/
  | recIntBusload (ts : Bool) (ign : BitVec 2) (len : BitVec 4)
  /-- REC.INT.TS (R141). -/
  | recIntTs (ts : Bool) (ign : BitVec 2) (len : BitVec 4)
  /-- REC.INT.BUSEVT (R142). -/
  | recIntBusevt (ts : Bool) (ign : BitVec 2) (len : BitVec 4)
  /-- REC.INT.UNKNOWN (R143): as the others, with the functionality byte `f`. -/
  | recIntUnknown (f : Byte) (ts : Bool) (ign : BitVec 2) (len : BitVec 4)
  /-- DEVCMD.SET_BITRATE (R81, R104). -/
  | devcmdSetBitrate
  /-- DEVCMD.GET_SERIAL (R81, R105). -/
  | devcmdGetSerial
  /-- DEVCMD.GET_DEVID (R81, R106). -/
  | devcmdGetDevid
  deriving DecidableEq, Repr

/-- The three places an instruction is decoded from (R7, last columns). -/
inductive Space where
  /-- The 5-bit operation select of the operation port (R85). -/
  | op
  /-- A record of an inbound message (R74). -/
  | record
  /-- A 16-byte device command frame (R61, R81). -/
  | command
  deriving DecidableEq, Repr

/-- Bittiming (R14): the operand of CMD.BTR. Every value is accepted (R102). -/
structure Bittiming where
  brp : BitVec 32
  sjw : BitVec 32
  propSeg : BitVec 32
  phaseSeg1 : BitVec 32
  phaseSeg2 : BitVec 32
  tripleSample : Bool
  deriving DecidableEq, Repr

/-- Frame (R14): one classic CAN frame. `ts` and `hwtime` are absent when the record carried no
timestamp (R135), and ignored by ENC.FRAME (R120). -/
structure Frame where
  id : BitVec 29
  ext : Bool
  rtr : Bool
  dlc : BitVec 4
  data : Vector Byte 8
  ts : Option Tick
  hwtime : Option Instant
  deriving DecidableEq, Repr

/-- BusErrorState (R14, R23). -/
inductive BusErrorState where
  | errorActive
  | errorWarning
  | errorPassive
  | busOff
  deriving DecidableEq, Repr

/-- Cond (R14, R186): what an error event reports. -/
inductive Cond where
  | warning
  | passive
  | busOff
  | rxOverflow
  | active
  deriving DecidableEq, Repr

/-- ErrorEvent(state, flags, cond) (R14, R189). -/
structure ErrorEvent where
  state : BusErrorState
  flags : Byte
  cond : Cond
  deriving DecidableEq, Repr

/-- Item (R14): the three things DEC.MESSAGE emits. -/
inductive Item where
  | frame (f : Frame)
  | errorEvent (e : ErrorEvent)
  | timestampOnly (tick : Tick)
  deriving DecidableEq, Repr

end Sys2Proof
end

