-- ==== Sys2Proof/Machine/State.lean ====
section
/-! DEFINITION. The state of one session (10_state.md R20, R28) with its buffers (20_memory.md R40),
its hidden state (R26, R31), its ports (00_scope.md R15) and what the host and the transport will do. -/

namespace Sys2Proof.Machine

/-! ### Buffers -/

/-- The bytes of a buffer: (offset, byte) pairs in canonical form, offsets strictly rising and no
byte equal to what an unlisted offset reads as, which is zero (DESIGN CHOICE, log entry 3). -/
abbrev Memory := List Host.Cell

/-- A buffer with its length: the byte at offset `k` exists exactly when `k < len` (R41). -/
structure Buffer where
  len : Nat
  mem : Memory
  deriving DecidableEq, Repr

/-! ### Session registers (R20) -/

/-- The time reference TR (R22). -/
structure TimeRef where
  epochValid : Bool
  hostEpoch0 : Instant
  hostEpochLast : Instant
  devTickPrev : Tick
  devTickLast : Tick
  cumulativeTicks : BitVec 64
  sampleCount : BitVec 32
  deriving DecidableEq, Repr

/-! ### The decode context (R26) -/

/-- The decode context DC of a DEC.MESSAGE in progress. `DC.len` is the length of RXBUF, which does
not change during a pass (R52), and is stored there only (log entry 8). -/
structure DecodeCtx where
  pc : Nat
  version : Byte
  recCount : Byte
  recIdx : Nat
  ts16 : Tick
  tsIdx : Nat
  syncSeen : Bool
  deriving DecidableEq, Repr

/-! ### The transport as the block sees it (R51, R108) -/

/-- An error of the transport, opaque to the block (R207). -/
inductive TransportErr where
  /-- The one member the source singles out. -/
  | disconnected
  /-- Any other, by a number that means nothing to the block. -/
  | other (code : Nat)
  deriving DecidableEq, Repr

/-- What `transport.send` answers (R108). -/
inductive SendAnswer where
  | ok
  | timeout
  | err (e : TransportErr)
  deriving DecidableEq, Repr

/-- What `transport.receive` answers: bytes of any length and content, or an error (R108). -/
inductive RecvAnswer where
  | ok (bytes : List Byte)
  | timeout
  | err (e : TransportErr)
  deriving DecidableEq, Repr

/-- A call the block makes of the transport (R108). -/
inductive TransportCall where
  | send (bytes : List Byte)
  | receive
  | sendAsync (bytes : List Byte) (onComplete : Nat)
  deriving DecidableEq, Repr

/-- An asynchronous command in flight: its private buffer and its continuation (R111). -/
structure AsyncCmd where
  onComplete : Nat
  buf : Vector Byte 16
  deriving DecidableEq, Repr

/-- One delivered `on_complete(Ok or Err(e))` (R111, R210). -/
structure Completion where
  onComplete : Nat
  error : Option TransportErr
  deriving DecidableEq, Repr

/-! ### Ports (R15) -/

/-- The operand ports: what the host drives with an operation (R15 and each rule's operand list). -/
structure Operands where
  /-- CMD.BUILD (R100). -/
  functionality : Byte
  number : Byte
  args : List Byte
  /-- CMD.BTR (R102). -/
  bittiming : Bittiming
  /-- CMD.PRESET (R103). -/
  bps : BitVec 32
  /-- CMD.SETBTR (R104). -/
  btr0 : Byte
  btr1 : Byte
  /-- The `connected` input (R27) and the transport's answers (R108). -/
  connected : Bool
  sendAns : SendAnswer
  recvAns : RecvAnswer
  /-- CMD.SEND_ASYNC (R111): the frame by value, the continuation, whether allocation succeeds. -/
  cmd : Vector Byte 16
  onComplete : Nat
  allocOk : Bool
  /-- ENC.FRAME (R120): the frame and the transmit slot. -/
  frame : Frame
  slot : Nat
  /-- TSS.SET, TSS.UPDATE, TSS.COMPUTE. -/
  tick : Tick
  /-- BES.PROCESS (R180). -/
  flags : Byte
  deriving DecidableEq, Repr

/-- The six faults an operation of the block raises (60_exceptions.md R200). A fault ends the
operation and is returned as its outcome; the block goes on (R206, R208). -/
inductive OpFault where
  /-- FramingError(rec, off) (R201). -/
  | framing (rec off : Nat)
  /-- InvalidArgument (R202). -/
  | invalidArgument
  /-- NotConnected (R203). -/
  | notConnected
  /-- OutOfMemory (R204). -/
  | outOfMemory
  /-- Timeout (R205). -/
  | timeout
  /-- TransportError(e) (R207). -/
  | transportError (e : TransportErr)
  deriving DecidableEq, Repr

/-- The result ports: what an operation returns with `Ok`. -/
inductive Result where
  /-- `Ok()`. -/
  | done
  /-- CMDBUF (R100, R104), the 14 result bytes (R101, R110), or the TXBUF bytes (R120). -/
  | bytes (bs : List Byte)
  /-- BTR0 and BTR1 (R102, R103). -/
  | btr (btr0 btr1 : Byte)
  /-- `serial_number` (R105). -/
  | serial (n : BitVec 32)
  /-- `device_id` (R106). -/
  | deviceId (n : BitVec 32)
  /-- `version` of DEC.MESSAGE, absent for an empty buffer (R130). -/
  | version (v : Option Byte)
  /-- The host time of TSS.COMPUTE (R163). -/
  | time (t : Instant)
  /-- `ev` of BES.PROCESS (R186). -/
  | event (e : Option ErrorEvent)
  deriving DecidableEq, Repr

/-- The `outcome` port (R12): Ok with results, or a fault. -/
inductive OpOutcome where
  | ok (r : Result)
  | fault (f : OpFault)
  deriving DecidableEq, Repr

/-! ### The host and the transport -/

/-- The `host_now` port (R27): the latest sample, the samples the host will supply, and how many
have been drawn. The MODEL's own field (log entry 5). -/
structure HostClock where
  last : Instant
  next : List Instant
  draws : Nat
  deriving DecidableEq, Repr

/-- What the host or the transport does next. -/
inductive Action where
  /-- The host presents an operation with its operands and the `host_now` samples it supplies (R6). -/
  | present (op : BitVec 5) (x : Operands) (now : List Instant)
  /-- The transport fills RXBUF with one inbound message (R40, R51). -/
  | deliverRx (bytes : List Byte)
  /-- The transport fills RPLBUF with one reply (R40). -/
  | deliverReply (bytes : List Byte)
  /-- The encoder agent hands a slot's TXBUF to the transport (R51, R125). -/
  | submitSlot (slot : Nat)
  /-- The transmission of a slot completes (R51, R238). -/
  | slotDone (slot : Nat)
  /-- The `k`-th asynchronous command in flight completes (R111). -/
  | asyncDone (k : Nat) (error : Option TransportErr)
  deriving DecidableEq, Repr

/-- An action together with the op codes of the session's operations still in progress when it
happens, which a host that keeps its duties leaves free of conflicts (R234; log entry 4). -/
structure Event where
  action : Action
  during : List (BitVec 5)
  deriving DecidableEq, Repr

/-! ### The state -/

/-- One session (R20, R28). -/
structure State where
  /-- The seven TR registers. -/
  tr : TimeRef
  /-- BS.state (R23). -/
  bs : BusErrorState
  /-- TX.seq (R24). -/
  txSeq : Byte
  /-- RXBUF and `rx_len` (R40). -/
  rxbuf : Buffer
  /-- RPLBUF and `rpl_len` (R40). -/
  rplbuf : Buffer
  /-- CMDBUF: exactly 16 bytes (R40). -/
  cmdbuf : Memory
  /-- The TXBUF of each transmit slot, by slot number; a slot not listed is empty (R125). -/
  txbufs : List Buffer
  /-- The decode context of the DEC.MESSAGE in progress, if one is (R26). -/
  dc : Option DecodeCtx
  /-- Whether a synchronous command request is outstanding (R31, R107). -/
  cmdOutstanding : Bool
  /-- The transmit slots in flight, rising (R31, R238). -/
  txInFlight : List Nat
  /-- The asynchronous commands in flight, oldest first (R31, R111). -/
  asyncInFlight : List AsyncCmd
  /-- The operand ports. -/
  port : Operands
  /-- The `outcome` port: of the operation that returned last, if one has. -/
  outcome : Option OpOutcome
  /-- The `items` port (R131). -/
  items : List Item
  /-- The transport calls of the current operation, in order. The MODEL's own field (log entry 10). -/
  calls : List TransportCall
  /-- The `on_complete` notifications delivered, oldest first. The MODEL's own field (log entry 10). -/
  completions : List Completion
  /-- The `host_now` port. -/
  clock : HostClock
  /-- What the host and the transport will do, oldest first. The MODEL's own field (log entry 4). -/
  events : List Event
  deriving DecidableEq, Repr

/-- What stops the machine. (The six faults of R200 do not: see `OpFault`.) -/
inductive Fault where
  /-- Every transmit slot is in flight, ENC.FRAME operations wait for a completion, and nothing else
  is left to happen: no completion ever comes and the encoder agents are stuck (R238, U26 of
  93_implementation_defined.md: `stuck`). Raised by the step, never by an instruction. DESIGN CHOICE
  (log entry 14). Safe: the model stops where the agents wait for ever. -/
  | encoderStuck
  deriving DecidableEq, Repr

/-- What the spec gives no meaning (00_scope.md R12): "a refused operation changes no state". -/
inductive Refusal where
  /-- An instruction without a meaning in this model; none is left. Safe. -/
  | notModelled (mnemonic : String)
  /-- An `op` value 0x11 to 0x1F (R86). Raised by the step. Safe. -/
  | reservedOp
  /-- ENC.FRAME with `dlc` 9 to 15 (R123). Safe. -/
  | dlcTooLarge
  /-- ENC.FRAME or a submission naming a slot the pool does not have (R10 N_TX_SLOTS). Safe. -/
  | noSuchSlot
  /-- ENC.FRAME into, or a second submission of, a slot the transport still reads (R238). Safe. -/
  | slotInFlight
  /-- ENC.FRAME into a TXBUF shorter than `tx_len` (R121, U3): TX_CAP is at least 16, so no frame of
  at most 8 data bytes meets this. Safe. -/
  | txBufferShort
  /-- Operations the host must serialize, presented together (U4 of 93_implementation_defined.md with
  R107, R230, R236; builds during a synchronous command: log entry 12). Raised by the step. Safe. -/
  | notSerialized
  /-- RXBUF rewritten during a DEC.MESSAGE (R52). Raised by the step. Safe. -/
  | rxRewritten
  /-- RPLBUF written during a synchronous command, whose buffer it is (R107). Raised by the step. Safe. -/
  | replyRewritten
  /-- An inbound message longer than RX_MAX (R40). Raised by the step. Safe. -/
  | rxTooLong
  /-- A completion of something that is not in flight (R51, R111). Raised by the step. Safe. -/
  | nothingInFlight
  /-- A `host_now` sample smaller than the one before (R241, U6). Raised by TSS.SET, TSS.COMPUTE and
  the records that invoke them. Safe. -/
  | clockBackwards
  /-- A record with no decode context to run in, or an operation inside one (R26, R133); no step
  raises it. Safe. -/
  | noDecodeContext
  /-- The outstanding command frame is none of the three of R81. Raised by the step. Safe. -/
  | unknownCommand
  deriving DecidableEq, Repr

/-! ### Reset -/

/-- The TR registers after SESSION.RESET (R30, R230). -/
def TimeRef.reset : TimeRef where
  epochValid := false
  hostEpoch0 := 0#64
  hostEpochLast := 0#64
  devTickPrev := 0#16
  devTickLast := Config.devTickReset
  cumulativeTicks := 0#64
  sampleCount := 0#32

/-- The operand ports before any operation was presented. DESIGN CHOICE: the spec gives none (log
entry 3). -/
def Operands.reset : Operands where
  functionality := 0#8
  number := 0#8
  args := []
  bittiming := ⟨0#32, 0#32, 0#32, 0#32, 0#32, false⟩
  bps := 0#32
  btr0 := 0#8
  btr1 := 0#8
  connected := false
  sendAns := .ok
  recvAns := .ok []
  cmd := #v[0#8, 0#8, 0#8, 0#8, 0#8, 0#8, 0#8, 0#8, 0#8, 0#8, 0#8, 0#8, 0#8, 0#8, 0#8, 0#8]
  onComplete := 0
  allocOk := false
  frame := ⟨0#29, false, false, 0#4, #v[0#8, 0#8, 0#8, 0#8, 0#8, 0#8, 0#8, 0#8], none, none⟩
  slot := 0
  tick := 0#16
  flags := 0#8

/-- A session as it comes into existence (R231): the nine registers at the values of R20 and R30;
everything else empty (DESIGN CHOICE, log entry 3). -/
def State.reset : State where
  tr := TimeRef.reset
  bs := .errorActive
  txSeq := 0#8
  rxbuf := ⟨0, []⟩
  rplbuf := ⟨0, []⟩
  cmdbuf := []
  txbufs := []
  dc := none
  cmdOutstanding := false
  txInFlight := []
  asyncInFlight := []
  port := Operands.reset
  outcome := none
  items := []
  calls := []
  completions := []
  clock := ⟨0#64, [], 0⟩
  events := []

end Sys2Proof.Machine
end

