-- ==== Sys2Proof/Machine/Memory.lean ====
section
/-! DEFINITION. The memory primitives of 20_memory.md R47 over one canonical form, and buffers. -/

namespace Sys2Proof.Machine

/-- The byte at an offset; an unlisted offset reads as zero (log entry 3). -/
def Memory.read : Memory → Nat → Byte
  | [], _ => 0#8
  | (a, b) :: m, k => if a = k then b else Memory.read m k

/-- Write one byte, keeping the canonical form: writing zero removes the entry. -/
def Memory.write : Memory → Nat → Byte → Memory
  | [], k, v => if v = 0#8 then [] else [(k, v)]
  | (a, b) :: m, k, v =>
    if k < a then if v = 0#8 then (a, b) :: m else (k, v) :: (a, b) :: m
    else if k = a then if v = 0#8 then m else (k, v) :: m
    else (a, b) :: Memory.write m k v

/-- The canonical form: offsets strictly rising, no zero byte listed. -/
def Memory.wf (m : Memory) : Bool :=
  decide (m.Pairwise fun x y => x.1 < y.1) && m.all fun x => x.2 != 0#8

/-- `MemRead(space, a, n)`: `n` bytes from offset `a`, assembled little-endian (R42, R47). -/
def Memory.memRead (m : Memory) (a : Nat) : Nat → Nat
  | 0 => 0
  | n + 1 => (m.read a).toNat + 256 * Memory.memRead m (a + 1) n

/-- `MemWrite(space, a, n, v)`: the `n` low bytes of `v` from offset `a`, little-endian (R47). -/
def Memory.memWrite (m : Memory) (a : Nat) : Nat → Nat → Memory
  | 0, _ => m
  | n + 1, v => Memory.memWrite (m.write a (BitVec.ofNat 8 v)) (a + 1) n (v / 256)

/-- Write a byte sequence from offset `a` on, first byte first. -/
def Memory.writeBytes (m : Memory) (a : Nat) : List Byte → Memory
  | [] => m
  | b :: bs => Memory.writeBytes (m.write a b) (a + 1) bs

/-- The `n` bytes from offset `a` on. -/
def Memory.bytes (m : Memory) (a n : Nat) : List Byte :=
  (List.range n).map fun i => m.read (a + i)

/-- An empty buffer. -/
def Buffer.empty : Buffer := ⟨0, []⟩

/-- A buffer the transport filled with these bytes. -/
def Buffer.ofBytes (bs : List Byte) : Buffer := ⟨bs.length, Memory.writeBytes [] 0 bs⟩

/-- The bytes of a buffer, offset 0 first. -/
def Buffer.bytes (b : Buffer) : List Byte := b.mem.bytes 0 b.len

/-- `MemWrite` into a buffer that grows as it is written. -/
def Buffer.memWrite (b : Buffer) (a n v : Nat) : Buffer :=
  ⟨max b.len (a + n), b.mem.memWrite a n v⟩

/-- Write a byte sequence into a buffer that grows as it is written. -/
def Buffer.writeBytes (b : Buffer) (a : Nat) (bs : List Byte) : Buffer :=
  ⟨max b.len (a + bs.length), b.mem.writeBytes a bs⟩

/-- A well-formed buffer: canonical, and no byte at or beyond its length (R41). -/
def Buffer.wf (b : Buffer) : Bool := b.mem.wf && b.mem.all fun x => decide (x.1 < b.len)

/-- The TXBUF of a slot. -/
def slotBuffer : List Buffer → Nat → Buffer
  | [], _ => Buffer.empty
  | b :: _, 0 => b
  | _ :: bs, k + 1 => slotBuffer bs k

/-- Put a buffer into a slot. -/
def setSlotBuffer : List Buffer → Nat → Buffer → List Buffer
  | [], 0, b => [b]
  | [], k + 1, b => Buffer.empty :: setSlotBuffer [] k b
  | _ :: bs, 0, b => b :: bs
  | x :: bs, k + 1, b => x :: setSlotBuffer bs k b

/-- Whether the pool has a slot of this number (R10 `N_TX_SLOTS`). -/
def isSlot (k : Nat) : Bool := k == 0 || decide (k < Config.txSlots)

/-- Add a slot number to a rising list. -/
def insertSlot : List Nat → Nat → List Nat
  | [], k => [k]
  | x :: xs, k => if k < x then k :: x :: xs else if k = x then x :: xs else x :: insertSlot xs k

end Sys2Proof.Machine
end

