-- ==== Sys2Proof/Machine/Ops.lean ====
section
/-! DEFINITION. The operations the meanings share: returning, faulting (60_exceptions.md R206), the
host clock (00_scope.md R13, R27), emitting, the decode context's ends, and host duties (R234). -/

namespace Sys2Proof.Machine

/-- What an instruction answers. -/
abbrev Answer := Host.Outcome State Fault Refusal

/-! ### Outcomes -/

/-- `return Ok(r)` (R12). -/
def State.finish (s : State) (r : Result) : State := { s with outcome := some (.ok r) }

/-- FAULT ENTRY (R206): the fault ends the operation and is returned as its outcome. Nothing is
saved, no mode changes, no handler address exists; what the operation had done stands. There is no
return instruction (R208): the next operation runs from this state. -/
def State.raise (s : State) (f : OpFault) : State := { s with outcome := some (.fault f) }

/-- Return what a command came to: its result, or its fault. -/
def State.conclude {α : Type} (s : State) (g : α → Result) : Except OpFault α → State
  | .ok a => s.finish (g a)
  | .error f => s.raise f

/-- `emit item` (R13). -/
def State.emit (s : State) (i : Item) : State := { s with items := s.items ++ [i] }

/-- Record a transport call. -/
def State.call (s : State) (c : TransportCall) : State := { s with calls := s.calls ++ [c] }

/-! ### The host clock -/

/-- The sample behind the list: free, but no less than the latest one (R27, U7; log entry 5). -/
def HostClock.freeSample (c : HostClock) : Instant :=
  if (Config.hostClock c.draws).toNat < c.last.toNat then c.last else Config.hostClock c.draws

/-- `host_now()`: one sample (R13). A sample smaller than an earlier one is refused (R241, U6). -/
def HostClock.draw (c : HostClock) : Except Refusal (Instant × HostClock) :=
  match c.next with
  | [] => .ok (c.freeSample, ⟨c.freeSample, [], c.draws + 1⟩)
  | n :: rest =>
    if n.toNat < c.last.toNat then .error .clockBackwards else .ok (n, ⟨n, rest, c.draws + 1⟩)

/-! ### The decode context -/

/-- A FramingError inside a pass (R145, R146): the context is discarded, items and registers stand. -/
def State.abortPass (s : State) (f : OpFault) : State := { s.raise f with dc := none }

/-- The end of a pass: `return Ok(items, version)` (R130). -/
def State.closePass (s : State) (c : DecodeCtx) : State :=
  { s.finish (.version (some c.version)) with dc := none }

/-- Go to the record of index `c.recIdx`, or end the pass when all are decoded (R130, R146). -/
def State.nextRecord (s : State) (c : DecodeCtx) : State :=
  if c.recIdx < c.recCount.toNat then { s with dc := some c } else s.closePass c

/-- After a record: `DC.rec_idx <- DC.rec_idx + 1` (R130). A record that faulted has ended the pass. -/
def State.advance (s : State) : State :=
  match s.dc with
  | none => s
  | some c => s.nextRecord { c with recIdx := c.recIdx + 1 }

/-! ### Host duties (R234) -/

/-- CMD.GETSN, CMD.GETDEVID, CMD.SEND_SYNC, CMD.SEND_AWAIT (R107). -/
def isSyncCommand (op : BitVec 5) : Bool := op == 0x06#5 || op == 0x07#5 || op == 0x08#5 || op == 0x09#5

/-- CMD.BUILD and CMD.SETBTR: each rewrites CMDBUF whole (R239). -/
def rewritesCmdbuf (op : BitVec 5) : Bool := op == 0x01#5 || op == 0x05#5

/-- DEC.MESSAGE, TSS.SET, TSS.UPDATE, BES.PROCESS, SESSION.RESET: mutually exclusive (R236). -/
def isInbound (op : BitVec 5) : Bool :=
  op == 0x0C#5 || op == 0x0D#5 || op == 0x0E#5 || op == 0x10#5 || op == 0x00#5

/-- TSS.COMPUTE, excluded from overlapping any of them (R236; that this outweighs its row among the
liberties of R234 is DEDUCED, log entry 12). -/
def isCompute (op : BitVec 5) : Bool := op == 0x0F#5

/-- SESSION.RESET, not presented while another operation of the session is in progress (R230). -/
def isReset (op : BitVec 5) : Bool := op == 0x00#5

/-- Whether presenting `op` while `d` is in progress breaks a duty of the host: a second synchronous
command (R107), or a build into the CMDBUF that the command in progress owns (R107, R239, R51;
DEDUCED, log entry 12); two operations that R236 excludes from each other; SESSION.RESET during any
operation (R230). Nothing else does. -/
def conflicts (op d : BitVec 5) : Bool :=
  ((isSyncCommand op || rewritesCmdbuf op) && isSyncCommand d)
    || (isInbound op && (isInbound d || isCompute d)) || (isCompute op && isInbound d) || isReset op

/-- The ports as the host drives them for a new operation. -/
def State.accept (s : State) (x : Operands) (now : List Instant) : State :=
  { s with port := x, clock := { s.clock with next := now }, outcome := none, calls := [] }

end Sys2Proof.Machine
end

