-- ==== Sys2Proof/Machine/Flags.lean ====
section
/-! DEFINITION. The error flag byte (30_encoding.md R72) and its gate (44_buserror.md R181). The other
flag byte of the block, the status/length byte (R63), is taken apart in Sys2Proof/Decode.lean. The
block stores no flag (10_state.md R25). -/

namespace Sys2Proof.Machine

/-- Whether a byte has the bit of a mask. -/
def hasFlag (flags mask : Byte) : Bool := flags &&& mask != 0#8

/-- RXQOVR and QOVR together: the overflow bits. -/
def overflowMask : Byte := Config.fRxqovr ||| Config.fQovr

/-- `gate(flags)` (R181): while no timestamp sample has been received, the overflow bits are clear. -/
def gateFlags (sampleCount : BitVec 32) (flags : Byte) : Byte :=
  if sampleCount = 0#32 then flags &&& ~~~overflowMask else flags

/-- L, H, O and V of R180: the conditions the state machine looks at. Every other bit is ignored (R191). -/
structure ErrorConditions where
  light : Bool
  heavy : Bool
  off : Bool
  overflow : Bool
  deriving DecidableEq, Repr

/-- The conditions of a gated flag byte (R180). -/
def errorConditions (f : Byte) : ErrorConditions where
  light := hasFlag f Config.fLight
  heavy := hasFlag f Config.fHeavy
  off := hasFlag f Config.fOff
  overflow := hasFlag f overflowMask

end Sys2Proof.Machine
end

