-- ==== Sys2Proof/Machine/BusError.lean ====
section
/-! DEFINITION. BES, the CAN bus error state machine (44_buserror.md). -/

namespace Sys2Proof.Machine

/-- The next state, and whether this byte reports an overflow: R182 to R185, one per state, clauses
tried in order. -/
def besNext (state : BusErrorState) (c : ErrorConditions) : BusErrorState × Bool :=
  match state with
  | .errorActive => if c.light then (.errorWarning, false) else (.errorActive, false)
  | .errorWarning =>
    if c.heavy then (.errorPassive, false)
    else if c.off then (.busOff, false)
    else if c.overflow then (.errorWarning, true)
    else if !c.light then (.errorActive, false)
    else (.errorWarning, false)
  | .errorPassive =>
    if c.off then (.busOff, false)
    else if c.light then (.errorWarning, false)
    else if c.overflow then (.errorPassive, true)
    else if !c.heavy then (.errorActive, false)
    else (.errorPassive, false)
  | .busOff => (.busOff, false)

/-- `cond_of` (R186). -/
def condOf : BusErrorState → Cond
  | .errorActive => .active
  | .errorWarning => .warning
  | .errorPassive => .passive
  | .busOff => .busOff

/-- The event of `commit(next, ovf, flags)` (R186): one for a change of state, else one for an
overflow, else none. `flags` is the byte as received (R189). -/
def besEvent (state next : BusErrorState) (ovf : Bool) (flags : Byte) : Option ErrorEvent :=
  if next ≠ state then some ⟨next, flags, condOf next⟩
  else if ovf then some ⟨state, flags, .rxOverflow⟩
  else none

/-- BES.PROCESS as R138 and the operation port invoke it (R180): the state after, and the event. -/
def besProcess (s : State) (flags : Byte) : State × Option ErrorEvent :=
  let r := besNext s.bs (errorConditions (gateFlags s.tr.sampleCount flags))
  ({ s with bs := r.1 }, besEvent s.bs r.1 r.2 flags)

/-- BES.PROCESS (R180). -/
def execBesProcess (s : State) : Answer :=
  let p := besProcess s s.port.flags
  .next (p.1.finish (.event p.2))

end Sys2Proof.Machine
end

