-- ==== Sys2Proof/Machine/Command.lean ====
section
/-! DEFINITION. CMD, the command frame serializer and bit-timing unit (40_command.md), and the three
device command frames (30_encoding.md R81, R82). No CMD operation touches a session register. -/

namespace Sys2Proof.Machine

/-! ### Pure parts -/

/-- The 14 argument bytes of a frame: the first 14 given, zero padded (R100, R61). -/
def frameArgs (args : List Byte) : List Byte :=
  (List.range Config.cmdArgs).map fun i => args.getD i 0#8

/-- `CMD.BUILD(functionality, number, args)`: what CMDBUF holds after it. Every byte of CMDBUF is
written on every call, so nothing of an earlier frame survives (R100). -/
def buildFrame (functionality number : Byte) (args : List Byte) : Memory :=
  let m : Memory := []
  ((m.memWrite 0 1 functionality.toNat).memWrite 1 1 number.toNat).writeBytes 2 (frameArgs args)

/-- The bytes of CMDBUF. -/
def State.cmdBytes (s : State) : List Byte := s.cmdbuf.bytes 0 Config.cmdLen

/-- CMD.PARSE of RPLBUF (R101): the 14 result bytes, or FramingError(0, rpl_len) when the reply is
not 16 bytes. Bytes 0 and 1 are not looked at. -/
def parseReply (b : Buffer) : Except OpFault (List Byte) :=
  if b.len = Config.cmdLen then .ok (b.mem.bytes 2 Config.cmdArgs) else .error (.framing 0 b.len)

/-- BTR0 (R102): u32 modulo 2^32, then masked. -/
def btr0Of (t : Bittiming) : Byte :=
  (((t.brp - 1#32) &&& 0x3F#32) ||| (((t.sjw - 1#32) &&& 0x3#32) <<< 6)).setWidth 8

/-- BTR1 (R102): `prop_seg + phase_seg1` is summed before masking. -/
def btr1Of (t : Bittiming) : Byte :=
  (((t.propSeg + t.phaseSeg1 - 1#32) &&& 0xF#32) ||| (((t.phaseSeg2 - 1#32) &&& 0x7#32) <<< 4)
    ||| (if t.tripleSample then 0x80#32 else 0#32)).setWidth 8

/-- The preset table (R103): bps, BTR0, BTR1. -/
def presetTable : List (Nat × Byte × Byte) :=
  [(1000000, 0x00#8, 0x14#8), (500000, 0x00#8, 0x1C#8), (250000, 0x01#8, 0x1C#8),
   (125000, 0x03#8, 0x1C#8), (100000, 0x43#8, 0x2F#8), (50000, 0x47#8, 0x2F#8),
   (20000, 0x53#8, 0x2F#8), (10000, 0x67#8, 0x2F#8), (5000, 0x7F#8, 0x7F#8)]

/-- The pair of a preset bitrate, by exact equality (R103). -/
def presetOf (bps : BitVec 32) : Except OpFault (Byte × Byte) :=
  match presetTable.lookup bps.toNat with
  | some p => .ok p
  | none => .error .invalidArgument

/-- The serial number: `le32(result[0], result[1], result[2], result[3])` (R82, R105). -/
def serialOf (result : List Byte) : BitVec 32 :=
  result.getD 3 0#8 ++ result.getD 2 0#8 ++ result.getD 1 0#8 ++ result.getD 0 0#8

/-- The device id: `zext_32(result[0])` (R82, R106). -/
def deviceIdOf (result : List Byte) : BitVec 32 := (result.getD 0 0#8).setWidth 32

/-! ### The command channel -/

/-- The send step of R109: NotConnected before anything is handed over, else one `transport.send`
of CMDBUF and its answer. DESIGN CHOICE (log entry 18): after a Timeout no completion has come, and
R50, R51 and R107 do not say whether CMDBUF may be rewritten then; the send counts as over with the
operation that made it, so the next build is accepted. -/
def sendStep (s : State) : State × Except OpFault Unit :=
  if s.port.connected then
    (s.call (.send s.cmdBytes),
      match s.port.sendAns with
      | .ok => .ok ()
      | .timeout => .error .timeout
      | .err e => .error (.transportError e))
  else (s, .error .notConnected)

/-- The receive step of R110: one `transport.receive`; its bytes fill RPLBUF and are parsed. -/
def receiveStep (s : State) : State × Except OpFault (List Byte) :=
  match s.port.recvAns with
  | .timeout => (s.call .receive, .error .timeout)
  | .err e => (s.call .receive, .error (.transportError e))
  | .ok bs =>
    ({ s.call .receive with rplbuf := Buffer.ofBytes bs }, parseReply (Buffer.ofBytes bs))

/-- Send CMDBUF and read the reply (R110). -/
def sendAwait (s : State) : State × Except OpFault (List Byte) :=
  match sendStep s with
  | (t, .ok ()) => receiveStep t
  | (t, .error f) => (t, .error f)

/-- `State.conclude` on what a step of the channel came to. -/
def concludeCommand {α : Type} (p : State × Except OpFault α) (g : α → Result) : State :=
  p.1.conclude g p.2

/-- CMDBUF rewritten by a build. -/
def State.withFrame (s : State) (functionality number : Byte) (args : List Byte) : State :=
  { s with cmdbuf := buildFrame functionality number args }

/-! ### The operations -/

/-- CMD.BUILD (R100). -/
def execCmdBuild (s : State) : Answer :=
  let t := s.withFrame s.port.functionality s.port.number s.port.args
  .next (t.finish (.bytes t.cmdBytes))

/-- CMD.PARSE (R101). -/
def execCmdParse (s : State) : Answer := .next (s.conclude .bytes (parseReply s.rplbuf))

/-- CMD.BTR (R102). -/
def execCmdBtr (s : State) : Answer :=
  .next (s.finish (.btr (btr0Of s.port.bittiming) (btr1Of s.port.bittiming)))

/-- CMD.PRESET (R103). -/
def execCmdPreset (s : State) : Answer :=
  .next (s.conclude (fun p => .btr p.1 p.2) (presetOf s.port.bps))

/-- CMD.SETBTR (R104). -/
def execCmdSetbtr (s : State) : Answer :=
  let t := s.withFrame Config.dcSetBitrate.1 Config.dcSetBitrate.2
    (Config.btrArgs s.port.btr0 s.port.btr1)
  .next (t.finish (.bytes t.cmdBytes))

/-- CMD.SEND_SYNC (R109). -/
def execCmdSendSync (s : State) : Answer := .next (concludeCommand (sendStep s) fun _ => .done)

/-- CMD.SEND_AWAIT (R110). -/
def execCmdSendAwait (s : State) : Answer := .next (concludeCommand (sendAwait s) .bytes)

/-- CMD.GETSN (R105). -/
def execCmdGetsn (s : State) : Answer :=
  .next (concludeCommand
    (sendAwait (s.withFrame Config.dcGetSerial.1 Config.dcGetSerial.2 []))
    fun r => .serial (serialOf r))

/-- CMD.GETDEVID (R106). -/
def execCmdGetdevid (s : State) : Answer :=
  .next (concludeCommand
    (sendAwait (s.withFrame Config.dcGetDevid.1 Config.dcGetDevid.2 []))
    fun r => .deviceId (deviceIdOf r))

/-- CMD.SEND_ASYNC (R111): OutOfMemory with nothing submitted, or the frame copied into a private
buffer and submitted. Neither CMDBUF nor `connected` is looked at. -/
def execCmdSendAsync (s : State) : Answer :=
  if s.port.allocOk then
    let t := s.call (.sendAsync s.port.cmd.toList s.port.onComplete)
    .next ({ t with asyncInFlight := s.asyncInFlight ++ [AsyncCmd.mk s.port.onComplete s.port.cmd] }.finish .done)
  else .next (s.raise .outOfMemory)

/-! ### The device command frames

What the block does with a frame of each kind that stands in CMDBUF with its request outstanding
(R81, R112; log entry 6): hand it to the device, and read the reply as the row of R81 says. What the
device does with it is not modelled: its reply is an oracle answer (R112). -/

/-- The outstanding request ends (R31). -/
def State.requestDone (s : State) : State := { s with cmdOutstanding := false }

/-- DEVCMD.SET_BITRATE (R81: no reply is read; R104). -/
def execDevcmdSetBitrate (s : State) : Answer :=
  .next (concludeCommand (sendStep s) fun _ => .done).requestDone

/-- DEVCMD.GET_SERIAL (R81, R82, R105). -/
def execDevcmdGetSerial (s : State) : Answer :=
  .next (concludeCommand (sendAwait s) fun r => .serial (serialOf r)).requestDone

/-- DEVCMD.GET_DEVID (R81, R82, R106). -/
def execDevcmdGetDevid (s : State) : Answer :=
  .next (concludeCommand (sendAwait s) fun r => .deviceId (deviceIdOf r)).requestDone

end Sys2Proof.Machine
end

