-- ==== Sys2Proof/WellFormed.lean ====
section
/-! DEFINITION. Well-formed instructions and well-formed frames. -/

namespace Sys2Proof

/-- An instruction is well formed when some encoding of the table means it: only REC.INT.UNKNOWN
has a condition, that its functionality is none of the five named ones (30_encoding.md R71, R74). -/
def Instr.wf : Instr → Bool
  | .sessionReset => true
  | .cmdBuild => true
  | .cmdParse => true
  | .cmdBtr => true
  | .cmdPreset => true
  | .cmdSetbtr => true
  | .cmdGetsn => true
  | .cmdGetdevid => true
  | .cmdSendSync => true
  | .cmdSendAwait => true
  | .cmdSendAsync => true
  | .encFrame => true
  | .decMessage => true
  | .tssSet => true
  | .tssUpdate => true
  | .tssCompute => true
  | .besProcess => true
  | .recDataStd _ _ _ => true
  | .recDataExt _ _ _ => true
  | .recIntError _ _ _ => true
  | .recIntAnalog _ _ _ => true
  | .recIntBusload _ _ _ => true
  | .recIntTs _ _ _ => true
  | .recIntBusevt _ _ _ => true
  | .recIntUnknown f _ _ _ => f != 1#8 && f != 2#8 && f != 3#8 && f != 4#8 && f != 5#8
  | .devcmdSetBitrate => true
  | .devcmdGetSerial => true
  | .devcmdGetDevid => true

/-- `dlc <= 8`, the one condition ENC.FRAME puts on its operand (41_message_encode.md R123). -/
def Frame.dlcOk (f : Frame) : Bool := decide (f.dlc.toNat ≤ 8)

/-- A standard frame has an 11-bit id (00_scope.md R14). -/
def Frame.idOk (f : Frame) : Bool := f.ext || decide (f.id.toNat < 2048)

/-- The data bytes from `dlc` on are zero, all of them in an RTR frame (R14). -/
def Frame.dataOk (f : Frame) : Bool :=
  decide (∀ i : Fin 8, (f.rtr = true ∨ f.dlc.toNat ≤ i.val) → f.data[i] = 0#8)

/-- A well-formed frame, as R14 and the round-trip law R124 say. -/
def Frame.wf (f : Frame) : Bool := f.dlcOk && f.idOk && f.dataOk

end Sys2Proof
end

