-- ==== Sys2Proof/Machine/Encode.lean ====
section
/-! DEFINITION. ENC, the outbound frame encoder (41_message_encode.md). -/

namespace Sys2Proof.Machine

/-- `sl` of an encoded frame: bits 7 and 6 are zero (R75, R120). -/
def encodedSl (f : Frame) : Byte :=
  f.dlc.setWidth 8 ||| (if f.rtr then 0x10#8 else 0#8) ||| (if f.ext then 0x20#8 else 0#8)

/-- Length in bytes of the id field (R68). -/
def idFieldLen (ext : Bool) : Nat := if ext then 4 else 2

/-- The id field as a number: `(id << 3) & 0xFFFFFFFF` or `(id << 5) & 0xFFFF` (R68). -/
def idFieldOf (f : Frame) : Nat :=
  if f.ext then (f.id.setWidth 32 <<< 3).toNat else ((f.id.setWidth 32 <<< 5).setWidth 16 : BitVec 16).toNat

/-- The data bytes that follow the id field: none in an RTR frame (R75). -/
def sentData (f : Frame) : List Byte := if f.rtr then [] else f.data.toList.take f.dlc.toNat

/-- `tx_len` (R121). -/
def txLen (f : Frame) : Nat :=
  4 + (if f.ext then 4 else 2) + (if f.rtr then 0 else f.dlc.toNat)

/-- The message ENC.FRAME writes into TXBUF, field by field in the order of R75 and R120. -/
def encodeFrame (f : Frame) (seq : Byte) : Buffer :=
  let b := ((Buffer.empty.memWrite 0 1 0x02).memWrite 1 1 0x01).memWrite 2 1 (encodedSl f).toNat
  let b := b.memWrite 3 (idFieldLen f.ext) (idFieldOf f)
  let p := 3 + idFieldLen f.ext
  let b := b.writeBytes p (sentData f)
  b.memWrite (p + (sentData f).length) 1 seq.toNat

/-- Whether a message is longer than a TXBUF holds (R121, R240). As `TX_CAP` is at least 16, one of
at most 16 bytes never is. -/
def exceedsTxCap (n : Nat) : Bool := decide (16 < n) && decide (Config.txCap < n)

/-- ENC.FRAME (R120): refused for `dlc > 8` (R123), for a slot the pool does not have, for a slot
still in flight (R238) and for a TXBUF that is too short (R121). -/
def execEncFrame (s : State) : Answer :=
  let f := s.port.frame
  if !f.dlcOk then .refused .dlcTooLarge
  else if !isSlot s.port.slot then .refused .noSuchSlot
  else if s.txInFlight.contains s.port.slot then .refused .slotInFlight
  else if exceedsTxCap (txLen f) then .refused .txBufferShort
  else
    let b := encodeFrame f s.txSeq
    .next ({ s with
      txbufs := setSlotBuffer s.txbufs s.port.slot b
      txSeq := s.txSeq + 1#8 }.finish (.bytes b.bytes))

end Sys2Proof.Machine
end

