-- ==== Sys2Proof/Decode.lean ====
section
/-! DEFINITION. The decoder, total on any bytes and rejecting by name, and after it the encoder,
both from the tables of 30_encoding.md (R63, R74, R81, R85). -/

namespace Sys2Proof

/-- Why bytes are no instruction. -/
inductive Reject where
  /-- `op` values 0x11 to 0x1F (R86), or a value that does not fit the 5-bit port. -/
  | reservedOp
  /-- Bytes 0 and 1 of a command frame are none of the three pairs of R81. -/
  | unknownCommand
  /-- Fewer bytes than the table's pattern covers. -/
  | truncated
  deriving DecidableEq, Repr

/-! ### The status/length byte (R63) -/

/-- Bit 7 of `sl`, TS: a timestamp field is present. -/
def slTs (sl : Byte) : Bool := sl.getLsbD 7

/-- Bit 6 of `sl`, INT: an internal record. -/
def slInt (sl : Byte) : Bool := sl.getLsbD 6

/-- Bit 5 of `sl`, EXT: an extended id. -/
def slExt (sl : Byte) : Bool := sl.getLsbD 5

/-- Bit 4 of `sl`, RTR. -/
def slRtr (sl : Byte) : Bool := sl.getLsbD 4

/-- Bits 5 and 4 of `sl`, ignored in an internal record (R78). -/
def slIgn (sl : Byte) : BitVec 2 := sl.extractLsb' 4 2

/-- Bits 3 to 0 of `sl`, LEN. -/
def slLen (sl : Byte) : BitVec 4 := sl.extractLsb' 0 4

/-! ### Decoding -/

/-- The operation-select codes of R85; 0x11 to 0x1F are reserved (R86). -/
def decodeOp (w : BitVec 5) : Except Reject Instr :=
  match w.toNat with
  | 0x00 => .ok .sessionReset
  | 0x01 => .ok .cmdBuild
  | 0x02 => .ok .cmdParse
  | 0x03 => .ok .cmdBtr
  | 0x04 => .ok .cmdPreset
  | 0x05 => .ok .cmdSetbtr
  | 0x06 => .ok .cmdGetsn
  | 0x07 => .ok .cmdGetdevid
  | 0x08 => .ok .cmdSendSync
  | 0x09 => .ok .cmdSendAwait
  | 0x0A => .ok .cmdSendAsync
  | 0x0B => .ok .encFrame
  | 0x0C => .ok .decMessage
  | 0x0D => .ok .tssSet
  | 0x0E => .ok .tssUpdate
  | 0x0F => .ok .tssCompute
  | 0x10 => .ok .besProcess
  | _ => .error .reservedOp

/-- The kind of an internal record with functionality `f` (R71, R74). -/
def decodeInternal (f sl : Byte) : Instr :=
  if f = 1#8 then .recIntError (slTs sl) (slIgn sl) (slLen sl)
  else if f = 2#8 then .recIntAnalog (slTs sl) (slIgn sl) (slLen sl)
  else if f = 3#8 then .recIntBusload (slTs sl) (slIgn sl) (slLen sl)
  else if f = 4#8 then .recIntTs (slTs sl) (slIgn sl) (slLen sl)
  else if f = 5#8 then .recIntBusevt (slTs sl) (slIgn sl) (slLen sl)
  else .recIntUnknown f (slTs sl) (slIgn sl) (slLen sl)

/-- The decode tree of R74. Every `sl` selects some kind, so no record is illegal (R79); the
functionality byte `f` is looked at only when INT is set. -/
def decodeRecord (sl f : Byte) : Instr :=
  if slInt sl then decodeInternal f sl
  else if slExt sl then .recDataExt (slTs sl) (slRtr sl) (slLen sl)
  else .recDataStd (slTs sl) (slRtr sl) (slLen sl)

/-- The device command frame with these bytes 0 and 1 (R81). -/
def decodeCommand (b0 b1 : Byte) : Except Reject Instr :=
  if (b0, b1) = Config.dcSetBitrate then .ok .devcmdSetBitrate
  else if (b0, b1) = Config.dcGetSerial then .ok .devcmdGetSerial
  else if (b0, b1) = Config.dcGetDevid then .ok .devcmdGetDevid
  else .error .unknownCommand

/-- The decoder: the instruction at the head of `bytes`, read in the given space. -/
def decode : Space → List Byte → Except Reject Instr
  | .op, [] => .error .truncated
  | .op, b :: _ => if b.toNat < 32 then decodeOp (b.setWidth 5) else .error .reservedOp
  | .record, [] => .error .truncated
  | .record, [sl] => if slInt sl then .error .truncated else .ok (decodeRecord sl 0#8)
  | .record, sl :: f :: _ => .ok (decodeRecord sl f)
  | .command, [] => .error .truncated
  | .command, [_] => .error .truncated
  | .command, b0 :: b1 :: _ => decodeCommand b0 b1

/-! ### Encoding -/

/-- The status/length byte of a data record (R63). -/
def encodeDataSl (ts ext rtr : Bool) (len : BitVec 4) : Byte :=
  BitVec.ofBool ts ++ BitVec.ofBool false ++ BitVec.ofBool ext ++ BitVec.ofBool rtr ++ len

/-- The status/length byte of an internal record (R63). -/
def encodeIntSl (ts : Bool) (ign : BitVec 2) (len : BitVec 4) : Byte :=
  BitVec.ofBool ts ++ BitVec.ofBool true ++ ign ++ len

/-- The space an instruction is decoded from (R7). -/
def Instr.space : Instr → Space
  | .sessionReset => .op
  | .cmdBuild => .op
  | .cmdParse => .op
  | .cmdBtr => .op
  | .cmdPreset => .op
  | .cmdSetbtr => .op
  | .cmdGetsn => .op
  | .cmdGetdevid => .op
  | .cmdSendSync => .op
  | .cmdSendAwait => .op
  | .cmdSendAsync => .op
  | .encFrame => .op
  | .decMessage => .op
  | .tssSet => .op
  | .tssUpdate => .op
  | .tssCompute => .op
  | .besProcess => .op
  | .recDataStd _ _ _ => .record
  | .recDataExt _ _ _ => .record
  | .recIntError _ _ _ => .record
  | .recIntAnalog _ _ _ => .record
  | .recIntBusload _ _ _ => .record
  | .recIntTs _ _ _ => .record
  | .recIntBusevt _ _ _ => .record
  | .recIntUnknown _ _ _ _ => .record
  | .devcmdSetBitrate => .command
  | .devcmdGetSerial => .command
  | .devcmdGetDevid => .command

/-- The bytes the opcode table's pattern covers, first byte first. -/
def encode : Instr → List Byte
  | .sessionReset => [0x00#8]
  | .cmdBuild => [0x01#8]
  | .cmdParse => [0x02#8]
  | .cmdBtr => [0x03#8]
  | .cmdPreset => [0x04#8]
  | .cmdSetbtr => [0x05#8]
  | .cmdGetsn => [0x06#8]
  | .cmdGetdevid => [0x07#8]
  | .cmdSendSync => [0x08#8]
  | .cmdSendAwait => [0x09#8]
  | .cmdSendAsync => [0x0A#8]
  | .encFrame => [0x0B#8]
  | .decMessage => [0x0C#8]
  | .tssSet => [0x0D#8]
  | .tssUpdate => [0x0E#8]
  | .tssCompute => [0x0F#8]
  | .besProcess => [0x10#8]
  | .recDataStd ts rtr len => [encodeDataSl ts false rtr len]
  | .recDataExt ts rtr len => [encodeDataSl ts true rtr len]
  | .recIntError ts ign len => [encodeIntSl ts ign len, 1#8]
  | .recIntAnalog ts ign len => [encodeIntSl ts ign len, 2#8]
  | .recIntBusload ts ign len => [encodeIntSl ts ign len, 3#8]
  | .recIntTs ts ign len => [encodeIntSl ts ign len, 4#8]
  | .recIntBusevt ts ign len => [encodeIntSl ts ign len, 5#8]
  | .recIntUnknown f ts ign len => [encodeIntSl ts ign len, f]
  | .devcmdSetBitrate => [Config.dcSetBitrate.1, Config.dcSetBitrate.2]
  | .devcmdGetSerial => [Config.dcGetSerial.1, Config.dcGetSerial.2]
  | .devcmdGetDevid => [Config.dcGetDevid.1, Config.dcGetDevid.2]

/-! ### The words of the opcode table -/

/-- Which space a word of the opcode table belongs to, from its width (log entry 11). 5-bit rows are
operation codes. A word of one byte is an operation code when it is at most 0x10 and a data record
otherwise (the table's SESSION.RESET and REC.DATA.STD share the word 0x00). A word of two bytes is
an internal record when bit 6 is set and a device command frame otherwise. -/
def tableSpace (nbits w : Nat) : Option Space :=
  if nbits = 5 then some .op
  else if nbits = 8 then if w ≤ 0x10 then some .op else some .record
  else if nbits = 16 then if w.testBit 6 then some .record else some .command
  else none

/-- `n` bytes of `w`, its least significant byte first. -/
def bytesOf : Nat → Nat → List Byte
  | 0, _ => []
  | n + 1, w => BitVec.ofNat 8 w :: bytesOf n (w / 256)

/-- The longest instruction, an internal record of 20 bytes (R66). -/
def longestRecord : Nat := 20

/-- The instruction's bytes in buffer order, every bit above `nbits` zero. -/
def tableBytes (nbits w : Nat) : List Byte := bytesOf longestRecord (w % 2 ^ nbits)

/-- The instruction the decoder reads from a word of the opcode table. -/
def decodeTableWord (nbits w : Nat) : Option Instr :=
  match tableSpace nbits w with
  | none => none
  | some sp =>
    match decode sp (tableBytes nbits w) with
    | .ok i => some i
    | .error _ => none

end Sys2Proof
end

