-- ==== Sys2Proof/Machine/Operands.lean ====
section
/-! DEFINITION. The operand forms of a record, read from RXBUF at DC.pc: the parse phase of every
record kind (42_message_decode.md R132 to R137; 30_encoding.md R64 to R70), and fetching a record. -/

namespace Sys2Proof.Machine

/-- Move the cursor past `k` bytes. -/
def DecodeCtx.skip (c : DecodeCtx) (k : Nat) : DecodeCtx := { c with pc := c.pc + k }

/-- `need(k)` (R132): the bytes about to be consumed must all lie in RXBUF. -/
def need (b : Buffer) (c : DecodeCtx) (k : Nat) : Except OpFault Unit :=
  if b.len < c.pc + k then .error (.framing c.recIdx c.pc) else .ok ()

/-- The rolling counter after a TS8 byte (R134): a low byte less than the last one carries into the
high byte, modulo 2^16. -/
def rollTick (ts16 : Tick) (b : Byte) : Tick :=
  let t := if b.toNat < (ts16.extractLsb' 0 8).toNat then ts16 + 0x100#16 else ts16
  t.extractLsb' 8 8 ++ b

/-- `decode_ts()` (R134): TS16 for the first timestamp field of the message, TS8 after it. -/
def decodeTs (b : Buffer) (c : DecodeCtx) : Except OpFault DecodeCtx :=
  if c.tsIdx = 0 then do
    need b c 2
    pure { c with
      ts16 := BitVec.ofNat 16 (b.mem.memRead c.pc 2), pc := c.pc + 2, tsIdx := c.tsIdx + 1 }
  else do
    need b c 1
    pure { c with ts16 := rollTick c.ts16 (b.mem.read c.pc), pc := c.pc + 1, tsIdx := c.tsIdx + 1 }

/-- `decode_ts()` where the record has a timestamp field. -/
def decodeTsIf (present : Bool) (b : Buffer) (c : DecodeCtx) : Except OpFault DecodeCtx :=
  if present then decodeTs b c else .ok c

/-- The CAN id of an id field: `>> 5` of 2 bytes or `>> 3` of 4 bytes (R68). -/
def idOfField (ext : Bool) (field : Nat) : BitVec 29 :=
  BitVec.ofNat 29 (if ext then field >>> 3 else field >>> 5)

/-- `min(sl[3:0], 8)` (R69). -/
def clampDlc (len : BitVec 4) : BitVec 4 := if 8 < len.toNat then 8#4 else len

/-- Eight data bytes, of which the first `n` stand at offset `a` and the rest are zero (R135). -/
def dataAt (m : Memory) (a n : Nat) : Vector Byte 8 :=
  let g := fun i => if i < n then m.read (a + i) else 0#8
  #v[g 0, g 1, g 2, g 3, g 4, g 5, g 6, g 7]

/-- What the parse phase of a data record reads. `stamped` says that it had a timestamp field. -/
structure DataFields where
  id : BitVec 29
  dlc : BitVec 4
  data : Vector Byte 8
  stamped : Bool
  deriving DecidableEq, Repr

/-- The parse phase of REC.DATA.STD and REC.DATA.EXT (R135, R136): id field, timestamp field if bit 7
is set (always, under P_DATA_TS_ALWAYS: R147), data bytes unless RTR. -/
def parseData (always ext ts rtr : Bool) (len : BitVec 4) (b : Buffer) (c : DecodeCtx) :
    Except OpFault (DataFields × DecodeCtx) := do
  need b c (idFieldLen ext)
  let id := idOfField ext (b.mem.memRead c.pc (idFieldLen ext))
  let c ← decodeTsIf (ts || always) b (c.skip (idFieldLen ext))
  let n := if rtr then 0 else (clampDlc len).toNat
  need b c n
  pure (⟨id, clampDlc len, dataAt b.mem c.pc n, ts || always⟩, c.skip n)

/-- The payload length `L` of an internal record (R70). -/
def payloadLen (f : Byte) (len : BitVec 4) : Nat :=
  if f = 2#8 then 2 else if f = 3#8 then 1 else len.toNat

/-- The parse phase every internal record shares (R137): sub-header, timestamp field if bit 7 is set,
payload skipped. Answers the `number` byte. `f` is the record's functionality. -/
def parseInternal (f : Byte) (ts : Bool) (len : BitVec 4) (b : Buffer) (c : DecodeCtx) :
    Except OpFault (Byte × DecodeCtx) := do
  need b c 2
  let number := b.mem.read (c.pc + 1)
  let c ← decodeTsIf ts b (c.skip 2)
  need b c (payloadLen f len)
  pure (number, c.skip (payloadLen f len))

/-! ### Fetching a record -/

/-- The fetch of R133: the status/length byte with its `need(1)`, then, for an internal record, the
functionality byte under the `need(2)` of R137. Answers the record and the context with the cursor
past the status/length byte. -/
def fetchRecord (b : Buffer) (c : DecodeCtx) : Except OpFault (Instr × DecodeCtx) := do
  need b c 1
  let sl := b.mem.read c.pc
  need b (c.skip 1) (if slInt sl then 2 else 0)
  pure (decodeRecord sl (b.mem.read (c.pc + 1)), c.skip 1)

end Sys2Proof.Machine
end

