-- ==== Sys2Proof/Machine/Timestamp.lean ====
section
/-! DEFINITION. TSS, the timestamp synchronizer (43_timestamp.md). -/

namespace Sys2Proof.Machine

/-- `(tick - TR.dev_tick_last) & 0xFFFF`, always in 0 to 65535 (R160, R163). -/
def TimeRef.delta (tr : TimeRef) (tick : Tick) : Tick := tick - tr.devTickLast

/-- `accumulate(tick)` (R160). -/
def TimeRef.accumulate (tr : TimeRef) (tick : Tick) : TimeRef :=
  { tr with
    cumulativeTicks := tr.cumulativeTicks + (tr.delta tick).setWidth 64
    devTickPrev := tr.devTickLast
    devTickLast := tick }

/-- Whether the epoch is older than 4200 s: in naturals, strictly (R161, R16). -/
def TimeRef.rebaseDue (tr : TimeRef) (now : Instant) : Bool :=
  decide (tr.hostEpoch0.toNat + Config.rebaseUs < now.toNat)

/-- The first step of TSS.SET: establish the epoch, rebase it, or leave it (R161). -/
def TimeRef.epochStep (tr : TimeRef) (now : Instant) : TimeRef :=
  if !tr.epochValid then { tr with hostEpoch0 := now, cumulativeTicks := 0#64, epochValid := true }
  else if tr.rebaseDue now then { tr with hostEpoch0 := tr.hostEpochLast, cumulativeTicks := 0#64 }
  else tr

/-- `min(TR.sample_count + 1, 2^32 - 1)` (R161, R16). -/
def nextSampleCount (n : BitVec 32) : BitVec 32 := BitVec.ofNat 32 (min (n.toNat + 1) (2 ^ 32 - 1))

/-- The whole of TSS.SET on the registers, given the sample (R161). -/
def TimeRef.set (tr : TimeRef) (tick : Tick) (now : Instant) : TimeRef :=
  ({ tr.epochStep now with
    hostEpochLast := now
    sampleCount := nextSampleCount tr.sampleCount }).accumulate tick

/-- `(k * 44739243) >> 20`, exact in naturals (R163). -/
def microsOf (k : Nat) : Nat := (k * Config.tickMul) >>> Config.tickShift

/-- The host time of a tick under an epoch (R163): sum, product and shift in naturals, the result
modulo 2^64. -/
def TimeRef.hostTime (tr : TimeRef) (tick : Tick) : Instant :=
  BitVec.ofNat 64
    (tr.hostEpoch0.toNat + microsOf (tr.cumulativeTicks.toNat + (tr.delta tick).toNat))

/-- The result of TSS.COMPUTE, given the sample (R163): the sample itself while there is no epoch. -/
def TimeRef.compute (tr : TimeRef) (tick : Tick) (now : Instant) : Instant :=
  if tr.epochValid then tr.hostTime tick else now

/-- TSS.SET as REC.INT.TS and the operation port invoke it: draws one sample (R161). -/
def tssSet (s : State) (tick : Tick) : Except Refusal State :=
  match s.clock.draw with
  | .error r => .error r
  | .ok (now, clock) => .ok { s with tr := s.tr.set tick now, clock := clock }

/-- TSS.UPDATE as REC.INT.TS and the operation port invoke it: no sample, no rebase (R162). -/
def tssUpdate (s : State) (tick : Tick) : State := { s with tr := s.tr.accumulate tick }

/-- TSS.COMPUTE as the data records and the operation port invoke it: draws one sample whether or
not it uses it, and writes no register (R163). -/
def tssCompute (s : State) (tick : Tick) : Except Refusal (Instant × State) :=
  match s.clock.draw with
  | .error r => .error r
  | .ok (now, clock) => .ok (s.tr.compute tick now, { s with clock := clock })

/-- TSS.SET (R161). -/
def execTssSet (s : State) : Answer :=
  match tssSet s s.port.tick with
  | .error r => .refused r
  | .ok t => .next (t.finish .done)

/-- TSS.UPDATE (R162). -/
def execTssUpdate (s : State) : Answer := .next ((tssUpdate s s.port.tick).finish .done)

/-- TSS.COMPUTE (R163). -/
def execTssCompute (s : State) : Answer :=
  match tssCompute s s.port.tick with
  | .error r => .refused r
  | .ok (time, t) => .next (t.finish (.time time))

end Sys2Proof.Machine
end

