-- ==== Sys2Proof/Machine/Message.lean ====
section
/-! DEFINITION. DEC, the inbound message decoder and its record kinds (42_message_decode.md).
A record runs in the open decode context, with the cursor past its status/length byte. -/

namespace Sys2Proof.Machine

/-! ### What the record kinds share -/

/-- The Frame a data record emits (R135). -/
def frameOf (ext rtr : Bool) (d : DataFields) (ts : Option Tick) (hw : Option Instant) : Frame :=
  ⟨d.id, ext, rtr, d.dlc, d.data, ts, hw⟩

/-- The effect phase of a data record (R135): TSS.COMPUTE if it is timestamped, then one Frame. -/
def dataEffect (ext rtr : Bool) (d : DataFields) (tick : Tick) (s : State) : Answer :=
  if d.stamped then
    match tssCompute s tick with
    | .error r => .refused r
    | .ok (hw, t) => .next (t.emit (.frame (frameOf ext rtr d (some tick) (some hw))))
  else .next (s.emit (.frame (frameOf ext rtr d none none)))

/-- A data record: the parse phase, and the effect phase only if all of it succeeded (R133, R144). -/
def runData (always ext ts rtr : Bool) (len : BitVec 4) (s : State) : Answer :=
  match s.dc with
  | none => .refused .noDecodeContext
  | some c =>
    match parseData always ext ts rtr len s.rxbuf c with
    | .error f => .next (s.abortPass f)
    | .ok (d, c') => dataEffect ext rtr d c'.ts16 { s with dc := some c' }

/-- An internal record: the parse phase of R137, then the effect of its kind (R133, R144). -/
def runInternal (f : Byte) (ts : Bool) (len : BitVec 4) (effect : Byte → DecodeCtx → State → Answer)
    (s : State) : Answer :=
  match s.dc with
  | none => .refused .noDecodeContext
  | some c =>
    match parseInternal f ts len s.rxbuf c with
    | .error e => .next (s.abortPass e)
    | .ok (number, c') => effect number c' { s with dc := some c' }

/-- The effect phase of a skipped record: nothing (R139, R140, R142, R143). -/
def skipEffect (_number : Byte) (_c : DecodeCtx) (s : State) : Answer := .next s

/-- The effect phase of REC.INT.ERROR (R138): BES.PROCESS of the `number` byte, its event emitted. -/
def errorEffect (number : Byte) (_c : DecodeCtx) (s : State) : Answer :=
  match besProcess s number with
  | (t, none) => .next t
  | (t, some e) => .next (t.emit (.errorEvent e))

/-- The effect phase of REC.INT.TS (R141): with a timestamp, TSS.SET for the first such record of
the message and TSS.UPDATE for later ones, then a TimestampOnly; without one, nothing. -/
def tsEffect (ts : Bool) (_number : Byte) (c : DecodeCtx) (s : State) : Answer :=
  let mark := fun (t : State) =>
    { t with dc := some { c with syncSeen := true } }.emit (.timestampOnly c.ts16)
  if !ts then .next s
  else if c.syncSeen then .next (mark (tssUpdate s c.ts16))
  else
    match tssSet s c.ts16 with
    | .error r => .refused r
    | .ok t => .next (mark t)

/-! ### The record kinds -/

/-- REC.DATA.STD (R135). -/
def execRecDataStd (ts rtr : Bool) (len : BitVec 4) (s : State) : Answer :=
  runData Config.dataTsAlways false ts rtr len s

/-- REC.DATA.EXT (R136). -/
def execRecDataExt (ts rtr : Bool) (len : BitVec 4) (s : State) : Answer :=
  runData Config.dataTsAlways true ts rtr len s

/-- REC.INT.ERROR (R138). -/
def execRecIntError (ts : Bool) (len : BitVec 4) (s : State) : Answer :=
  runInternal 1#8 ts len errorEffect s

/-- REC.INT.ANALOG (R139). -/
def execRecIntAnalog (ts : Bool) (len : BitVec 4) (s : State) : Answer :=
  runInternal 2#8 ts len skipEffect s

/-- REC.INT.BUSLOAD (R140). -/
def execRecIntBusload (ts : Bool) (len : BitVec 4) (s : State) : Answer :=
  runInternal 3#8 ts len skipEffect s

/-- REC.INT.TS (R141). -/
def execRecIntTs (ts : Bool) (len : BitVec 4) (s : State) : Answer :=
  runInternal 4#8 ts len (tsEffect ts) s

/-- REC.INT.BUSEVT (R142). -/
def execRecIntBusevt (ts : Bool) (len : BitVec 4) (s : State) : Answer :=
  runInternal 5#8 ts len skipEffect s

/-- REC.INT.UNKNOWN (R143). -/
def execRecIntUnknown (f : Byte) (ts : Bool) (len : BitVec 4) (s : State) : Answer :=
  runInternal f ts len skipEffect s

/-- The meaning of a record inside a pass; no operation and no command frame stands in a message. -/
def execRecord (i : Instr) (s : State) : Answer :=
  match i with
  | .recDataStd ts rtr len => execRecDataStd ts rtr len s
  | .recDataExt ts rtr len => execRecDataExt ts rtr len s
  | .recIntError ts _ len => execRecIntError ts len s
  | .recIntAnalog ts _ len => execRecIntAnalog ts len s
  | .recIntBusload ts _ len => execRecIntBusload ts len s
  | .recIntTs ts _ len => execRecIntTs ts len s
  | .recIntBusevt ts _ len => execRecIntBusevt ts len s
  | .recIntUnknown f ts _ len => execRecIntUnknown f ts len s
  | .sessionReset | .cmdBuild | .cmdParse | .cmdBtr | .cmdPreset | .cmdSetbtr | .cmdGetsn
  | .cmdGetdevid | .cmdSendSync | .cmdSendAwait | .cmdSendAsync | .encFrame | .decMessage | .tssSet
  | .tssUpdate | .tssCompute | .besProcess | .devcmdSetBitrate | .devcmdGetSerial
  | .devcmdGetDevid => .refused .noDecodeContext

/-! ### The operation -/

/-- One turn of the loop of R130: fetch the record at the cursor, run it with `run`, and go to the
next one. A FramingError ends the pass (R145). -/
def recordTurn (run : Instr → State → Answer) (s : State) : Answer :=
  match s.dc with
  | none => .next s
  | some c =>
    match fetchRecord s.rxbuf c with
    | .error f => .next (s.abortPass f)
    | .ok (i, c') =>
      match run i { s with dc := some c' } with
      | .next t => .next t.advance
      | .fault f => .fault f
      | .refused r => .refused r

/-- At most `n` turns, ending when the pass has. -/
def runPass (run : Instr → State → Answer) : Nat → State → Answer
  | 0, s => .next s
  | n + 1, s =>
    match s.dc with
    | none => .next s
    | some _ =>
      match recordTurn run s with
      | .next t => runPass run n t
      | .fault f => .fault f
      | .refused r => .refused r

/-- The decode context right after the header (R130). -/
def headerCtx (b : Buffer) : DecodeCtx where
  pc := 2
  version := b.mem.read 0
  recCount := b.mem.read 1
  recIdx := 0
  ts16 := 0#16
  tsIdx := 0
  syncSeen := false

/-- The state right after the header: an open pass, or one that has ended when it has no records. -/
def State.openPass (s : State) : State :=
  { s with items := [] }.nextRecord (headerCtx s.rxbuf)

/-- DEC.MESSAGE (R130): the empty buffer, the header, then the loop over its records. -/
def execDecMessage (s : State) : Answer :=
  if s.rxbuf.len = 0 then .next ({ s with items := [] }.finish (.version none))
  else if s.rxbuf.len < 2 then .next ({ s with items := [] }.raise (.framing 0 0))
  else runPass execRecord (s.rxbuf.mem.read 1).toNat s.openPass

end Sys2Proof.Machine
end

