-- ==== Sys2Proof/Machine/Session.lean ====
section
/-! DEFINITION. SESSION.RESET, the external restart (70_reset_and_hazards.md R230). -/

namespace Sys2Proof.Machine

/-- SESSION.RESET (R230): all nine registers; no buffer, nothing of the transport, nothing in flight. -/
def execSessionReset (s : State) : Answer :=
  .next ({ s with tr := TimeRef.reset, bs := .errorActive, txSeq := 0#8 }.finish .done)

end Sys2Proof.Machine
end

