-- ==== Sys2Proof/Machine/Dispatch.lean ====
section
/-! DEFINITION. One arm per instruction. -/

namespace Sys2Proof.Machine

def exec (i : Instr) (s : State) : Host.Outcome State Fault Refusal :=
  match i with
  | .sessionReset => Sys2Proof.Machine.execSessionReset s
  | .cmdBuild => Sys2Proof.Machine.execCmdBuild s
  | .cmdParse => Sys2Proof.Machine.execCmdParse s
  | .cmdBtr => Sys2Proof.Machine.execCmdBtr s
  | .cmdPreset => Sys2Proof.Machine.execCmdPreset s
  | .cmdSetbtr => Sys2Proof.Machine.execCmdSetbtr s
  | .cmdGetsn => Sys2Proof.Machine.execCmdGetsn s
  | .cmdGetdevid => Sys2Proof.Machine.execCmdGetdevid s
  | .cmdSendSync => Sys2Proof.Machine.execCmdSendSync s
  | .cmdSendAwait => Sys2Proof.Machine.execCmdSendAwait s
  | .cmdSendAsync => Sys2Proof.Machine.execCmdSendAsync s
  | .encFrame => Sys2Proof.Machine.execEncFrame s
  | .decMessage => Sys2Proof.Machine.execDecMessage s
  | .tssSet => Sys2Proof.Machine.execTssSet s
  | .tssUpdate => Sys2Proof.Machine.execTssUpdate s
  | .tssCompute => Sys2Proof.Machine.execTssCompute s
  | .besProcess => Sys2Proof.Machine.execBesProcess s
  | .recDataStd ts rtr len => Sys2Proof.Machine.execRecDataStd ts rtr len s
  | .recDataExt ts rtr len => Sys2Proof.Machine.execRecDataExt ts rtr len s
  | .recIntError ts _ len => Sys2Proof.Machine.execRecIntError ts len s
  | .recIntAnalog ts _ len => Sys2Proof.Machine.execRecIntAnalog ts len s
  | .recIntBusload ts _ len => Sys2Proof.Machine.execRecIntBusload ts len s
  | .recIntTs ts _ len => Sys2Proof.Machine.execRecIntTs ts len s
  | .recIntBusevt ts _ len => Sys2Proof.Machine.execRecIntBusevt ts len s
  | .recIntUnknown f ts _ len => Sys2Proof.Machine.execRecIntUnknown f ts len s
  | .devcmdSetBitrate => Sys2Proof.Machine.execDevcmdSetBitrate s
  | .devcmdGetSerial => Sys2Proof.Machine.execDevcmdGetSerial s
  | .devcmdGetDevid => Sys2Proof.Machine.execDevcmdGetDevid s

end Sys2Proof.Machine
end

