-- ==== Sys2Proof/Machine/Transport.lean ====
section
/-! DEFINITION. What the transport does to the block between operations (20_memory.md R51,
40_command.md R108, R111, 70_reset_and_hazards.md R238), the host duties checked there, and which
event comes next when encoders wait for a transmit slot. -/

namespace Sys2Proof.Machine

/-- Whether an inbound buffer of this length may exist (R10 `RX_MAX`). -/
def rxFits (n : Nat) : Bool :=
  match Config.rxMax with
  | none => true
  | some m => decide (n ≤ m)

/-- An inbound message fills RXBUF, but not during a DEC.MESSAGE (R52). DESIGN CHOICE (log entry 17):
R51 does not say what becomes of a message that no DEC.MESSAGE has decoded; the next one replaces it,
and nothing marks a message as decoded, so DEC.MESSAGE may run on it again. -/
def deliverRx (s : State) (during : List (BitVec 5)) (bytes : List Byte) : Answer :=
  if during.contains 0x0C#5 then .refused .rxRewritten
  else if !rxFits bytes.length then .refused .rxTooLong
  else .next { s with rxbuf := Buffer.ofBytes bytes }

/-- A reply fills RPLBUF (R40), but not during a synchronous command, whose buffer it is (R107). -/
def deliverReply (s : State) (during : List (BitVec 5)) (bytes : List Byte) : Answer :=
  if during.any isSyncCommand then .refused .replyRewritten
  else .next { s with rplbuf := Buffer.ofBytes bytes }

/-- The encoder agent hands a slot's TXBUF to the transport (R51, R125). DESIGN CHOICE (log entry 16):
R8, R51, R125 and R238 do not say whether a slot may be handed over into which no ENC.FRAME has
encoded, ever or since its last transmission; every slot of the pool that is not in flight may, its
TXBUF as it stands, the empty one included. -/
def submitSlot (s : State) (slot : Nat) : Answer :=
  if !isSlot slot then .refused .noSuchSlot
  else if s.txInFlight.contains slot then .refused .slotInFlight
  else .next { s with txInFlight := insertSlot s.txInFlight slot }

/-- A slot's transmission completes: the slot may be used again (R238). -/
def slotDone (s : State) (slot : Nat) : Answer :=
  if s.txInFlight.contains slot then .next { s with txInFlight := s.txInFlight.erase slot }
  else .refused .nothingInFlight

/-- An asynchronous command completes: `on_complete` is invoked once and its buffer released (R111). -/
def asyncDone (s : State) (k : Nat) (error : Option TransportErr) : Answer :=
  match s.asyncInFlight[k]? with
  | none => .refused .nothingInFlight
  | some c =>
    .next { s with
      asyncInFlight := s.asyncInFlight.eraseIdx k
      completions := s.completions ++ [⟨c.onComplete, error⟩] }

/-! ### A full pool (R51, R238) -/

/-- Every transmit slot is in flight. -/
def State.poolFull (s : State) : Bool :=
  !s.txInFlight.isEmpty && decide (Config.txSlots ≤ s.txInFlight.length)

/-- Whether an event presents ENC.FRAME (R85). -/
def Event.presentsEncode (e : Event) : Bool :=
  match e.action with
  | .present op _ _ => op == 0x0B#5
  | .deliverRx _ | .deliverReply _ | .submitSlot _ | .slotDone _ | .asyncDone _ _ => false

/-- The event that happens next, and the others in their order. With a full pool there is no
ENC.FRAME step until a completion (R51, R238): an encoder that presents one waits, and what comes
after it happens first. -/
def nextEvent (full : Bool) : List Event → Option (Event × List Event)
  | [] => none
  | e :: rest =>
    if e.presentsEncode && full then
      match nextEvent full rest with
      | none => none
      | some (a, others) => some (a, e :: others)
    else some (e, rest)

end Sys2Proof.Machine
end

