-- ==== Sys2Proof/Machine/Step.lean ====
section
/-! DEFINITION. One step of the machine (00_scope.md R6, 20_memory.md R49): what is open goes first,
then what the host or the transport does next; with nothing to do the block waits (10_state.md R30). -/

namespace Sys2Proof.Machine

/-- A presented operation: refused when it breaks a duty that the host must keep (U4 of
93_implementation_defined.md; R107, R230, R236) or its code is reserved (R86), else run with its
operands on the ports. -/
def presentOp (s : State) (during : List (BitVec 5)) (op : BitVec 5) (x : Operands)
    (now : List Instant) : Answer :=
  if during.any (conflicts op) then .refused .notSerialized
  else
    match decodeOp op with
    | .error _ => .refused .reservedOp
    | .ok i => exec i (s.accept x now)

/-- What the host or the transport does. -/
def takeEvent (s : State) (e : Event) : Answer :=
  match e.action with
  | .present op x now => presentOp s e.during op x now
  | .deliverRx bytes => deliverRx s e.during bytes
  | .deliverReply bytes => deliverReply s e.during bytes
  | .submitSlot slot => submitSlot s slot
  | .slotDone slot => slotDone s slot
  | .asyncDone k error => asyncDone s k error

/-- The outstanding command frame: fetched from CMDBUF and run (log entry 6). -/
def commandTurn (s : State) : Answer :=
  match decodeCommand (s.cmdbuf.read 0) (s.cmdbuf.read 1) with
  | .error _ => .refused .unknownCommand
  | .ok i => exec i s

/-- The next event, if one can happen. With none the block waits (R30); but when encoders wait for a
transmit slot and nothing else is left, no completion ever comes and they are stuck (R238, U26; log
entry 14). -/
def eventTurn (s : State) : Answer :=
  match nextEvent s.poolFull s.events with
  | some (e, rest) => takeEvent { s with events := rest } e
  | none =>
    match s.events with
    | [] => .next s
    | _ :: _ => .fault .encoderStuck

/-- One step. -/
def step (s : State) : Host.Outcome State Fault Refusal :=
  match s.dc with
  | some _ => recordTurn exec s
  | none => if s.cmdOutstanding then commandTurn s else eventTurn s

/-- Where the step fetches an instruction of each space from (log entry 11): an operation is
presented by the host with the operands that stand on the ports (ENC.FRAME waits in a full pool as
ever); a record is the one record of a
message in RXBUF, its header decoded; a command frame stands in CMDBUF with its request outstanding. -/
def State.withFetchWord (s : State) (nbits w : Nat) : State :=
  match tableSpace nbits w with
  | none => s
  | some .op =>
    { s with
      dc := none
      cmdOutstanding := false
      events := ⟨.present (BitVec.ofNat 5 w) s.port s.clock.next, []⟩ :: s.events }
  | some .record =>
    let rx := Buffer.ofBytes (0x02#8 :: 0x01#8 :: tableBytes nbits w)
    { s with rxbuf := rx, dc := some (headerCtx rx) }
  | some .command =>
    { s with
      dc := none
      cmdOutstanding := true
      cmdbuf := Memory.writeBytes [] 0 ((tableBytes nbits w).take Config.cmdLen) }

end Sys2Proof.Machine
end

