-- ==== Sys2Proof/Safety.lean ====
section
/-! DEFINITION. The well-formed states, what a run is safe from, and when a run is over, in the
terms the statements use. -/

namespace Sys2Proof.Machine

/-! ### The invariant -/

/-- Every buffer is canonical, no byte lies beyond a buffer's length (20_memory.md R41), and CMDBUF
holds nothing beyond its 16 bytes (R40). -/
def State.memoryOk (s : State) : Bool :=
  s.rxbuf.wf && s.rplbuf.wf && s.txbufs.all Buffer.wf && s.cmdbuf.wf
    && s.cmdbuf.all fun x => decide (x.1 < Config.cmdLen)

/-- `TR.epoch_valid = 1` if and only if `TR.sample_count >= 1` (10_state.md R33). -/
def State.epochOk (s : State) : Bool := s.tr.epochValid == decide (1 ≤ s.tr.sampleCount.toNat)

/-- The slots in flight are listed once each, rising, and are slots of the pool (R31, R238). -/
def State.flightOk (s : State) : Bool :=
  decide (s.txInFlight.Pairwise fun a b => a < b) && s.txInFlight.all isSlot

/-- In an open pass `DC.pc <= DC.len` (R33) and a record is left to decode (R130). -/
def State.passOk (s : State) : Bool :=
  match s.dc with
  | none => true
  | some c => decide (c.pc ≤ s.rxbuf.len) && decide (c.recIdx < c.recCount.toNat)

/-- A well-formed state. -/
def State.wf (s : State) : Bool := s.memoryOk && s.epochOk && s.flightOk && s.passOk

/-! ### Records that do not fit -/

/-- The offset of the first byte of the first field that does not fit, for consecutive fields of
these lengths from `pc` on in a buffer of length `len`; past the last field when all fit (the `off` of
42_message_decode.md R132 and 60_exceptions.md R201). -/
def firstUnfit (len pc : Nat) : List Nat → Nat
  | [] => pc
  | n :: fields => if len < pc + n then pc else firstUnfit len (pc + n) fields

/-! ### Between operations -/

/-- Nothing is open: no decode context, no outstanding command request (R26, R31). -/
def State.betweenOps (s : State) : Bool := s.dc.isNone && !s.cmdOutstanding

/-- The host clock keeps its duty (70_reset_and_hazards.md R241): the samples it will supply never
decrease, from the latest one on. -/
def HostClock.monotone (c : HostClock) : Bool :=
  decide ((c.last :: c.next).Pairwise fun a b => a.toNat ≤ b.toNat)

/-! ### Runs -/

/-- A run is over (R233): the last operation has returned, nothing is presented, nothing is in
flight. -/
def State.runOver (s : State) : Bool :=
  s.betweenOps && s.events.isEmpty && s.txInFlight.isEmpty && s.asyncInFlight.isEmpty

/-- An answer on which a run goes on. -/
def Answer.goesOn : Answer → Prop
  | .next _ => True
  | .fault _ => False
  | .refused _ => False

/-- A run of `n` steps that never stops. -/
def safeRun (n : Nat) (s : State) : Prop := ∃ t, Host.Core.run core n s = .next t

/-! ### The session registers -/

/-- The nine session registers agree (10_state.md R20). -/
def State.sameRegisters (s t : State) : Prop := t.tr = s.tr ∧ t.bs = s.bs ∧ t.txSeq = s.txSeq

/-- Every byte of every buffer reads the same, and every length is the same (20_memory.md R40). -/
def State.sameBuffers (s t : State) : Prop :=
  t.rxbuf = s.rxbuf ∧ t.rplbuf = s.rplbuf ∧ t.cmdbuf = s.cmdbuf ∧ t.txbufs = s.txbufs

/-- What is in flight is the same, and nothing is open that was not (R31). -/
def State.sameHidden (s t : State) : Prop :=
  t.dc = s.dc ∧ t.cmdOutstanding = s.cmdOutstanding ∧ t.txInFlight = s.txInFlight
    ∧ t.asyncInFlight = s.asyncInFlight

/-- The host's side is the same: operand ports, items, calls, notifications, clock and events. -/
def State.sameHost (s t : State) : Prop :=
  t.port = s.port ∧ t.items = s.items ∧ t.calls = s.calls ∧ t.completions = s.completions
    ∧ t.clock = s.clock ∧ t.events = s.events

end Sys2Proof.Machine
end

