-- ==== Sys2Proof/Certificates/Slice0/Obligations.lean ====
section
/-! DEFINITION. The statements for the provers. Rules are those of spec/; where a clause is a choice
of the model or a decision the spec marks as its own, the docstring says so. -/

open Sys2Proof Sys2Proof.Machine

/-! ### The terms the statements use -/

namespace Sys2Proof.Machine

/-- Nothing is open and the next event is this one. -/
def State.presents (s : State) (e : Event) (rest : List Event) : Prop :=
  s.dc = none ∧ s.cmdOutstanding = false ∧ s.events = e :: rest

/-- The event presents this operation. -/
def Event.presentsOp (e : Event) (op : BitVec 5) : Prop := ∃ x now, e.action = .present op x now

/-- `cumulative_ticks` is `dev_tick_last - t0` modulo 65536 (43_timestamp.md R165). -/
def TimeRef.ticksFollow (tr : TimeRef) (t0 : Nat) : Prop :=
  tr.cumulativeTicks.toNat % 65536 = (tr.devTickLast.toNat + 65536 - t0) % 65536

/-- A decode that ended in this FramingError, and nothing else. -/
def State.framingAt (s : State) (rec off : Nat) : State :=
  { s with dc := none, outcome := some (.fault (.framing rec off)) }

/-- How many bytes the timestamp field of the next record takes (30_encoding.md R67, R73). -/
def tsFieldLen (ts : Bool) (c : DecodeCtx) : Nat :=
  if ts then (if c.tsIdx = 0 then 2 else 1) else 0

/-- The rolling counter after a timestamp field at offset `a` (R134), in naturals: the full value
first, then a low byte that carries into the high byte when it is less than the last one. -/
def tickAfter (m : Memory) (a : Nat) (c : DecodeCtx) : Nat :=
  if c.tsIdx = 0 then (m.read a).toNat + 256 * (m.read (a + 1)).toNat
  else
    let b := (m.read a).toNat
    let old := c.ts16.toNat
    ((if b < old % 256 then old / 256 + 1 else old / 256) % 256) * 256 + b

/-- The decode context after a record of `n` more bytes, given whether it has a timestamp field and
where that field starts. -/
def ctxAfter (m : Memory) (ts : Bool) (a n : Nat) (c : DecodeCtx) : DecodeCtx :=
  if ts then { c with pc := n, ts16 := BitVec.ofNat 16 (tickAfter m a c), tsIdx := c.tsIdx + 1 }
  else { c with pc := n }

/-- The number of data bytes of a data record (R69): none in an RTR frame, at most 8. -/
def dataLen (rtr : Bool) (len : BitVec 4) : Nat := if rtr then 0 else min len.toNat 8

/-- The length of the rest of a data record after its status/length byte (R73). -/
def dataRest (ext ts rtr : Bool) (len : BitVec 4) (c : DecodeCtx) : Nat :=
  (if ext then 4 else 2) + tsFieldLen ts c + dataLen rtr len

/-- The payload length `L` (R70), by functionality. -/
def payloadBytes (f : Nat) (len : BitVec 4) : Nat :=
  if f = 2 then 2 else if f = 3 then 1 else len.toNat

/-- The length of the rest of an internal record after its status/length byte (R73). -/
def internalRest (f : Nat) (ts : Bool) (len : BitVec 4) (c : DecodeCtx) : Nat :=
  2 + tsFieldLen ts c + payloadBytes f len

/-- The data record with these bits. -/
def dataRecord (ext ts rtr : Bool) (len : BitVec 4) : Instr :=
  if ext then .recDataExt ts rtr len else .recDataStd ts rtr len

/-- What a data record's fields must be (R68, R69, R135), read from RXBUF at the cursor: the id by the
shift of its field, the clamped length, the data bytes and zeros after them. -/
def frameReads (m : Memory) (a : Nat) (ext ts rtr : Bool) (len : BitVec 4) (c : DecodeCtx)
    (f : Frame) : Prop :=
  f.ext = ext ∧ f.rtr = rtr ∧ f.dlc.toNat = min len.toNat 8
    ∧ f.id.toNat = (if ext then m.memRead a 4 / 8 else m.memRead a 2 / 32)
    ∧ ∀ i : Fin 8, f.data[i] =
        if i.val < dataLen rtr len
        then m.read (a + (if ext then 4 else 2) + tsFieldLen ts c + i.val) else 0#8

/-- LIGHT, HEAVY and OFF of a flag byte, and its overflow condition after the gate (R72, R180, R181;
the bit places are the spec's defaults, log entry 1). -/
def flagLight (b : Byte) : Bool := b.getLsbD 2
def flagHeavy (b : Byte) : Bool := b.getLsbD 3
def flagOff (b : Byte) : Bool := b.getLsbD 4
def flagOverflow (samples : BitVec 32) (b : Byte) : Bool :=
  decide (samples.toNat ≠ 0) && (b.getLsbD 1 || b.getLsbD 6)

/-- The 13 rows of the table of R190: state, L, H, O, V; `none` means either value; next state and
the condition reported. The first row that matches applies. -/
def besTable : List (BusErrorState × Option Bool × Option Bool × Option Bool × Option Bool
    × BusErrorState × Option Cond) :=
  [(.errorActive, some true, none, none, none, .errorWarning, some .warning),
   (.errorActive, some false, none, none, none, .errorActive, none),
   (.errorWarning, none, some true, none, none, .errorPassive, some .passive),
   (.errorWarning, none, some false, some true, none, .busOff, some .busOff),
   (.errorWarning, none, some false, some false, some true, .errorWarning, some .rxOverflow),
   (.errorWarning, some false, some false, some false, some false, .errorActive, some .active),
   (.errorWarning, some true, some false, some false, some false, .errorWarning, none),
   (.errorPassive, none, none, some true, none, .busOff, some .busOff),
   (.errorPassive, some true, none, some false, none, .errorWarning, some .warning),
   (.errorPassive, some false, none, some false, some true, .errorPassive, some .rxOverflow),
   (.errorPassive, some false, some false, some false, some false, .errorActive, some .active),
   (.errorPassive, some false, some true, some false, some false, .errorPassive, none),
   (.busOff, none, none, none, none, .busOff, none)]

/-- An entry of the table's columns L, H, O, V admits a value. -/
def admits : Option Bool → Bool → Bool
  | none, _ => true
  | some a, b => a == b

/-- The row of R190 that applies. -/
def besRow (state : BusErrorState) (l h o v : Bool) : Option (BusErrorState × Option Cond) :=
  (besTable.find? fun r => r.1 == state && admits r.2.1 l && admits r.2.2.1 h
    && admits r.2.2.2.1 o && admits r.2.2.2.2.1 v).map fun r => r.2.2.2.2.2

/-- The bytes of a message DEC.MESSAGE is given. -/
def State.withMessage (s : State) (bs : List Byte) : State := { s with rxbuf := Buffer.ofBytes bs }

/-- What R130 leaves right after the header of a message that announces records: no item, and a fresh
decode context at offset 2, version and count from bytes 0 and 1. -/
def State.afterHeader (s : State) : State :=
  { s with
    items := []
    dc := some {
      pc := 2, version := s.rxbuf.mem.read 0, recCount := s.rxbuf.mem.read 1
      recIdx := 0, ts16 := 0#16, tsIdx := 0, syncSeen := false } }

/-- The message of one encoded frame as R75 lays it out, in naturals. -/
def txMessage (f : Frame) (seq : Byte) : List Nat :=
  [2, 1, f.dlc.toNat + (if f.rtr then 16 else 0) + (if f.ext then 32 else 0)]
    ++ (if f.ext then
          [f.id.toNat * 8 % 256, f.id.toNat * 8 / 256 % 256, f.id.toNat * 8 / 65536 % 256,
            f.id.toNat * 8 / 16777216 % 256]
        else [f.id.toNat * 32 % 256, f.id.toNat * 32 / 256 % 256])
    ++ (if f.rtr then [] else (f.data.toList.take f.dlc.toNat).map BitVec.toNat)
    ++ [seq.toNat]

/-- The instructions that may write the TR registers (10_state.md R29, R230). -/
def writesTr : Instr → Bool
  | .sessionReset | .decMessage | .tssSet | .tssUpdate => true
  | .recIntTs _ _ _ => true
  | _ => false

/-- The instructions that may write BS.state (R29, R230). -/
def writesBs : Instr → Bool
  | .sessionReset | .decMessage | .besProcess => true
  | .recIntError _ _ _ => true
  | _ => false

/-- The instructions that may write TX.seq (R29, R230). -/
def writesTxSeq : Instr → Bool
  | .sessionReset | .encFrame => true
  | _ => false

/-- The instructions of the CMD family and the device command frames. -/
def isCommand : Instr → Bool
  | .cmdBuild | .cmdParse | .cmdBtr | .cmdPreset | .cmdSetbtr | .cmdGetsn | .cmdGetdevid
  | .cmdSendSync | .cmdSendAwait | .cmdSendAsync => true
  | .devcmdSetBitrate | .devcmdGetSerial | .devcmdGetDevid => true
  | _ => false

/-- What the receive step of the command channel leaves (40_command.md R110), before the result is
taken from it: the answer's bytes in RPLBUF, and the 14 result bytes or the fault. -/
def receiveResult (a : RecvAnswer) (old : Buffer) : Buffer × Except OpFault (List Byte) :=
  match a with
  | .timeout => (old, .error .timeout)
  | .err e => (old, .error (.transportError e))
  | .ok bs =>
    (Buffer.ofBytes bs,
      if bs.length = 16 then .ok (bs.drop 2) else .error (.framing 0 bs.length))

/-- The outcome port for a command's result. -/
def commandOutcome {α : Type} (g : α → Result) : Except OpFault α → OpOutcome
  | .ok a => .ok (g a)
  | .error f => .fault f

/-- What a send, then a receive, then taking `g` of the 14 result bytes leaves of a state whose
CMDBUF is ready, by the order of R109 and R110: NotConnected, the send's fault, the receive's fault,
the reply's FramingError, else the result. -/
def exchanged (g : List Byte → Result) (s : State) : State :=
  let sent := s.calls ++ [.send (s.cmdbuf.bytes 0 16)]
  if s.port.connected = false then { s with outcome := some (.fault .notConnected) }
  else
    match s.port.sendAns with
    | .timeout => { s with calls := sent, outcome := some (.fault .timeout) }
    | .err e => { s with calls := sent, outcome := some (.fault (.transportError e)) }
    | .ok =>
      { s with
        calls := sent ++ [.receive]
        rplbuf := (receiveResult s.port.recvAns s.rplbuf).1
        outcome := some (commandOutcome g (receiveResult s.port.recvAns s.rplbuf).2) }

/-- A CMDBUF that holds exactly this command frame: the two header bytes, the arguments, zeros (R61). -/
def holdsFrame (m : Memory) (f n : Byte) (args : List Byte) : Prop :=
  m.read 0 = f ∧ m.read 1 = n ∧ (∀ i, i < 14 → m.read (2 + i) = args.getD i 0#8)
    ∧ ∀ k, 16 ≤ k → m.read k = 0#8

end Sys2Proof.Machine

/-! ### Steps, decoding and the operation port -/

/-- A step runs the presented operation (R6, R85): when nothing is open, no duty is broken and the
`op` code decodes to `i`, the step is `exec i` with the host's operands and clock samples on the ports.
(An ENC.FRAME presented while every transmit slot is in flight waits: `SlotInFlightIsNotReused`. Which
duties are checked: `OverlappingOperationsRefused` and log entry 12.) -/
def Obligations.StepRunsPresentedOperation : Prop :=
  ∀ (s : State) (op : BitVec 5) (x : Operands) (now : List Instant) (during : List (BitVec 5))
    (rest : List Event) (i : Instr),
    s.presents ⟨.present op x now, during⟩ rest → (∀ d ∈ during, conflicts op d = false) →
    (op = 0x0B#5 → s.txInFlight.length < Config.txSlots) → decodeOp op = .ok i →
    step s = exec i { s with
      events := rest, port := x, clock := { s.clock with next := now }, outcome := none, calls := [] }

/-- A step in an open pass runs the record at the cursor (R133): with the bytes its fetch needs in
RXBUF, the instruction is decoded from the byte at DC.pc and the one after it, the cursor moves past
the status/length byte, and after the record the index advances (or the pass ends). (That the machine
also steps record by record is the model's finer view, log entry 6.) -/
def Obligations.StepRunsFetchedRecord : Prop :=
  ∀ (s : State) (c : DecodeCtx), s.dc = some c →
    c.pc + (if (s.rxbuf.mem.read c.pc).getLsbD 6 then 3 else 1) ≤ s.rxbuf.len →
    step s =
      match exec (decodeRecord (s.rxbuf.mem.read c.pc) (s.rxbuf.mem.read (c.pc + 1)))
          { s with dc := some { c with pc := c.pc + 1 } } with
      | .next t => .next t.advance
      | .fault f => .fault f
      | .refused r => .refused r

/-- A step with a command request outstanding runs the frame in CMDBUF (R81; that the frame is run
this way is the model's own view, log entry 6). -/
def Obligations.StepRunsOutstandingCommand : Prop :=
  ∀ (s : State) (i : Instr), s.dc = none → s.cmdOutstanding = true →
    decode .command [s.cmdbuf.read 0, s.cmdbuf.read 1] = .ok i → step s = exec i s

/-- With nothing open and nothing presented the block waits (R30, R231). -/
def Obligations.StepWaitsWithoutEvents : Prop :=
  ∀ s : State, s.betweenOps = true → s.events = [] → step s = .next s

/-- Words written out from the encodings of R63, R74, R81 and R85 decode to what they stand for: all 17
operation codes, as a word and on the 5-bit port; records of every kind; the three command frames.
(Which pair is which command frame is a default the spec takes from general knowledge, PRESUMED in log
entry 1.) -/
def Obligations.SampleWordsDecode : Prop :=
  (∀ x ∈ ([(0x00, .sessionReset), (0x01, .cmdBuild), (0x02, .cmdParse), (0x03, .cmdBtr),
        (0x04, .cmdPreset), (0x05, .cmdSetbtr), (0x06, .cmdGetsn), (0x07, .cmdGetdevid),
        (0x08, .cmdSendSync), (0x09, .cmdSendAwait), (0x0A, .cmdSendAsync), (0x0B, .encFrame),
        (0x0C, .decMessage), (0x0D, .tssSet), (0x0E, .tssUpdate), (0x0F, .tssCompute),
        (0x10, .besProcess)] : List (Nat × Instr)),
      decode .op [BitVec.ofNat 8 x.1] = .ok x.2 ∧ decodeOp (BitVec.ofNat 5 x.1) = .ok x.2)
    ∧ decode .op [0x11#8] = .error .reservedOp
    ∧ decode .record [0x82#8, 0x60#8] = .ok (.recDataStd true false 2#4)
    ∧ decode .record [0xB8#8, 0xF8#8] = .ok (.recDataExt true true 8#4)
    ∧ decode .record [0xC2#8, 0x01#8] = .ok (.recIntError true 0#2 2#4)
    ∧ decode .record [0x40#8, 0x02#8] = .ok (.recIntAnalog false 0#2 0#4)
    ∧ decode .record [0x51#8, 0x03#8] = .ok (.recIntBusload false 1#2 1#4)
    ∧ decode .record [0xC0#8, 0x04#8] = .ok (.recIntTs true 0#2 0#4)
    ∧ decode .record [0x63#8, 0x05#8] = .ok (.recIntBusevt false 2#2 3#4)
    ∧ decode .record [0x4F#8, 0x09#8] = .ok (.recIntUnknown 9#8 false 0#2 15#4)
    ∧ decode .command [0x01#8, 0x02#8] = .ok .devcmdSetBitrate
    ∧ decode .command [0x06#8, 0x01#8] = .ok .devcmdGetSerial
    ∧ decode .command [0x04#8, 0x01#8] = .ok .devcmdGetDevid

/-- Decode and encode agree: every well-formed instruction, with every operand at every value its
encoding admits, decodes from its own bytes, whatever follows them. -/
def Obligations.DecodeEncodeAllInstructions : Prop :=
  ∀ (i : Instr) (rest : List Byte), i.wf = true → decode i.space (encode i ++ rest) = .ok i

/-- No bit of a record's pattern is dropped: every status/length byte, and for an internal record
every functionality byte, comes back from the record it decodes to; and that record is well formed. -/
def Obligations.RecordWordsEncodeBack : Prop :=
  ∀ sl f : Byte, (decodeRecord sl f).wf = true
    ∧ encode (decodeRecord sl f) = if sl.getLsbD 6 then [sl, f] else [sl]

/-- The decode tree of R74 by the masks and matches of the opcode table: the data records over the
status/length byte, the internal ones over `w = sl | (functionality << 8)`, REC.INT.UNKNOWN when no
other row matches. -/
def Obligations.RecordDecodeFollowsTableMasks : Prop :=
  ∀ sl f : Byte,
    let w : BitVec 16 := f ++ sl
    let ts := sl.getLsbD 7
    let ign : BitVec 2 := sl.extractLsb' 4 2
    let len : BitVec 4 := sl.extractLsb' 0 4
    (sl &&& 0x60#8 = 0x00#8 → decodeRecord sl f = .recDataStd ts (sl.getLsbD 4) len)
      ∧ (sl &&& 0x60#8 = 0x20#8 → decodeRecord sl f = .recDataExt ts (sl.getLsbD 4) len)
      ∧ (w &&& 0xFF40#16 = 0x0140#16 → decodeRecord sl f = .recIntError ts ign len)
      ∧ (w &&& 0xFF40#16 = 0x0240#16 → decodeRecord sl f = .recIntAnalog ts ign len)
      ∧ (w &&& 0xFF40#16 = 0x0340#16 → decodeRecord sl f = .recIntBusload ts ign len)
      ∧ (w &&& 0xFF40#16 = 0x0440#16 → decodeRecord sl f = .recIntTs ts ign len)
      ∧ (w &&& 0xFF40#16 = 0x0540#16 → decodeRecord sl f = .recIntBusevt ts ign len)
      ∧ (w &&& 0x0040#16 = 0x0040#16 → f ∉ [1#8, 2#8, 3#8, 4#8, 5#8] →
          decodeRecord sl f = .recIntUnknown f ts ign len)

/-- Presenting a reserved `op` code 0x11 to 0x1F is refused (R86). -/
def Obligations.ReservedOpCodesRefused : Prop :=
  ∀ (s : State) (op : BitVec 5) (x : Operands) (now : List Instant) (rest : List Event),
    s.presents ⟨.present op x now, []⟩ rest → 0x11 ≤ op.toNat → step s = .refused .reservedOp

/-- Operations the host must serialize, presented together, are refused: a synchronous command during
another (R107); two of DEC.MESSAGE, TSS.SET, TSS.UPDATE, BES.PROCESS, SESSION.RESET, or TSS.COMPUTE
and one of those (R236); SESSION.RESET during any operation (R230). CMD.SEND_ASYNC runs whatever is in
progress (R234). (The model's own readings, DEDUCED in log entry 12: a CMD.BUILD or CMD.SETBTR during a
synchronous command is refused; R236 outweighs the row of R234 that lists TSS.COMPUTE as a liberty;
CMD.PARSE, CMD.BTR, CMD.PRESET, and ENC.FRAME while a slot is free, run whatever is in progress too,
CMD.PARSE during a synchronous command and ENC.FRAME during a SESSION.RESET included, where R212 is
the nearest rule.) -/
def Obligations.OverlappingOperationsRefused : Prop :=
  ∀ (s : State) (op : BitVec 5) (x : Operands) (now : List Instant) (during : List (BitVec 5))
    (rest : List Event), s.presents ⟨.present op x now, during⟩ rest →
    (∀ d ∈ during,
      (op.toNat ∈ [1, 5, 6, 7, 8, 9] ∧ d.toNat ∈ [6, 7, 8, 9]
        ∨ op.toNat ∈ [0, 12, 13, 14, 16] ∧ d.toNat ∈ [0, 12, 13, 14, 16]
        ∨ op.toNat = 15 ∧ d.toNat ∈ [0, 12, 13, 14, 16]
        ∨ op.toNat ∈ [0, 12, 13, 14, 16] ∧ d.toNat = 15
        ∨ op.toNat = 0) →
      step s = .refused .notSerialized)
    ∧ ∀ i : Instr, (op.toNat ∈ [2, 3, 4, 10] ∨ op.toNat = 11 ∧ s.txInFlight.length < Config.txSlots) →
        decodeOp op = .ok i →
        step s = exec i { s with
          events := rest, port := x, clock := { s.clock with next := now }, outcome := none
          calls := [] }

/-! ### Reset -/

/-- The state a session comes into existence in (R30, R231): the nine registers at the values of R20,
DEV_TICK_RESET being 0; and the block does nothing until an operation is presented. (The zeros and
ErrorActive are the spec's decision D5.) -/
def Obligations.ResetHoldsSpecValues : Prop :=
  State.reset.tr = ⟨false, 0#64, 0#64, 0#16, 0#16, 0#64, 0#32⟩
    ∧ State.reset.bs = .errorActive ∧ State.reset.txSeq = 0#8
    ∧ step State.reset = .next State.reset

/-- SESSION.RESET writes all nine session registers and nothing else, in every state (R230; what it
resets is the spec's decisions D5 and D28). -/
def Obligations.SessionResetResult : Prop :=
  ∀ s : State, exec .sessionReset s = .next { s with
    tr := ⟨false, 0#64, 0#64, 0#16, 0#16, 0#64, 0#32⟩, bs := .errorActive, txSeq := 0#8
    outcome := some (.ok .done) }

/-! ### CMD -/

/-- CMD.BUILD is `op` 0x01 and completes in every state: CMDBUF holds the two header bytes, the first
14 arguments, and zeros after them, whatever it held; its 16 bytes are the result; nothing else changes,
and there is no fault (R100). -/
def Obligations.CmdBuildWritesFrame : Prop :=
  decodeOp 0x01#5 = .ok .cmdBuild ∧ ∀ s : State, ∃ m : Memory,
    exec .cmdBuild s
        = .next { s with cmdbuf := m, outcome := some (.ok (.bytes (m.bytes 0 16))) }
      ∧ m.wf = true ∧ holdsFrame m s.port.functionality s.port.number s.port.args

/-- CMD.PARSE answers the 14 bytes at offsets 2 to 15 of a 16-byte reply, whatever its first two
bytes are, and FramingError(0, rpl_len) otherwise; nothing else changes (R101; the fault for another
length is the spec's decision D29). -/
def Obligations.CmdParseResult : Prop :=
  ∀ s : State,
    (s.rplbuf.len = 16 → ∃ r : List Byte, r.length = 14
      ∧ (∀ i, i < 14 → r.getD i 0#8 = s.rplbuf.mem.read (2 + i))
      ∧ exec .cmdParse s = .next { s with outcome := some (.ok (.bytes r)) })
    ∧ (s.rplbuf.len ≠ 16 →
        exec .cmdParse s = .next { s with outcome := some (.fault (.framing 0 s.rplbuf.len)) })

/-- CMD.BTR by the field view of R102, in naturals, for every operand (a field of 0 wraps: the spec's
decision D41); nothing else changes. -/
def Obligations.CmdBtrFields : Prop :=
  ∀ s : State, ∃ b0 b1 : Byte,
    exec .cmdBtr s = .next { s with outcome := some (.ok (.btr b0 b1)) }
      ∧ b0.toNat = (s.port.bittiming.brp.toNat + (2 ^ 32 - 1)) % 64
          + 64 * ((s.port.bittiming.sjw.toNat + (2 ^ 32 - 1)) % 4)
      ∧ b1.toNat = (s.port.bittiming.propSeg.toNat + s.port.bittiming.phaseSeg1.toNat
            + (2 ^ 32 - 1)) % 16
          + 16 * ((s.port.bittiming.phaseSeg2.toNat + (2 ^ 32 - 1)) % 8)
          + (if s.port.bittiming.tripleSample then 128 else 0)

/-- CMD.PRESET answers the row of the nine-row table whose bitrate equals the operand (R103). -/
def Obligations.CmdPresetTable : Prop :=
  ∀ (s : State) (bps b0 b1 : Nat),
    (bps, b0, b1) ∈ [(1000000, 0x00, 0x14), (500000, 0x00, 0x1C), (250000, 0x01, 0x1C),
      (125000, 0x03, 0x1C), (100000, 0x43, 0x2F), (50000, 0x47, 0x2F), (20000, 0x53, 0x2F),
      (10000, 0x67, 0x2F), (5000, 0x7F, 0x7F)] →
    s.port.bps.toNat = bps →
    exec .cmdPreset s
      = .next { s with outcome := some (.ok (.btr (BitVec.ofNat 8 b0) (BitVec.ofNat 8 b1))) }

/-- CMD.PRESET raises InvalidArgument for every bitrate outside the nine rows; no state changes and
CMDBUF is not written. Nothing else raises it: no other instruction, CMD.BTR among them, and no preset
of the table (R202, R200). -/
def Obligations.InvalidArgumentOnlyForUnknownPresets : Prop :=
  (∀ s : State, s.port.bps.toNat ∉ [1000000, 500000, 250000, 125000, 100000, 50000, 20000, 10000,
      5000] →
    exec .cmdPreset s = .next { s with outcome := some (.fault .invalidArgument) })
  ∧ (∀ s t : State, exec .cmdBtr s = .next t → t.outcome ≠ some (.fault .invalidArgument))
  ∧ ∀ (i : Instr) (s t : State), exec i s = .next t →
      (i = .cmdPreset → s.port.bps.toNat ∈ [1000000, 500000, 250000, 125000, 100000, 50000, 20000,
        10000, 5000]) →
      s.outcome ≠ some (.fault .invalidArgument) → t.outcome ≠ some (.fault .invalidArgument)

/-- CMD.SETBTR builds the DEVCMD.SET_BITRATE frame: bytes 1, 2, BTR1, BTR0 and zeros (R104; the pair
and the order are the spec's defaults from general knowledge, log entry 1). -/
def Obligations.CmdSetbtrBuildsFrame : Prop :=
  ∀ s : State, ∃ m : Memory,
    exec .cmdSetbtr s
        = .next { s with cmdbuf := m, outcome := some (.ok (.bytes (m.bytes 0 16))) }
      ∧ m.wf = true ∧ holdsFrame m 1#8 2#8 [s.port.btr1, s.port.btr0]

/-- CMD.SEND_SYNC is `op` 0x08; in every state (R109): NotConnected before anything is sent; else
CMDBUF is handed to the transport once, no reply is read, and its answer is returned: Ok, Timeout, or
the transport's error unchanged. Nothing else changes. -/
def Obligations.CmdSendSyncOutcomes : Prop :=
  decodeOp 0x08#5 = .ok .cmdSendSync ∧ ∀ s : State,
    (s.port.connected = false →
      exec .cmdSendSync s = .next { s with outcome := some (.fault .notConnected) })
    ∧ (s.port.connected = true →
        exec .cmdSendSync s = .next { s with
          calls := s.calls ++ [.send (s.cmdbuf.bytes 0 16)]
          outcome := some (match s.port.sendAns with
            | .ok => .ok .done
            | .timeout => .fault .timeout
            | .err e => .fault (.transportError e)) })

/-- CMD.SEND_AWAIT in every state (R110, R209): the faults in their order, else the 14 result bytes;
RPLBUF holds the reply. (That it tests `connected` is the spec's decision D32.) -/
def Obligations.CmdSendAwaitOutcomes : Prop :=
  ∀ s : State, exec .cmdSendAwait s = .next (exchanged .bytes s)

/-- CMD.GETSN in every state (R105): the GET_SERIAL frame is built into CMDBUF and exchanged; the
serial number is the first four result bytes, little-endian, the other ten ignored. (The pair 6, 1 is
PRESUMED, log entry 1. That CMDBUF holds the built frame also when the query ends in NotConnected is
the model's reading of the order of R105 against R206, DEDUCED in log entry 13.) -/
def Obligations.CmdGetsnResult : Prop :=
  ∀ s : State, ∃ (m : Memory) (g : List Byte → Result),
    exec .cmdGetsn s = .next (exchanged g { s with cmdbuf := m })
      ∧ m.wf = true ∧ holdsFrame m 6#8 1#8 []
      ∧ ∀ r : List Byte, r.length = 14 → ∃ n : BitVec 32, g r = .serial n
          ∧ n.toNat = (r.getD 0 0#8).toNat + 256 * (r.getD 1 0#8).toNat
              + 65536 * (r.getD 2 0#8).toNat + 16777216 * (r.getD 3 0#8).toNat

/-- CMD.GETDEVID in every state (R106): the GET_DEVID frame is built and exchanged; the device id is
the first result byte alone, so below 256. (The pair 4, 1 is PRESUMED, log entry 1. That CMDBUF holds
the built frame also when the query ends in NotConnected is the model's reading of the order of R106
against R206, DEDUCED in log entry 13.) -/
def Obligations.CmdGetdevidResult : Prop :=
  ∀ s : State, ∃ (m : Memory) (g : List Byte → Result),
    exec .cmdGetdevid s = .next (exchanged g { s with cmdbuf := m })
      ∧ m.wf = true ∧ holdsFrame m 4#8 1#8 []
      ∧ ∀ r : List Byte, r.length = 14 →
          ∃ n : BitVec 32, g r = .deviceId n ∧ n.toNat = (r.getD 0 0#8).toNat

/-- CMD.SEND_ASYNC submits a private copy of the frame and returns before it completes; neither
CMDBUF nor RPLBUF is touched and `connected` is not looked at (R111). -/
def Obligations.CmdSendAsyncSubmits : Prop :=
  ∀ s : State, s.port.allocOk = true →
    exec .cmdSendAsync s = .next { s with
      calls := s.calls ++ [.sendAsync s.port.cmd.toList s.port.onComplete]
      asyncInFlight := s.asyncInFlight ++ [⟨s.port.onComplete, s.port.cmd⟩]
      outcome := some (.ok .done) }

/-- OutOfMemory when the private buffer cannot be allocated: nothing was submitted, no shared state
is touched, and only CMD.SEND_ASYNC raises it (R204). -/
def Obligations.OutOfMemorySubmitsNothing : Prop :=
  (∀ s : State, s.port.allocOk = false →
    exec .cmdSendAsync s = .next { s with outcome := some (.fault .outOfMemory) })
  ∧ ∀ (i : Instr) (s t : State), i ≠ .cmdSendAsync → exec i s = .next t →
      s.outcome ≠ some (.fault .outOfMemory) → t.outcome ≠ some (.fault .outOfMemory)

/-- Each completion of an asynchronous command delivers exactly one `on_complete` and releases
exactly that command (R111); a completion of nothing is refused (the model's choice, log entry 4). -/
def Obligations.AsyncCompletesOnce : Prop :=
  ∀ (s : State) (k : Nat) (error : Option TransportErr) (during : List (BitVec 5))
    (rest : List Event), s.presents ⟨.asyncDone k error, during⟩ rest →
    (s.asyncInFlight.length ≤ k → step s = .refused .nothingInFlight)
    ∧ ∀ (pre post : List AsyncCmd) (c : AsyncCmd), s.asyncInFlight = pre ++ c :: post →
        pre.length = k → step s = .next { s with
          events := rest, asyncInFlight := pre ++ post
          completions := s.completions ++ [⟨c.onComplete, error⟩] }

/-- The device command frames in every state (R81, R112): SET_BITRATE is handed to the transport and
no reply is read; GET_SERIAL and GET_DEVID are exchanged, the serial number being the first four result
bytes, little-endian, and the device id the first result byte alone (R82). The outstanding request
ends. (That a frame is run on its own is the model's view, log entry 6.) -/
def Obligations.DeviceCommandFramesExchange : Prop :=
  ∀ s : State,
    (∃ t, exec .cmdSendSync s = .next t
      ∧ exec .devcmdSetBitrate s = .next { t with cmdOutstanding := false })
    ∧ (∃ g : List Byte → Result,
        exec .devcmdGetSerial s = .next { exchanged g s with cmdOutstanding := false }
        ∧ ∀ r : List Byte, r.length = 14 → ∃ n : BitVec 32, g r = .serial n
            ∧ n.toNat = (r.getD 0 0#8).toNat + 256 * (r.getD 1 0#8).toNat
                + 65536 * (r.getD 2 0#8).toNat + 16777216 * (r.getD 3 0#8).toNat)
    ∧ ∃ g : List Byte → Result,
        exec .devcmdGetDevid s = .next { exchanged g s with cmdOutstanding := false }
        ∧ ∀ r : List Byte, r.length = 14 →
            ∃ n : BitVec 32, g r = .deviceId n ∧ n.toNat = (r.getD 0 0#8).toNat

/-- No CMD operation and no command frame touches a session register, an inbound or outbound message
buffer, a decode context, the clock or the items (40_command.md, opening; R29). -/
def Obligations.CommandsLeaveSessionAlone : Prop :=
  ∀ (i : Instr) (s : State), isCommand i = true → ∃ t, exec i s = .next t ∧ s.sameRegisters t
    ∧ t.rxbuf = s.rxbuf ∧ t.txbufs = s.txbufs ∧ t.txInFlight = s.txInFlight ∧ t.dc = s.dc
    ∧ t.clock = s.clock ∧ t.items = s.items ∧ t.port = s.port ∧ t.events = s.events
    ∧ t.completions = s.completions

/-! ### ENC -/

/-- ENC.FRAME completes whenever `dlc <= 8` and the slot is one of the pool and not in flight (a TXBUF
of at least 16 bytes, TX_CAP of R10, is always long enough): the slot's TXBUF holds the message of R75 and R120 with TX.seq as its last byte,
`tx_len` by R121; TX.seq counts up modulo 256 (R122); nothing else changes, no other slot's TXBUF. (The
counter's home and order of use are the spec's decision D22; the slot operand is log entry 14.) -/
def Obligations.EncFrameWritesMessage : Prop :=
  ∀ s : State, s.port.frame.dlc.toNat ≤ 8 → isSlot s.port.slot = true →
    s.port.slot ∉ s.txInFlight →
    ∃ (bufs : List Buffer) (q : Byte),
      exec .encFrame s = .next { s with
        txbufs := bufs, txSeq := q
        outcome := some (.ok (.bytes (slotBuffer bufs s.port.slot).bytes)) }
      ∧ (slotBuffer bufs s.port.slot).bytes.map BitVec.toNat = txMessage s.port.frame s.txSeq
      ∧ (slotBuffer bufs s.port.slot).len = 4 + (if s.port.frame.ext then 4 else 2)
          + (if s.port.frame.rtr then 0 else s.port.frame.dlc.toNat)
      ∧ q.toNat = (s.txSeq.toNat + 1) % 256
      ∧ ∀ k, k ≠ s.port.slot → slotBuffer bufs k = slotBuffer s.txbufs k

/-- A frame with `dlc` 9 to 15 is refused: no state changes, so TXBUF is not written and TX.seq does
not advance (R123). -/
def Obligations.EncFrameRefusesLargeDlc : Prop :=
  ∀ s : State, 8 < s.port.frame.dlc.toNat → exec .encFrame s = .refused .dlcTooLarge

/-- Transmit slot reuse (R238, R51): ENC.FRAME into a slot in flight is refused, and a completion frees
the slot. With every slot in flight there is no ENC.FRAME step: the ones presented wait while the first
other event happens. (The model's choice, log entry 14: when nothing but waiting ENC.FRAMEs is left, so
that no completion ever comes, the machine stops with the fault encoderStuck; such a run is not over.) -/
def Obligations.SlotInFlightIsNotReused : Prop :=
  (∀ s : State, s.port.frame.dlc.toNat ≤ 8 → isSlot s.port.slot = true →
    s.port.slot ∈ s.txInFlight → exec .encFrame s = .refused .slotInFlight)
  ∧ (∀ (s : State) (k : Nat) (during : List (BitVec 5)) (rest : List Event), s.flightOk = true →
      s.presents ⟨.slotDone k, during⟩ rest → k ∈ s.txInFlight →
      ∃ l : List Nat, step s = .next { s with events := rest, txInFlight := l }
        ∧ ∀ j, j ∈ l ↔ j ∈ s.txInFlight ∧ j ≠ k)
  ∧ ∀ s : State, s.betweenOps = true → Config.txSlots ≤ s.txInFlight.length →
      (∀ (waiting rest : List Event) (a : Event), s.events = waiting ++ a :: rest →
        (∀ e ∈ waiting, e.presentsOp 0x0B#5) → ¬ a.presentsOp 0x0B#5 →
        step s = step { s with events := a :: (waiting ++ rest) })
      ∧ (s.events ≠ [] → (∀ e ∈ s.events, e.presentsOp 0x0B#5) →
          step s = .fault .encoderStuck ∧ s.runOver = false)

/-- Handing a slot's TXBUF to the transport puts exactly that slot in flight (R51). (That any slot of
the pool not in flight may be handed over, one never encoded into or not encoded since its last
transmission included, is log entry 16, DESIGN CHOICE: the spec is silent.) -/
def Obligations.SubmitPutsSlotInFlight : Prop :=
  ∀ (s : State) (k : Nat) (during : List (BitVec 5)) (rest : List Event),
    s.presents ⟨.submitSlot k, during⟩ rest → isSlot k = true → k ∉ s.txInFlight →
    ∃ l : List Nat, step s = .next { s with events := rest, txInFlight := l }
      ∧ ∀ j, j ∈ l ↔ j = k ∨ j ∈ s.txInFlight

/-- The round trip (R124): for every well-formed frame, DEC.MESSAGE of the bytes ENC.FRAME wrote
answers Ok with exactly one item, the frame without timestamp, and changes no session register. -/
def Obligations.EncodeThenDecodeRoundTrip : Prop :=
  ∀ s t u : State, s.port.frame.wf = true → exec .encFrame s = .next t →
    u.rxbuf = slotBuffer t.txbufs s.port.slot →
    ∃ v : State, exec .decMessage u = .next v
      ∧ v.items = [.frame { s.port.frame with ts := none, hwtime := none }]
      ∧ v.outcome = some (.ok (.version (some 2#8))) ∧ u.sameRegisters v ∧ u.sameBuffers v
      ∧ v.clock = u.clock

/-! ### DEC: the record kinds -/

/-- A data record without timestamp (R135, R136): when it fits, the cursor moves past it and exactly
its Frame is emitted, with no timestamp; nothing else changes, the clock is not read. -/
def Obligations.DataRecordWithoutTimestamp : Prop :=
  ∀ (s : State) (c : DecodeCtx) (ext rtr : Bool) (len : BitVec 4), s.dc = some c →
    c.pc + dataRest ext false rtr len c ≤ s.rxbuf.len →
    ∃ f : Frame,
      exec (dataRecord ext false rtr len) s = .next { s with
        dc := some { c with pc := c.pc + dataRest ext false rtr len c }
        items := s.items ++ [.frame f] }
      ∧ frameReads s.rxbuf.mem c.pc ext false rtr len c f ∧ f.ts = none ∧ f.hwtime = none

/-- A data record with timestamp (R134, R135, R136, R163): when it fits and the clock gives a sample,
its Frame carries the rolled tick and the host time TSS.COMPUTE gives it; no register changes. -/
def Obligations.DataRecordWithTimestamp : Prop :=
  ∀ (s : State) (c : DecodeCtx) (ext rtr : Bool) (len : BitVec 4) (now : Instant) (k : HostClock),
    s.dc = some c → c.pc + dataRest ext true rtr len c ≤ s.rxbuf.len →
    s.clock.draw = .ok (now, k) →
    ∃ (f : Frame) (tick : Tick) (hw : Instant),
      exec (dataRecord ext true rtr len) s = .next { s with
        dc := some { c with
          pc := c.pc + dataRest ext true rtr len c, ts16 := tick, tsIdx := c.tsIdx + 1 }
        items := s.items ++ [.frame f]
        clock := k }
      ∧ frameReads s.rxbuf.mem c.pc ext true rtr len c f
      ∧ tick.toNat = tickAfter s.rxbuf.mem (c.pc + if ext then 4 else 2) c
      ∧ f.ts = some tick ∧ f.hwtime = some hw
      ∧ hw.toNat =
          if s.tr.epochValid then
            (s.tr.hostEpoch0.toNat
              + ((s.tr.cumulativeTicks.toNat + (tick.toNat + 65536 - s.tr.devTickLast.toNat) % 65536)
                  * 44739243) / 2 ^ 20) % 2 ^ 64
          else now.toNat

/-- REC.INT.ANALOG, REC.INT.BUSLOAD, REC.INT.BUSEVT and REC.INT.UNKNOWN only move the cursor, and the
rolling tick when they carry a timestamp (R139, R140, R142, R143, R70). -/
def Obligations.SkippedRecordsOnlyAdvance : Prop :=
  ∀ (s : State) (c : DecodeCtx) (i : Instr) (f : Byte) (ts : Bool) (ign : BitVec 2) (len : BitVec 4),
    s.dc = some c →
    (i = .recIntAnalog ts ign len ∧ f = 2#8 ∨ i = .recIntBusload ts ign len ∧ f = 3#8
      ∨ i = .recIntBusevt ts ign len ∧ f = 5#8
      ∨ i = .recIntUnknown f ts ign len ∧ i.wf = true) →
    c.pc + internalRest f.toNat ts len c ≤ s.rxbuf.len →
    exec i s = .next { s with
      dc := some (ctxAfter s.rxbuf.mem ts (c.pc + 2) (c.pc + internalRest f.toNat ts len c) c) }

/-- REC.INT.ERROR delivers its `number` byte to the bus error state machine: BS.state as BES.PROCESS
of that byte leaves it, its event emitted if there is one, nothing else (R138). -/
def Obligations.RecIntErrorDrivesBusState : Prop :=
  ∀ (s : State) (c : DecodeCtx) (ts : Bool) (ign : BitVec 2) (len : BitVec 4), s.dc = some c →
    c.pc + internalRest 1 ts len c ≤ s.rxbuf.len →
    ∃ (p : State) (ev : Option ErrorEvent),
      exec .besProcess { s with port := { s.port with flags := s.rxbuf.mem.read (c.pc + 1) } } = .next p
      ∧ p.outcome = some (.ok (.event ev))
      ∧ exec (.recIntError ts ign len) s = .next { s with
          bs := p.bs
          dc := some (ctxAfter s.rxbuf.mem ts (c.pc + 2) (c.pc + internalRest 1 ts len c) c)
          items := s.items ++ (ev.toList.map .errorEvent) }

/-- REC.INT.TS with a timestamp (R141): the first of the message is a TSS.SET of its tick, later ones
a TSS.UPDATE; the tick is emitted. Without a timestamp it has no effect but to move the cursor.
("First" counts such records only: the spec's decision D14.) -/
def Obligations.RecIntTsFeedsSynchronizer : Prop :=
  ∀ (s : State) (c : DecodeCtx) (ign : BitVec 2) (len : BitVec 4), s.dc = some c →
    (c.pc + internalRest 4 false len c ≤ s.rxbuf.len →
      exec (.recIntTs false ign len) s
        = .next { s with dc := some { c with pc := c.pc + internalRest 4 false len c } })
    ∧ ∀ (now : Instant) (k : HostClock),
        c.pc + internalRest 4 true len c ≤ s.rxbuf.len →
        (c.syncSeen = false → s.clock.draw = .ok (now, k)) →
        ∃ (tick : Tick) (p : State),
          tick.toNat = tickAfter s.rxbuf.mem (c.pc + 2) c
          ∧ exec (if c.syncSeen then .tssUpdate else .tssSet)
              { s with port := { s.port with tick := tick } } = .next p
          ∧ exec (.recIntTs true ign len) s = .next { s with
              tr := p.tr, clock := p.clock
              dc := some { c with
                pc := c.pc + internalRest 4 true len c, ts16 := tick, tsIdx := c.tsIdx + 1
                syncSeen := true }
              items := s.items ++ [.timestampOnly tick] }

/-- A record that does not fit has no effect: no item, no register, no buffer, no clock sample; the
pass ends with FramingError of its index and of the offset of the first byte of the field that does
not fit (R132, R144, R201; the spec's decisions D17, D18). The fields of a data record are the id, the
timestamp and the data; of an internal record the sub-header, the timestamp and the payload. The same
when the fetch itself does not fit: the offset is the status/length byte's, or the sub-header's. -/
def Obligations.TruncatedRecordHasNoEffect : Prop :=
  ∀ (s : State) (c : DecodeCtx), s.dc = some c →
    (∀ (ext ts rtr : Bool) (len : BitVec 4), s.rxbuf.len < c.pc + dataRest ext ts rtr len c →
      exec (dataRecord ext ts rtr len) s = .next (s.framingAt c.recIdx
        (firstUnfit s.rxbuf.len c.pc [if ext then 4 else 2, tsFieldLen ts c, dataLen rtr len])))
    ∧ (∀ (i : Instr) (f : Byte) (ts : Bool) (ign : BitVec 2) (len : BitVec 4),
        (i = .recIntError ts ign len ∧ f = 1#8 ∨ i = .recIntAnalog ts ign len ∧ f = 2#8
          ∨ i = .recIntBusload ts ign len ∧ f = 3#8 ∨ i = .recIntTs ts ign len ∧ f = 4#8
          ∨ i = .recIntBusevt ts ign len ∧ f = 5#8
          ∨ i = .recIntUnknown f ts ign len ∧ i.wf = true) →
        s.rxbuf.len < c.pc + internalRest f.toNat ts len c →
        exec i s = .next (s.framingAt c.recIdx
          (firstUnfit s.rxbuf.len c.pc [2, tsFieldLen ts c, payloadBytes f.toNat len])))
    ∧ (s.rxbuf.len < c.pc + 1 → step s = .next (s.framingAt c.recIdx c.pc))
    ∧ (c.pc + 1 ≤ s.rxbuf.len → (s.rxbuf.mem.read c.pc).getLsbD 6 = true →
        s.rxbuf.len < c.pc + 3 → step s = .next (s.framingAt c.recIdx (c.pc + 1)))

/-- The first timestamp field of a message does not depend on the rolling counter it finds: `DC.ts16`
is never read before it is written (R33, R134). -/
def Obligations.FirstTimestampIgnoresCounter : Prop :=
  ∀ (b : Buffer) (c : DecodeCtx) (ts16 : Tick), c.tsIdx = 0 →
    decodeTs b { c with ts16 := ts16 } = decodeTs b c

/-! ### DEC: the message -/

/-- The messages decided before any record (R130): an empty buffer is a no-op success; one byte is
FramingError(0, 0); a header announcing no records is a success with no items, whatever follows it. -/
def Obligations.DecMessageHeaderCases : Prop :=
  ∀ s : State,
    (s.rxbuf.len = 0 → exec .decMessage s
      = .next { s with items := [], outcome := some (.ok (.version none)) })
    ∧ (s.rxbuf.len = 1 → exec .decMessage s
        = .next { s with items := [], outcome := some (.fault (.framing 0 0)) })
    ∧ (2 ≤ s.rxbuf.len → s.rxbuf.mem.read 1 = 0#8 → exec .decMessage s
        = .next { s with
            items := [], dc := none
            outcome := some (.ok (.version (some (s.rxbuf.mem.read 0)))) })

/-- DEC.MESSAGE always ends, on any bytes, when the host clock keeps its duty: with Ok and the version
byte, or with FramingError of a record index below the count; the decode context is discarded, and
no buffer, no TX.seq and nothing in flight changes (R130, R145, R146, R79, R241). -/
def Obligations.DecMessageAlwaysEnds : Prop :=
  ∀ s : State, 2 ≤ s.rxbuf.len → s.clock.monotone = true →
    ∃ t : State, exec .decMessage s = .next t ∧ t.dc = none
      ∧ (t.outcome = some (.ok (.version (some (s.rxbuf.mem.read 0))))
          ∨ ∃ rec off, t.outcome = some (.fault (.framing rec off))
              ∧ rec < (s.rxbuf.mem.read 1).toNat ∧ 2 ≤ off ∧ off ≤ s.rxbuf.len)
      ∧ s.sameBuffers t ∧ t.txSeq = s.txSeq ∧ t.txInFlight = s.txInFlight
      ∧ t.asyncInFlight = s.asyncInFlight ∧ t.cmdOutstanding = s.cmdOutstanding
      ∧ t.events = s.events ∧ t.calls = s.calls

/-- DEC.MESSAGE is its records run one after another (R130, R133): with no records it returns the
version; else the machine, stepping from the state right after the header (`State.afterHeader`: cursor
2, record and timestamp index 0, no REC.INT.TS seen, version and count from bytes 0 and 1, no items),
reaches in at most `record_count` steps exactly what the one operation answers. (That the machine also
steps record by record is the model's finer view, DEDUCED in log entry 6.) -/
def Obligations.DecMessageRunsRecordsInOrder : Prop :=
  ∀ s : State, 2 ≤ s.rxbuf.len →
    (s.rxbuf.mem.read 1 = 0#8 → exec .decMessage s = .next { s with
      items := [], dc := none, outcome := some (.ok (.version (some (s.rxbuf.mem.read 0)))) })
    ∧ (s.rxbuf.mem.read 1 ≠ 0#8 → ∃ n, n ≤ (s.rxbuf.mem.read 1).toNat
        ∧ Host.Core.run core n s.afterHeader = exec .decMessage s)

/-- What a FramingError leaves behind (R145): records 0 to `rec - 1` have taken their full effect and
nothing after them has any. The state is the one the machine reaches from the header
(`State.afterHeader`) after `rec` records, with the fault as the outcome and the decode context discarded. (That the machine also steps record by record
is the model's finer view, DEDUCED in log entry 6.) -/
def Obligations.FramingErrorKeepsCompleteRecords : Prop :=
  ∀ (s t : State) (rec off : Nat), 2 ≤ s.rxbuf.len → exec .decMessage s = .next t →
    t.outcome = some (.fault (.framing rec off)) →
    ∃ (u : State) (c : DecodeCtx), Host.Core.run core rec s.afterHeader = .next u ∧ u.dc = some c
      ∧ c.recIdx = rec ∧ t = { u with dc := none, outcome := some (.fault (.framing rec off)) }

/-- Bytes after the last record are never read and never cause a fault (R77): a message that decodes
with Ok decodes to the same with any bytes after it. -/
def Obligations.TrailingBytesNeverRead : Prop :=
  ∀ (s t : State) (bs more : List Byte), 2 ≤ bs.length →
    exec .decMessage (s.withMessage bs) = .next t →
    (∃ r, t.outcome = some (.ok r)) →
    exec .decMessage (s.withMessage (bs ++ more)) = .next (t.withMessage (bs ++ more))

/-- What DEC.MESSAGE answers depends on RXBUF, TR, BS.state and the clock alone (R29, R130): a state
that agrees on these, whatever its other buffers, TX.seq, operands, slots and commands in flight, gets
the same items, outcome, registers and clock, and keeps everything else. -/
def Obligations.DecMessageIgnoresOutboundSide : Prop :=
  ∀ s t u : State, 2 ≤ s.rxbuf.len → t.rxbuf = s.rxbuf → t.tr = s.tr → t.bs = s.bs →
    t.clock = s.clock → exec .decMessage s = .next u →
    exec .decMessage t = .next { t with
      tr := u.tr, bs := u.bs, clock := u.clock, items := u.items, outcome := u.outcome, dc := none }

/-! ### TSS -/

/-- One `host_now()` sample (R27, R241, U6, U7): the next one the host supplies, refused when it is
less than the latest; behind the list a free one, no less than the latest (log entry 5). Every
instruction that draws a sample refuses a smaller one: TSS.SET, TSS.COMPUTE, a data record with a
timestamp, the first timestamped REC.INT.TS of a message, and DEC.MESSAGE: it completes only when none
of the `k` samples its pass drew was less than the one before, and is refused otherwise, because of a
listed sample that is less than the one before it. -/
def Obligations.HostClockNeverRunsBack : Prop :=
  (∀ (c : HostClock) (now : Instant) (k : HostClock), c.draw = .ok (now, k) →
    c.last.toNat ≤ now.toNat ∧ k.last = now ∧ k.next = c.next.drop 1
      ∧ ∀ n, c.next.head? = some n → now = n)
  ∧ (∀ (s t : State), exec .decMessage s = .next t →
      ∃ k, t.clock.draws = s.clock.draws + k ∧ t.clock.next = s.clock.next.drop k
        ∧ (s.clock.last :: s.clock.next.take k).Pairwise (fun a b => a.toNat ≤ b.toNat)
        ∧ ∀ a ∈ s.clock.last :: s.clock.next.take k, a.toNat ≤ t.clock.last.toNat)
  ∧ (∀ s : State, (∀ t, exec .decMessage s ≠ .next t) →
      exec .decMessage s = .refused .clockBackwards
        ∧ ∃ pre n rest, s.clock.next = pre ++ n :: rest
          ∧ n.toNat < (pre.getLast?.getD s.clock.last).toNat)
  ∧ ∀ s : State, ∀ n rest, s.clock.next = n :: rest → n.toNat < s.clock.last.toNat →
      exec .tssSet s = .refused .clockBackwards ∧ exec .tssCompute s = .refused .clockBackwards
      ∧ ∀ (c : DecodeCtx) (len : BitVec 4), s.dc = some c →
          (∀ ext rtr : Bool, c.pc + dataRest ext true rtr len c ≤ s.rxbuf.len →
            exec (dataRecord ext true rtr len) s = .refused .clockBackwards)
          ∧ ∀ ign : BitVec 2, c.syncSeen = false → c.pc + internalRest 4 true len c ≤ s.rxbuf.len →
              exec (.recIntTs true ign len) s = .refused .clockBackwards

/-- TSS.SET completes whenever the clock gives a sample (R161): the first sample establishes the
epoch, one more than 4200 s after the epoch rebases it to the previous sample's time, any other keeps
it; `sample_count` counts up and saturates; the tick difference is folded in modulo 2^16. (Threshold,
saturation and folding of the first sample are the spec's decisions D5 to D8.) -/
def Obligations.TssSetResult : Prop :=
  ∀ (s : State) (now : Instant) (k : HostClock), s.clock.draw = .ok (now, k) →
    ∃ tr : TimeRef,
      exec .tssSet s = .next { s with tr := tr, clock := k, outcome := some (.ok .done) }
      ∧ tr.epochValid = true ∧ tr.hostEpochLast = now
      ∧ tr.devTickPrev = s.tr.devTickLast ∧ tr.devTickLast = s.port.tick
      ∧ tr.sampleCount.toNat = min (s.tr.sampleCount.toNat + 1) (2 ^ 32 - 1)
      ∧ (s.tr.epochValid = false → tr.hostEpoch0 = now
          ∧ tr.cumulativeTicks.toNat
              = (s.port.tick.toNat + 65536 - s.tr.devTickLast.toNat) % 65536)
      ∧ (s.tr.epochValid = true → s.tr.hostEpoch0.toNat + 4200000000 < now.toNat →
          tr.hostEpoch0 = s.tr.hostEpochLast
          ∧ tr.cumulativeTicks.toNat
              = (s.port.tick.toNat + 65536 - s.tr.devTickLast.toNat) % 65536)
      ∧ (s.tr.epochValid = true → now.toNat ≤ s.tr.hostEpoch0.toNat + 4200000000 →
          tr.hostEpoch0 = s.tr.hostEpoch0
          ∧ tr.cumulativeTicks.toNat = (s.tr.cumulativeTicks.toNat
              + (s.port.tick.toNat + 65536 - s.tr.devTickLast.toNat) % 65536) % 2 ^ 64)

/-- TSS.UPDATE completes in every state and writes only the three registers of the accumulation
(R160, R162). -/
def Obligations.TssUpdateResult : Prop :=
  ∀ s : State, ∃ ticks : BitVec 64,
    exec .tssUpdate s = .next { s with
      tr := { s.tr with
        cumulativeTicks := ticks, devTickPrev := s.tr.devTickLast, devTickLast := s.port.tick }
      outcome := some (.ok .done) }
    ∧ ticks.toNat = (s.tr.cumulativeTicks.toNat
        + (s.port.tick.toNat + 65536 - s.tr.devTickLast.toNat) % 65536) % 2 ^ 64

/-- TSS.COMPUTE completes whenever the clock gives a sample and writes no register (R163): the sample
itself while there is no epoch, else the epoch plus the scaled ticks, exact in naturals, modulo 2^64. -/
def Obligations.TssComputeResult : Prop :=
  ∀ (s : State) (now : Instant) (k : HostClock), s.clock.draw = .ok (now, k) →
    ∃ time : Instant,
      exec .tssCompute s = .next { s with clock := k, outcome := some (.ok (.time time)) }
      ∧ (s.tr.epochValid = false → time = now)
      ∧ (s.tr.epochValid = true → time.toNat = (s.tr.hostEpoch0.toNat
          + ((s.tr.cumulativeTicks.toNat
              + (s.port.tick.toNat + 65536 - s.tr.devTickLast.toNat) % 65536) * 44739243) / 2 ^ 20)
          % 2 ^ 64)

/-- The congruence of R165 (2): `cumulative_ticks` is `dev_tick_last - t0` modulo 65536, where `t0` is
the `dev_tick_last` at which it was last zeroed. TSS.UPDATE keeps it, and so does a TSS.SET that keeps
the epoch; a first sample or a rebase establishes it with `t0` the `dev_tick_last` it found. -/
def Obligations.TicksFollowDeviceCounter : Prop :=
  (∀ (s t : State) (t0 : Nat), t0 < 65536 → s.tr.ticksFollow t0 →
    (exec .tssUpdate s = .next t → t.tr.ticksFollow t0)
    ∧ (exec .tssSet s = .next t → s.tr.epochValid = true →
        t.tr.hostEpochLast.toNat ≤ s.tr.hostEpoch0.toNat + 4200000000 → t.tr.ticksFollow t0))
  ∧ ∀ s t : State, exec .tssSet s = .next t →
      (s.tr.epochValid = false
        ∨ s.tr.hostEpoch0.toNat + 4200000000 < t.tr.hostEpochLast.toNat) →
      t.tr.ticksFollow s.tr.devTickLast.toNat

/-! ### BES -/

/-- BES.PROCESS in every state and for every flag byte is the table of R190 with the gate of R181: the
next state, and one event with the byte as received, or none. Nothing else changes, and bits other
than the five named ones do not matter (R191). (Priorities and gate: the spec's decisions D24 to D26;
the bit places are its defaults, log entry 1.) -/
def Obligations.BesProcessFollowsTable : Prop :=
  ∀ s : State, ∃ next cond,
    besRow s.bs (flagLight s.port.flags) (flagHeavy s.port.flags) (flagOff s.port.flags)
        (flagOverflow s.tr.sampleCount s.port.flags) = some (next, cond)
    ∧ exec .besProcess s = .next { s with
        bs := next
        outcome := some (.ok (.event (cond.map fun k => ⟨next, s.port.flags, k⟩))) }

/-- BusOff (R185): every flag byte is ignored, with no transition and no event; and only SESSION.RESET
leaves it: no other instruction does, a whole message included, and it does. -/
def Obligations.BusOffLeftOnlyByReset : Prop :=
  (∀ s : State, s.bs = .busOff →
    exec .besProcess s = .next { s with outcome := some (.ok (.event none)) })
  ∧ (∀ (i : Instr) (s t : State), i ≠ .sessionReset → s.bs = .busOff → exec i s = .next t →
      t.bs = .busOff)
  ∧ ∀ s t : State, exec .sessionReset s = .next t → t.bs = .errorActive

/-- Idempotence of state reports (R188): a flag byte that leaves BS.state as it is and is no overflow
reports nothing, and processing it a second time changes nothing, the outcome port included. (The bit
places are the spec's defaults from general knowledge, PRESUMED in log entry 1.) -/
def Obligations.RepeatedFlagsReportOnce : Prop :=
  ∀ s t u : State, flagOverflow s.tr.sampleCount s.port.flags = false →
    exec .besProcess s = .next t → exec .besProcess t = .next u → t.bs = s.bs →
    t.outcome = some (.ok (.event none)) ∧ u = t

/-! ### The whole machine -/

/-- Which instructions may write which session register (R29, R230): every other one leaves it. -/
def Obligations.SessionRegisterOwnership : Prop :=
  ∀ (i : Instr) (s t : State), exec i s = .next t →
    (writesTr i = false → t.tr = s.tr) ∧ (writesBs i = false → t.bs = s.bs)
      ∧ (writesTxSeq i = false → t.txSeq = s.txSeq)

/-- The machine stops with a fault in exactly one case: nothing is open, every transmit slot is in
flight, and all that is left to happen is ENC.FRAME operations waiting for a completion that never
comes (R238; `stuck` of U26 of 93_implementation_defined.md). Each of their slots is in flight then. No
fault of R200 stops it. (That a block fault is a next state is log entry 2, DEDUCED; that the stuck
encoders stop the machine with a fault is log entry 14, DESIGN CHOICE.) -/
def Obligations.OnlyAFullPoolStopsTheMachine : Prop :=
  ∀ s : State,
    ((∃ f, step s = .fault f) ↔ s.betweenOps = true ∧ Config.txSlots ≤ s.txInFlight.length
      ∧ s.events ≠ [] ∧ ∀ e ∈ s.events, e.presentsOp 0x0B#5)
    ∧ ∀ f, step s = .fault f → s.flightOk = true →
        ∀ e ∈ s.events, ∃ x now, e.action = .present 0x0B#5 x now
          ∧ (isSlot x.slot = true → x.slot ∈ s.txInFlight)

/-- The state after reset is well formed, and nothing is open. (That its buffers are empty is the
model's choice, log entry 3.) -/
def Obligations.ResetIsWellFormed : Prop := State.reset.wf = true ∧ State.reset.betweenOps = true

/-- Every step keeps the invariant: canonical memories with no byte beyond a buffer's length, CMDBUF
within its 16 bytes, `TR.epoch_valid = 1` iff `TR.sample_count >= 1`, slots in flight listed once and
in the pool, and `DC.pc <= DC.len` with a record left in an open pass (R33, R41, R40, R31). -/
def Obligations.StepKeepsWellFormed : Prop :=
  ∀ s t : State, s.wf = true → step s = .next t → t.wf = true

/-- Operations are atomic (R6, R26): a step taken with nothing open leaves nothing open, whatever the
host or the transport does. -/
def Obligations.StepsLeaveNothingOpen : Prop :=
  ∀ s t : State, s.betweenOps = true → step s = .next t → t.betweenOps = true

/-! ### Memory -/

/-- `MemWrite` then `MemRead` of the same bytes gives the value, modulo the width; every byte outside
reads as before; the canonical form is kept (R47). -/
def Obligations.MemReadAfterWrite : Prop :=
  ∀ (m : Memory) (a n v : Nat), m.wf = true →
    (m.memWrite a n v).wf = true ∧ (m.memWrite a n v).memRead a n = v % 256 ^ n
      ∧ ∀ k, (k < a ∨ a + n ≤ k) → (m.memWrite a n v).read k = m.read k

/-- A delivered message fills RXBUF and a delivered reply fills RPLBUF: the length, every byte at its
offset, nothing beyond (R40, R41, R51). RXBUF is not rewritten during a DEC.MESSAGE (R52), nor RPLBUF
during a synchronous command: such a delivery is refused. (That a message of every length is accepted
is log entry 7, RX_MAX unbounded; that a reply during a synchronous command is refused, R107 giving it
RPLBUF, is log entry 12; that a message not yet decoded is replaced is log entry 17.) -/
def Obligations.DeliveriesFillTheirBuffers : Prop :=
  ∀ (s : State) (bs : List Byte) (during : List (BitVec 5)) (rest : List Event),
    (s.presents ⟨.deliverRx bs, during⟩ rest →
      (0x0C#5 ∈ during → step s = .refused .rxRewritten)
      ∧ (0x0C#5 ∉ during → ∃ b : Buffer,
          step s = .next { s with events := rest, rxbuf := b } ∧ b.wf = true ∧ b.bytes = bs
            ∧ b.len = bs.length))
    ∧ (s.presents ⟨.deliverReply bs, during⟩ rest →
        (∀ d ∈ during, d.toNat ∈ [6, 7, 8, 9] → step s = .refused .replyRewritten)
        ∧ ((∀ d ∈ during, d.toNat ∉ [6, 7, 8, 9]) → ∃ b : Buffer,
            step s = .next { s with events := rest, rplbuf := b } ∧ b.wf = true ∧ b.bytes = bs
              ∧ b.len = bs.length))
end

