-- ==== Sys2Proof/Laws/Memory.lean ====
section
/-! SUPPORT. The laws of the memory primitives: read after write, the canonical form, and the
little-endian accesses. -/

namespace Sys2Proof.Machine

/-! ### One byte -/

@[simp] theorem Memory.read_nil (k : Nat) : Memory.read [] k = 0#8 := rfl

theorem Memory.read_cons (a : Nat) (b : Byte) (m : Memory) (k : Nat) :
    Memory.read ((a, b) :: m) k = if a = k then b else Memory.read m k := rfl

/-- Strictly rising with everything beyond `k`: the tail of a canonical memory. -/
theorem Memory.wf_cons {a : Nat} {b : Byte} {m : Memory} (h : Memory.wf ((a, b) :: m) = true) :
    b ≠ 0#8 ∧ (∀ x ∈ m, a < x.1) ∧ Memory.wf m = true := by
  simp only [Memory.wf, List.pairwise_cons, List.all_cons, Bool.and_eq_true, decide_eq_true_eq,
    bne_iff_ne] at h ⊢
  exact ⟨h.2.1, h.1.1, h.1.2, h.2.2⟩

theorem Memory.wf_of_cons {a : Nat} {b : Byte} {m : Memory} (hb : b ≠ 0#8) (ha : ∀ x ∈ m, a < x.1)
    (h : Memory.wf m = true) : Memory.wf ((a, b) :: m) = true := by
  simp only [Memory.wf, List.pairwise_cons, List.all_cons, Bool.and_eq_true, decide_eq_true_eq,
    bne_iff_ne] at h ⊢
  exact ⟨⟨ha, h.1⟩, hb, h.2⟩

@[simp] theorem Memory.wf_nil : Memory.wf [] = true := by decide

/-- An offset below every listed one reads as zero. -/
theorem Memory.read_eq_zero {m : Memory} {k : Nat} (h : ∀ x ∈ m, k < x.1) : m.read k = 0#8 := by
  induction m with
  | nil => rfl
  | cons x m ih =>
    obtain ⟨a, b⟩ := x
    have ha : k < a := h (a, b) (by simp)
    rw [Memory.read_cons, if_neg (by omega), ih fun x hx => h x (by simp [hx])]

/-- Every entry of a write is the written one or an old one. -/
theorem Memory.mem_write {m : Memory} {k : Nat} {v : Byte} {x : Host.Cell} (h : x ∈ m.write k v) :
    x = (k, v) ∨ x ∈ m := by
  induction m with
  | nil =>
    simp only [Memory.write] at h
    split at h <;> simp_all
  | cons y m ih =>
    obtain ⟨a, b⟩ := y
    simp only [Memory.write] at h
    split at h
    · split at h <;> simp_all
    · split at h
      · split at h
        · exact .inr (List.mem_cons_of_mem _ h)
        · simp only [List.mem_cons] at h ⊢
          tauto
      · simp only [List.mem_cons] at h ⊢
        rcases h with h | h
        · exact .inr (.inl h)
        · rcases ih h with h | h
          · exact .inl h
          · exact .inr (.inr h)

/-- A write keeps the canonical form. -/
theorem Memory.write_wf {m : Memory} (k : Nat) (v : Byte) (h : m.wf = true) :
    (m.write k v).wf = true := by
  induction m with
  | nil =>
    simp only [Memory.write]
    split
    · rfl
    · exact Memory.wf_of_cons ‹_› (by simp) rfl
  | cons y m ih =>
    obtain ⟨a, b⟩ := y
    obtain ⟨hb, ha, hm⟩ := Memory.wf_cons h
    simp only [Memory.write]
    split
    · split
      · exact h
      · refine Memory.wf_of_cons ‹_› ?_ h
        intro x hx
        rcases List.mem_cons.1 hx with rfl | hx
        · assumption
        · exact Nat.lt_trans ‹_› (ha x hx)
    · split
      · split
        · exact hm
        · subst_vars; exact Memory.wf_of_cons ‹_› ha hm
      · refine Memory.wf_of_cons hb ?_ (ih hm)
        intro x hx
        rcases Memory.mem_write hx with rfl | hx
        · simp only; omega
        · exact ha x hx

/-- Read after write, on a canonical memory: the written byte at its offset, every other byte as before. -/
theorem Memory.read_write {m : Memory} (h : m.wf = true) (k : Nat) (v : Byte) (j : Nat) :
    (m.write k v).read j = if j = k then v else m.read j := by
  induction m with
  | nil =>
    simp only [Memory.write]
    split
    · subst_vars; simp
    · simp only [Memory.read_cons, Memory.read_nil, eq_comm]
  | cons y m ih =>
    obtain ⟨a, b⟩ := y
    obtain ⟨hb, ha, hm⟩ := Memory.wf_cons h
    simp only [Memory.write]
    split
    · have hz : ∀ x ∈ (a, b) :: m, k < x.1 := by
        intro x hx
        rcases List.mem_cons.1 hx with rfl | hx
        · assumption
        · exact Nat.lt_trans ‹_› (ha x hx)
      split
      · subst_vars
        split
        · subst_vars; exact Memory.read_eq_zero hz
        · rfl
      · rw [Memory.read_cons]
        by_cases hjk : j = k
        · rw [if_pos hjk, if_pos hjk.symm]
        · rw [if_neg hjk, if_neg (Ne.symm hjk)]
    · split
      · rename_i hka
        subst hka
        split
        · subst_vars
          by_cases hjk : j = k
          · subst hjk; rw [if_pos rfl]; exact Memory.read_eq_zero ha
          · rw [if_neg hjk, Memory.read_cons, if_neg (Ne.symm hjk)]
        · simp only [Memory.read_cons]
          by_cases hjk : j = k
          · rw [if_pos hjk, if_pos hjk.symm]
          · rw [if_neg hjk, if_neg (Ne.symm hjk), if_neg (Ne.symm hjk)]
      · rw [Memory.read_cons, Memory.read_cons, ih hm]
        by_cases hja : a = j
        · subst hja; rw [if_pos rfl, if_pos rfl, if_neg (by omega)]
        · rw [if_neg hja, if_neg hja]

/-! ### Several bytes -/

theorem Memory.memWrite_wf {m : Memory} (a n v : Nat) (h : m.wf = true) :
    (m.memWrite a n v).wf = true := by
  induction n generalizing m a v with
  | zero => exact h
  | succ n ih => exact ih _ _ (Memory.write_wf _ _ h)

theorem Memory.writeBytes_wf {m : Memory} (a : Nat) (bs : List Byte) (h : m.wf = true) :
    (m.writeBytes a bs).wf = true := by
  induction bs generalizing m a with
  | nil => exact h
  | cons b bs ih => exact ih _ (Memory.write_wf _ _ h)

theorem Memory.mem_memWrite {m : Memory} {a n v : Nat} {x : Host.Cell} (h : x ∈ m.memWrite a n v) :
    x.1 < a + n ∨ x ∈ m := by
  induction n generalizing m a v with
  | zero => exact .inr h
  | succ n ih =>
    rcases ih h with h | h
    · left; omega
    · rcases Memory.mem_write h with rfl | h
      · left; simp only; omega
      · exact .inr h

theorem Memory.mem_writeBytes {m : Memory} {a : Nat} {bs : List Byte} {x : Host.Cell}
    (h : x ∈ m.writeBytes a bs) : x.1 < a + bs.length ∨ x ∈ m := by
  induction bs generalizing m a with
  | nil => exact .inr h
  | cons b bs ih =>
    simp only [List.length_cons]
    rcases ih h with h | h
    · left; omega
    · rcases Memory.mem_write h with rfl | h
      · left; simp only; omega
      · exact .inr h

/-- What `writeBytes` leaves at each offset. -/
theorem Memory.read_writeBytes {m : Memory} (h : m.wf = true) (a : Nat) (bs : List Byte) (j : Nat) :
    (m.writeBytes a bs).read j
      = if a ≤ j ∧ j < a + bs.length then bs.getD (j - a) 0#8 else m.read j := by
  induction bs generalizing m a with
  | nil => simp [Memory.writeBytes]
  | cons b bs ih =>
    rw [Memory.writeBytes, ih (Memory.write_wf _ _ h), Memory.read_write h]
    simp only [List.length_cons]
    by_cases h1 : j = a
    · subst h1
      rw [if_neg (by omega), if_pos rfl, if_pos (by omega)]
      simp
    · rw [if_neg h1]
      by_cases h2 : a + 1 ≤ j ∧ j < a + 1 + bs.length
      · rw [if_pos h2, if_pos (by omega)]
        obtain ⟨d, rfl⟩ : ∃ d, j = a + 1 + d := ⟨j - (a + 1), by omega⟩
        have e1 : a + 1 + d - (a + 1) = d := by omega
        have e2 : a + 1 + d - a = d + 1 := by omega
        rw [e1, e2]; simp
      · rw [if_neg h2, if_neg (by omega)]

/-- What `memWrite` leaves at each offset. -/
theorem Memory.read_memWrite {m : Memory} (h : m.wf = true) (a n v j : Nat) :
    (m.memWrite a n v).read j
      = if a ≤ j ∧ j < a + n then BitVec.ofNat 8 (v / 256 ^ (j - a)) else m.read j := by
  induction n generalizing m a v with
  | zero => rw [Memory.memWrite, if_neg (by omega)]
  | succ n ih =>
    rw [Memory.memWrite, ih (Memory.write_wf _ _ h), Memory.read_write h]
    by_cases h1 : j = a
    · subst h1
      rw [if_neg (by omega), if_pos rfl, if_pos (by omega)]
      simp
    · rw [if_neg h1]
      by_cases h2 : a + 1 ≤ j ∧ j < a + 1 + n
      · rw [if_pos h2, if_pos (by omega)]
        obtain ⟨d, rfl⟩ : ∃ d, j = a + 1 + d := ⟨j - (a + 1), by omega⟩
        have e1 : a + 1 + d - (a + 1) = d := by omega
        have e2 : a + 1 + d - a = d + 1 := by omega
        rw [e1, e2, Nat.div_div_eq_div_mul, pow_succ, mul_comm]
      · rw [if_neg h2, if_neg (by omega)]

/-- Two memories that read the same on a range assemble the same number there. -/
theorem Memory.memRead_congr {m m' : Memory} {a n : Nat}
    (h : ∀ k, a ≤ k → k < a + n → m'.read k = m.read k) : m'.memRead a n = m.memRead a n := by
  induction n generalizing a with
  | zero => rfl
  | succ n ih =>
    rw [Memory.memRead, Memory.memRead, h a (by omega) (by omega),
      ih fun k h1 h2 => h k (by omega) (by omega)]

/-! ### Buffers -/

theorem Buffer.ofBytes_len (bs : List Byte) : (Buffer.ofBytes bs).len = bs.length := rfl

theorem Buffer.ofBytes_read (bs : List Byte) (k : Nat) :
    (Buffer.ofBytes bs).mem.read k = bs.getD k 0#8 := by
  rw [Buffer.ofBytes, Memory.read_writeBytes Memory.wf_nil]
  by_cases h : k < bs.length
  · rw [if_pos ⟨Nat.zero_le _, by omega⟩]; simp
  · rw [if_neg (by omega)]
    simp [List.getD, List.getElem?_eq_none (by omega : bs.length ≤ k)]

theorem Buffer.wf_iff {b : Buffer} :
    b.wf = true ↔ b.mem.wf = true ∧ ∀ x ∈ b.mem, x.1 < b.len := by
  simp [Buffer.wf, Bool.and_eq_true, List.all_eq_true]

theorem Buffer.ofBytes_wf (bs : List Byte) : (Buffer.ofBytes bs).wf = true := by
  refine Buffer.wf_iff.2 ⟨Memory.writeBytes_wf _ _ Memory.wf_nil, fun x hx => ?_⟩
  rcases Memory.mem_writeBytes hx with h | h
  · simpa [Buffer.ofBytes] using h
  · simp at h

theorem Buffer.memWrite_wf {b : Buffer} (a n v : Nat) (h : b.wf = true) :
    (b.memWrite a n v).wf = true := by
  obtain ⟨h1, h2⟩ := Buffer.wf_iff.1 h
  refine Buffer.wf_iff.2 ⟨Memory.memWrite_wf _ _ _ h1, fun x hx => ?_⟩
  simp only [Buffer.memWrite] at hx ⊢
  rcases Memory.mem_memWrite hx with h | h
  · omega
  · have := h2 x h; omega

theorem Buffer.writeBytes_wf {b : Buffer} (a : Nat) (bs : List Byte) (h : b.wf = true) :
    (b.writeBytes a bs).wf = true := by
  obtain ⟨h1, h2⟩ := Buffer.wf_iff.1 h
  refine Buffer.wf_iff.2 ⟨Memory.writeBytes_wf _ _ h1, fun x hx => ?_⟩
  simp only [Buffer.writeBytes] at hx ⊢
  rcases Memory.mem_writeBytes hx with h | h
  · omega
  · have := h2 x h; omega

@[simp] theorem Buffer.empty_wf : Buffer.empty.wf = true := by decide

/-! ### Slots -/

theorem slotBuffer_setSlotBuffer (l : List Buffer) (k : Nat) (b : Buffer) (j : Nat) :
    slotBuffer (setSlotBuffer l k b) j = if j = k then b else slotBuffer l j := by
  induction l generalizing k j with
  | nil =>
    induction k generalizing j with
    | zero => cases j <;> simp [setSlotBuffer, slotBuffer]
    | succ k ih => cases j <;> simp [setSlotBuffer, slotBuffer, ih]
  | cons x l ih => cases k <;> cases j <;> simp [setSlotBuffer, slotBuffer, ih]

theorem mem_setSlotBuffer {l : List Buffer} {k : Nat} {b x : Buffer} (h : x ∈ setSlotBuffer l k b) :
    x = b ∨ x = Buffer.empty ∨ x ∈ l := by
  induction l generalizing k with
  | nil =>
    induction k with
    | zero => simp_all [setSlotBuffer]
    | succ k ih =>
      simp only [setSlotBuffer, List.mem_cons] at h
      rcases h with h | h
      · exact .inr (.inl h)
      · exact ih h
  | cons y l ih =>
    cases k with
    | zero =>
      simp only [setSlotBuffer, List.mem_cons] at h ⊢
      tauto
    | succ k =>
      simp only [setSlotBuffer, List.mem_cons] at h ⊢
      rcases h with h | h
      · tauto
      · have := ih h; tauto

theorem mem_insertSlot {l : List Nat} {k x : Nat} : x ∈ insertSlot l k ↔ x = k ∨ x ∈ l := by
  induction l with
  | nil => simp [insertSlot]
  | cons y l ih =>
    simp only [insertSlot]
    split
    · simp
    · split
      · subst_vars; simp
      · simp only [List.mem_cons, ih]; tauto

theorem insertSlot_pairwise {l : List Nat} (k : Nat) (h : l.Pairwise fun a b => a < b) :
    (insertSlot l k).Pairwise fun a b => a < b := by
  induction l with
  | nil => simp [insertSlot]
  | cons y l ih =>
    obtain ⟨h1, h2⟩ := List.pairwise_cons.1 h
    simp only [insertSlot]
    split
    · refine List.pairwise_cons.2 ⟨fun x hx => ?_, h⟩
      rcases List.mem_cons.1 hx with rfl | hx
      · assumption
      · exact Nat.lt_trans ‹_› (h1 x hx)
    · split
      · exact h
      · refine List.pairwise_cons.2 ⟨fun x hx => ?_, ih h2⟩
        rcases mem_insertSlot.1 hx with rfl | hx
        · omega
        · exact h1 x hx

end Sys2Proof.Machine
end

