-- ==== Sys2Proof/Laws/State.lean ====
section
/-! SUPPORT. What each record update of the shared operations does to each field of State: one lemma
per field per update, true by definition (`withFrame` is unfolded first, so that no unifier evaluates
the frame it builds). -/

namespace Sys2Proof.Machine

/-! ### `State.finish` -/

@[simp] theorem State.finish_tr (s : State) (r : Result) : (s.finish r).tr = s.tr := rfl
@[simp] theorem State.finish_bs (s : State) (r : Result) : (s.finish r).bs = s.bs := rfl
@[simp] theorem State.finish_txSeq (s : State) (r : Result) : (s.finish r).txSeq = s.txSeq := rfl
@[simp] theorem State.finish_rxbuf (s : State) (r : Result) : (s.finish r).rxbuf = s.rxbuf := rfl
@[simp] theorem State.finish_rplbuf (s : State) (r : Result) : (s.finish r).rplbuf = s.rplbuf := rfl
@[simp] theorem State.finish_cmdbuf (s : State) (r : Result) : (s.finish r).cmdbuf = s.cmdbuf := rfl
@[simp] theorem State.finish_txbufs (s : State) (r : Result) : (s.finish r).txbufs = s.txbufs := rfl
@[simp] theorem State.finish_dc (s : State) (r : Result) : (s.finish r).dc = s.dc := rfl
@[simp] theorem State.finish_cmdOutstanding (s : State) (r : Result) : (s.finish r).cmdOutstanding = s.cmdOutstanding := rfl
@[simp] theorem State.finish_txInFlight (s : State) (r : Result) : (s.finish r).txInFlight = s.txInFlight := rfl
@[simp] theorem State.finish_asyncInFlight (s : State) (r : Result) : (s.finish r).asyncInFlight = s.asyncInFlight := rfl
@[simp] theorem State.finish_port (s : State) (r : Result) : (s.finish r).port = s.port := rfl
@[simp] theorem State.finish_outcome (s : State) (r : Result) : (s.finish r).outcome = some (.ok r) := rfl
@[simp] theorem State.finish_items (s : State) (r : Result) : (s.finish r).items = s.items := rfl
@[simp] theorem State.finish_calls (s : State) (r : Result) : (s.finish r).calls = s.calls := rfl
@[simp] theorem State.finish_completions (s : State) (r : Result) : (s.finish r).completions = s.completions := rfl
@[simp] theorem State.finish_clock (s : State) (r : Result) : (s.finish r).clock = s.clock := rfl
@[simp] theorem State.finish_events (s : State) (r : Result) : (s.finish r).events = s.events := rfl

/-! ### `State.raise` -/

@[simp] theorem State.raise_tr (s : State) (f : OpFault) : (s.raise f).tr = s.tr := rfl
@[simp] theorem State.raise_bs (s : State) (f : OpFault) : (s.raise f).bs = s.bs := rfl
@[simp] theorem State.raise_txSeq (s : State) (f : OpFault) : (s.raise f).txSeq = s.txSeq := rfl
@[simp] theorem State.raise_rxbuf (s : State) (f : OpFault) : (s.raise f).rxbuf = s.rxbuf := rfl
@[simp] theorem State.raise_rplbuf (s : State) (f : OpFault) : (s.raise f).rplbuf = s.rplbuf := rfl
@[simp] theorem State.raise_cmdbuf (s : State) (f : OpFault) : (s.raise f).cmdbuf = s.cmdbuf := rfl
@[simp] theorem State.raise_txbufs (s : State) (f : OpFault) : (s.raise f).txbufs = s.txbufs := rfl
@[simp] theorem State.raise_dc (s : State) (f : OpFault) : (s.raise f).dc = s.dc := rfl
@[simp] theorem State.raise_cmdOutstanding (s : State) (f : OpFault) : (s.raise f).cmdOutstanding = s.cmdOutstanding := rfl
@[simp] theorem State.raise_txInFlight (s : State) (f : OpFault) : (s.raise f).txInFlight = s.txInFlight := rfl
@[simp] theorem State.raise_asyncInFlight (s : State) (f : OpFault) : (s.raise f).asyncInFlight = s.asyncInFlight := rfl
@[simp] theorem State.raise_port (s : State) (f : OpFault) : (s.raise f).port = s.port := rfl
@[simp] theorem State.raise_outcome (s : State) (f : OpFault) : (s.raise f).outcome = some (.fault f) := rfl
@[simp] theorem State.raise_items (s : State) (f : OpFault) : (s.raise f).items = s.items := rfl
@[simp] theorem State.raise_calls (s : State) (f : OpFault) : (s.raise f).calls = s.calls := rfl
@[simp] theorem State.raise_completions (s : State) (f : OpFault) : (s.raise f).completions = s.completions := rfl
@[simp] theorem State.raise_clock (s : State) (f : OpFault) : (s.raise f).clock = s.clock := rfl
@[simp] theorem State.raise_events (s : State) (f : OpFault) : (s.raise f).events = s.events := rfl

/-! ### `State.emit` -/

@[simp] theorem State.emit_tr (s : State) (i : Item) : (s.emit i).tr = s.tr := rfl
@[simp] theorem State.emit_bs (s : State) (i : Item) : (s.emit i).bs = s.bs := rfl
@[simp] theorem State.emit_txSeq (s : State) (i : Item) : (s.emit i).txSeq = s.txSeq := rfl
@[simp] theorem State.emit_rxbuf (s : State) (i : Item) : (s.emit i).rxbuf = s.rxbuf := rfl
@[simp] theorem State.emit_rplbuf (s : State) (i : Item) : (s.emit i).rplbuf = s.rplbuf := rfl
@[simp] theorem State.emit_cmdbuf (s : State) (i : Item) : (s.emit i).cmdbuf = s.cmdbuf := rfl
@[simp] theorem State.emit_txbufs (s : State) (i : Item) : (s.emit i).txbufs = s.txbufs := rfl
@[simp] theorem State.emit_dc (s : State) (i : Item) : (s.emit i).dc = s.dc := rfl
@[simp] theorem State.emit_cmdOutstanding (s : State) (i : Item) : (s.emit i).cmdOutstanding = s.cmdOutstanding := rfl
@[simp] theorem State.emit_txInFlight (s : State) (i : Item) : (s.emit i).txInFlight = s.txInFlight := rfl
@[simp] theorem State.emit_asyncInFlight (s : State) (i : Item) : (s.emit i).asyncInFlight = s.asyncInFlight := rfl
@[simp] theorem State.emit_port (s : State) (i : Item) : (s.emit i).port = s.port := rfl
@[simp] theorem State.emit_outcome (s : State) (i : Item) : (s.emit i).outcome = s.outcome := rfl
@[simp] theorem State.emit_items (s : State) (i : Item) : (s.emit i).items = s.items ++ [i] := rfl
@[simp] theorem State.emit_calls (s : State) (i : Item) : (s.emit i).calls = s.calls := rfl
@[simp] theorem State.emit_completions (s : State) (i : Item) : (s.emit i).completions = s.completions := rfl
@[simp] theorem State.emit_clock (s : State) (i : Item) : (s.emit i).clock = s.clock := rfl
@[simp] theorem State.emit_events (s : State) (i : Item) : (s.emit i).events = s.events := rfl

/-! ### `State.call` -/

@[simp] theorem State.call_tr (s : State) (c : TransportCall) : (s.call c).tr = s.tr := rfl
@[simp] theorem State.call_bs (s : State) (c : TransportCall) : (s.call c).bs = s.bs := rfl
@[simp] theorem State.call_txSeq (s : State) (c : TransportCall) : (s.call c).txSeq = s.txSeq := rfl
@[simp] theorem State.call_rxbuf (s : State) (c : TransportCall) : (s.call c).rxbuf = s.rxbuf := rfl
@[simp] theorem State.call_rplbuf (s : State) (c : TransportCall) : (s.call c).rplbuf = s.rplbuf := rfl
@[simp] theorem State.call_cmdbuf (s : State) (c : TransportCall) : (s.call c).cmdbuf = s.cmdbuf := rfl
@[simp] theorem State.call_txbufs (s : State) (c : TransportCall) : (s.call c).txbufs = s.txbufs := rfl
@[simp] theorem State.call_dc (s : State) (c : TransportCall) : (s.call c).dc = s.dc := rfl
@[simp] theorem State.call_cmdOutstanding (s : State) (c : TransportCall) : (s.call c).cmdOutstanding = s.cmdOutstanding := rfl
@[simp] theorem State.call_txInFlight (s : State) (c : TransportCall) : (s.call c).txInFlight = s.txInFlight := rfl
@[simp] theorem State.call_asyncInFlight (s : State) (c : TransportCall) : (s.call c).asyncInFlight = s.asyncInFlight := rfl
@[simp] theorem State.call_port (s : State) (c : TransportCall) : (s.call c).port = s.port := rfl
@[simp] theorem State.call_outcome (s : State) (c : TransportCall) : (s.call c).outcome = s.outcome := rfl
@[simp] theorem State.call_items (s : State) (c : TransportCall) : (s.call c).items = s.items := rfl
@[simp] theorem State.call_calls (s : State) (c : TransportCall) : (s.call c).calls = s.calls ++ [c] := rfl
@[simp] theorem State.call_completions (s : State) (c : TransportCall) : (s.call c).completions = s.completions := rfl
@[simp] theorem State.call_clock (s : State) (c : TransportCall) : (s.call c).clock = s.clock := rfl
@[simp] theorem State.call_events (s : State) (c : TransportCall) : (s.call c).events = s.events := rfl

/-! ### `State.abortPass` -/

@[simp] theorem State.abortPass_tr (s : State) (f : OpFault) : (s.abortPass f).tr = s.tr := rfl
@[simp] theorem State.abortPass_bs (s : State) (f : OpFault) : (s.abortPass f).bs = s.bs := rfl
@[simp] theorem State.abortPass_txSeq (s : State) (f : OpFault) : (s.abortPass f).txSeq = s.txSeq := rfl
@[simp] theorem State.abortPass_rxbuf (s : State) (f : OpFault) : (s.abortPass f).rxbuf = s.rxbuf := rfl
@[simp] theorem State.abortPass_rplbuf (s : State) (f : OpFault) : (s.abortPass f).rplbuf = s.rplbuf := rfl
@[simp] theorem State.abortPass_cmdbuf (s : State) (f : OpFault) : (s.abortPass f).cmdbuf = s.cmdbuf := rfl
@[simp] theorem State.abortPass_txbufs (s : State) (f : OpFault) : (s.abortPass f).txbufs = s.txbufs := rfl
@[simp] theorem State.abortPass_dc (s : State) (f : OpFault) : (s.abortPass f).dc = none := rfl
@[simp] theorem State.abortPass_cmdOutstanding (s : State) (f : OpFault) : (s.abortPass f).cmdOutstanding = s.cmdOutstanding := rfl
@[simp] theorem State.abortPass_txInFlight (s : State) (f : OpFault) : (s.abortPass f).txInFlight = s.txInFlight := rfl
@[simp] theorem State.abortPass_asyncInFlight (s : State) (f : OpFault) : (s.abortPass f).asyncInFlight = s.asyncInFlight := rfl
@[simp] theorem State.abortPass_port (s : State) (f : OpFault) : (s.abortPass f).port = s.port := rfl
@[simp] theorem State.abortPass_outcome (s : State) (f : OpFault) : (s.abortPass f).outcome = some (.fault f) := rfl
@[simp] theorem State.abortPass_items (s : State) (f : OpFault) : (s.abortPass f).items = s.items := rfl
@[simp] theorem State.abortPass_calls (s : State) (f : OpFault) : (s.abortPass f).calls = s.calls := rfl
@[simp] theorem State.abortPass_completions (s : State) (f : OpFault) : (s.abortPass f).completions = s.completions := rfl
@[simp] theorem State.abortPass_clock (s : State) (f : OpFault) : (s.abortPass f).clock = s.clock := rfl
@[simp] theorem State.abortPass_events (s : State) (f : OpFault) : (s.abortPass f).events = s.events := rfl

/-! ### `State.closePass` -/

@[simp] theorem State.closePass_tr (s : State) (c : DecodeCtx) : (s.closePass c).tr = s.tr := rfl
@[simp] theorem State.closePass_bs (s : State) (c : DecodeCtx) : (s.closePass c).bs = s.bs := rfl
@[simp] theorem State.closePass_txSeq (s : State) (c : DecodeCtx) : (s.closePass c).txSeq = s.txSeq := rfl
@[simp] theorem State.closePass_rxbuf (s : State) (c : DecodeCtx) : (s.closePass c).rxbuf = s.rxbuf := rfl
@[simp] theorem State.closePass_rplbuf (s : State) (c : DecodeCtx) : (s.closePass c).rplbuf = s.rplbuf := rfl
@[simp] theorem State.closePass_cmdbuf (s : State) (c : DecodeCtx) : (s.closePass c).cmdbuf = s.cmdbuf := rfl
@[simp] theorem State.closePass_txbufs (s : State) (c : DecodeCtx) : (s.closePass c).txbufs = s.txbufs := rfl
@[simp] theorem State.closePass_dc (s : State) (c : DecodeCtx) : (s.closePass c).dc = none := rfl
@[simp] theorem State.closePass_cmdOutstanding (s : State) (c : DecodeCtx) : (s.closePass c).cmdOutstanding = s.cmdOutstanding := rfl
@[simp] theorem State.closePass_txInFlight (s : State) (c : DecodeCtx) : (s.closePass c).txInFlight = s.txInFlight := rfl
@[simp] theorem State.closePass_asyncInFlight (s : State) (c : DecodeCtx) : (s.closePass c).asyncInFlight = s.asyncInFlight := rfl
@[simp] theorem State.closePass_port (s : State) (c : DecodeCtx) : (s.closePass c).port = s.port := rfl
@[simp] theorem State.closePass_outcome (s : State) (c : DecodeCtx) : (s.closePass c).outcome = some (.ok (.version (some c.version))) := rfl
@[simp] theorem State.closePass_items (s : State) (c : DecodeCtx) : (s.closePass c).items = s.items := rfl
@[simp] theorem State.closePass_calls (s : State) (c : DecodeCtx) : (s.closePass c).calls = s.calls := rfl
@[simp] theorem State.closePass_completions (s : State) (c : DecodeCtx) : (s.closePass c).completions = s.completions := rfl
@[simp] theorem State.closePass_clock (s : State) (c : DecodeCtx) : (s.closePass c).clock = s.clock := rfl
@[simp] theorem State.closePass_events (s : State) (c : DecodeCtx) : (s.closePass c).events = s.events := rfl

/-! ### `State.requestDone` -/

@[simp] theorem State.requestDone_tr (s : State) : (s.requestDone).tr = s.tr := rfl
@[simp] theorem State.requestDone_bs (s : State) : (s.requestDone).bs = s.bs := rfl
@[simp] theorem State.requestDone_txSeq (s : State) : (s.requestDone).txSeq = s.txSeq := rfl
@[simp] theorem State.requestDone_rxbuf (s : State) : (s.requestDone).rxbuf = s.rxbuf := rfl
@[simp] theorem State.requestDone_rplbuf (s : State) : (s.requestDone).rplbuf = s.rplbuf := rfl
@[simp] theorem State.requestDone_cmdbuf (s : State) : (s.requestDone).cmdbuf = s.cmdbuf := rfl
@[simp] theorem State.requestDone_txbufs (s : State) : (s.requestDone).txbufs = s.txbufs := rfl
@[simp] theorem State.requestDone_dc (s : State) : (s.requestDone).dc = s.dc := rfl
@[simp] theorem State.requestDone_cmdOutstanding (s : State) : (s.requestDone).cmdOutstanding = false := rfl
@[simp] theorem State.requestDone_txInFlight (s : State) : (s.requestDone).txInFlight = s.txInFlight := rfl
@[simp] theorem State.requestDone_asyncInFlight (s : State) : (s.requestDone).asyncInFlight = s.asyncInFlight := rfl
@[simp] theorem State.requestDone_port (s : State) : (s.requestDone).port = s.port := rfl
@[simp] theorem State.requestDone_outcome (s : State) : (s.requestDone).outcome = s.outcome := rfl
@[simp] theorem State.requestDone_items (s : State) : (s.requestDone).items = s.items := rfl
@[simp] theorem State.requestDone_calls (s : State) : (s.requestDone).calls = s.calls := rfl
@[simp] theorem State.requestDone_completions (s : State) : (s.requestDone).completions = s.completions := rfl
@[simp] theorem State.requestDone_clock (s : State) : (s.requestDone).clock = s.clock := rfl
@[simp] theorem State.requestDone_events (s : State) : (s.requestDone).events = s.events := rfl

/-! ### `State.withFrame` -/

@[simp] theorem State.withFrame_tr (s : State) (f n : Byte) (a : List Byte) : (s.withFrame f n a).tr = s.tr := by unfold State.withFrame; rfl
@[simp] theorem State.withFrame_bs (s : State) (f n : Byte) (a : List Byte) : (s.withFrame f n a).bs = s.bs := by unfold State.withFrame; rfl
@[simp] theorem State.withFrame_txSeq (s : State) (f n : Byte) (a : List Byte) : (s.withFrame f n a).txSeq = s.txSeq := by unfold State.withFrame; rfl
@[simp] theorem State.withFrame_rxbuf (s : State) (f n : Byte) (a : List Byte) : (s.withFrame f n a).rxbuf = s.rxbuf := by unfold State.withFrame; rfl
@[simp] theorem State.withFrame_rplbuf (s : State) (f n : Byte) (a : List Byte) : (s.withFrame f n a).rplbuf = s.rplbuf := by unfold State.withFrame; rfl
@[simp] theorem State.withFrame_cmdbuf (s : State) (f n : Byte) (a : List Byte) : (s.withFrame f n a).cmdbuf = buildFrame f n a := by unfold State.withFrame; rfl
@[simp] theorem State.withFrame_txbufs (s : State) (f n : Byte) (a : List Byte) : (s.withFrame f n a).txbufs = s.txbufs := by unfold State.withFrame; rfl
@[simp] theorem State.withFrame_dc (s : State) (f n : Byte) (a : List Byte) : (s.withFrame f n a).dc = s.dc := by unfold State.withFrame; rfl
@[simp] theorem State.withFrame_cmdOutstanding (s : State) (f n : Byte) (a : List Byte) : (s.withFrame f n a).cmdOutstanding = s.cmdOutstanding := by unfold State.withFrame; rfl
@[simp] theorem State.withFrame_txInFlight (s : State) (f n : Byte) (a : List Byte) : (s.withFrame f n a).txInFlight = s.txInFlight := by unfold State.withFrame; rfl
@[simp] theorem State.withFrame_asyncInFlight (s : State) (f n : Byte) (a : List Byte) : (s.withFrame f n a).asyncInFlight = s.asyncInFlight := by unfold State.withFrame; rfl
@[simp] theorem State.withFrame_port (s : State) (f n : Byte) (a : List Byte) : (s.withFrame f n a).port = s.port := by unfold State.withFrame; rfl
@[simp] theorem State.withFrame_outcome (s : State) (f n : Byte) (a : List Byte) : (s.withFrame f n a).outcome = s.outcome := by unfold State.withFrame; rfl
@[simp] theorem State.withFrame_items (s : State) (f n : Byte) (a : List Byte) : (s.withFrame f n a).items = s.items := by unfold State.withFrame; rfl
@[simp] theorem State.withFrame_calls (s : State) (f n : Byte) (a : List Byte) : (s.withFrame f n a).calls = s.calls := by unfold State.withFrame; rfl
@[simp] theorem State.withFrame_completions (s : State) (f n : Byte) (a : List Byte) : (s.withFrame f n a).completions = s.completions := by unfold State.withFrame; rfl
@[simp] theorem State.withFrame_clock (s : State) (f n : Byte) (a : List Byte) : (s.withFrame f n a).clock = s.clock := by unfold State.withFrame; rfl
@[simp] theorem State.withFrame_events (s : State) (f n : Byte) (a : List Byte) : (s.withFrame f n a).events = s.events := by unfold State.withFrame; rfl

/-! ### `State.accept` -/

@[simp] theorem State.accept_tr (s : State) (x : Operands) (now : List Instant) : (s.accept x now).tr = s.tr := rfl
@[simp] theorem State.accept_bs (s : State) (x : Operands) (now : List Instant) : (s.accept x now).bs = s.bs := rfl
@[simp] theorem State.accept_txSeq (s : State) (x : Operands) (now : List Instant) : (s.accept x now).txSeq = s.txSeq := rfl
@[simp] theorem State.accept_rxbuf (s : State) (x : Operands) (now : List Instant) : (s.accept x now).rxbuf = s.rxbuf := rfl
@[simp] theorem State.accept_rplbuf (s : State) (x : Operands) (now : List Instant) : (s.accept x now).rplbuf = s.rplbuf := rfl
@[simp] theorem State.accept_cmdbuf (s : State) (x : Operands) (now : List Instant) : (s.accept x now).cmdbuf = s.cmdbuf := rfl
@[simp] theorem State.accept_txbufs (s : State) (x : Operands) (now : List Instant) : (s.accept x now).txbufs = s.txbufs := rfl
@[simp] theorem State.accept_dc (s : State) (x : Operands) (now : List Instant) : (s.accept x now).dc = s.dc := rfl
@[simp] theorem State.accept_cmdOutstanding (s : State) (x : Operands) (now : List Instant) : (s.accept x now).cmdOutstanding = s.cmdOutstanding := rfl
@[simp] theorem State.accept_txInFlight (s : State) (x : Operands) (now : List Instant) : (s.accept x now).txInFlight = s.txInFlight := rfl
@[simp] theorem State.accept_asyncInFlight (s : State) (x : Operands) (now : List Instant) : (s.accept x now).asyncInFlight = s.asyncInFlight := rfl
@[simp] theorem State.accept_port (s : State) (x : Operands) (now : List Instant) : (s.accept x now).port = x := rfl
@[simp] theorem State.accept_outcome (s : State) (x : Operands) (now : List Instant) : (s.accept x now).outcome = none := rfl
@[simp] theorem State.accept_items (s : State) (x : Operands) (now : List Instant) : (s.accept x now).items = s.items := rfl
@[simp] theorem State.accept_calls (s : State) (x : Operands) (now : List Instant) : (s.accept x now).calls = [] := rfl
@[simp] theorem State.accept_completions (s : State) (x : Operands) (now : List Instant) : (s.accept x now).completions = s.completions := rfl
@[simp] theorem State.accept_clock (s : State) (x : Operands) (now : List Instant) : (s.accept x now).clock = { s.clock with next := now } := rfl
@[simp] theorem State.accept_events (s : State) (x : Operands) (now : List Instant) : (s.accept x now).events = s.events := rfl

end Sys2Proof.Machine
end

