-- ==== Sys2Proof/Laws/Ops.lean ====
section
/-! SUPPORT. What each shared operation can do, said once: the host clock, `need` and the fields of a
record, fetching a record, the command channel, one turn of a pass. -/

namespace Sys2Proof.Machine

/-! ### The host clock -/

/-- A sample that is given is no less than the latest, and is the latest from then on. -/
theorem HostClock.draw_eq_ok {c : HostClock} {now : Instant} {k : HostClock}
    (h : c.draw = .ok (now, k)) :
    c.last.toNat ≤ now.toNat ∧ k = ⟨now, c.next.drop 1, c.draws + 1⟩
      ∧ ∀ n, c.next.head? = some n → now = n := by
  unfold HostClock.draw at h
  split at h
  · rename_i hn
    cases h
    refine ⟨?_, by rw [hn]; rfl, by simp [hn]⟩
    unfold HostClock.freeSample
    split <;> omega
  · rename_i n rest hn
    split at h
    · cases h
    · cases h
      exact ⟨by omega, by rw [hn]; rfl, by simp [hn]⟩

/-- A sample is refused only when the host's next one is less than the latest. -/
theorem HostClock.draw_eq_error {c : HostClock} {r : Refusal} (h : c.draw = .error r) :
    r = .clockBackwards ∧ ∃ n rest, c.next = n :: rest ∧ n.toNat < c.last.toNat := by
  unfold HostClock.draw at h
  split at h
  · cases h
  · rename_i n rest hn
    split at h
    · cases h; exact ⟨rfl, n, rest, hn, ‹_›⟩
    · cases h

/-- A clock that keeps its duty gives a sample and keeps it still. -/
theorem HostClock.draw_of_monotone {c : HostClock} (h : c.monotone = true) :
    ∃ now k, c.draw = .ok (now, k) ∧ k.monotone = true := by
  simp only [HostClock.monotone, decide_eq_true_eq, List.pairwise_cons] at h
  unfold HostClock.draw
  split
  · exact ⟨_, _, rfl, by simp [HostClock.monotone]⟩
  · rename_i n rest hn
    rw [hn] at h
    rw [if_neg (by have := h.1 n (by simp); omega)]
    exact ⟨_, _, rfl, by simpa [HostClock.monotone] using h.2⟩

/-- TSS.SET inside the machine: one sample, the TR registers. -/
theorem tssSet_eq_ok {s t : State} {tick : Tick} (h : tssSet s tick = .ok t) :
    ∃ now k, s.clock.draw = .ok (now, k) ∧ t = { s with tr := s.tr.set tick now, clock := k } := by
  unfold tssSet at h
  split at h
  · cases h
  · rename_i now k hd; cases h; exact ⟨now, k, hd, rfl⟩

/-- TSS.COMPUTE inside the machine: one sample, no register. -/
theorem tssCompute_eq_ok {s t : State} {tick : Tick} {time : Instant}
    (h : tssCompute s tick = .ok (time, t)) :
    ∃ now k, s.clock.draw = .ok (now, k) ∧ time = s.tr.compute tick now
      ∧ t = { s with clock := k } := by
  unfold tssCompute at h
  split at h
  · cases h
  · rename_i now k hd; cases h; exact ⟨now, k, hd, rfl, rfl⟩

/-! ### The bus error state machine -/

theorem besProcess_eq (s : State) (flags : Byte) :
    besProcess s flags =
      ({ s with bs := (besNext s.bs (errorConditions (gateFlags s.tr.sampleCount flags))).1 },
        besEvent s.bs (besNext s.bs (errorConditions (gateFlags s.tr.sampleCount flags))).1
          (besNext s.bs (errorConditions (gateFlags s.tr.sampleCount flags))).2 flags) := rfl

@[simp] theorem besNext_busOff (c : ErrorConditions) : besNext .busOff c = (.busOff, false) := rfl

/-! ### The fields of a record -/

theorem need_eq (b : Buffer) (c : DecodeCtx) (k : Nat) :
    need b c k = if b.len < c.pc + k then .error (.framing c.recIdx c.pc) else .ok () := rfl

theorem need_of_fits {b : Buffer} {c : DecodeCtx} {k : Nat} (h : c.pc + k ≤ b.len) :
    need b c k = .ok () := if_neg (by omega)

theorem need_of_short {b : Buffer} {c : DecodeCtx} {k : Nat} (h : b.len < c.pc + k) :
    need b c k = .error (.framing c.recIdx c.pc) := if_pos h

@[simp] theorem DecodeCtx.skip_pc (c : DecodeCtx) (k : Nat) : (c.skip k).pc = c.pc + k := rfl
@[simp] theorem DecodeCtx.skip_version (c : DecodeCtx) (k : Nat) : (c.skip k).version = c.version := rfl
@[simp] theorem DecodeCtx.skip_recCount (c : DecodeCtx) (k : Nat) : (c.skip k).recCount = c.recCount := rfl
@[simp] theorem DecodeCtx.skip_recIdx (c : DecodeCtx) (k : Nat) : (c.skip k).recIdx = c.recIdx := rfl
@[simp] theorem DecodeCtx.skip_ts16 (c : DecodeCtx) (k : Nat) : (c.skip k).ts16 = c.ts16 := rfl
@[simp] theorem DecodeCtx.skip_tsIdx (c : DecodeCtx) (k : Nat) : (c.skip k).tsIdx = c.tsIdx := rfl
@[simp] theorem DecodeCtx.skip_syncSeen (c : DecodeCtx) (k : Nat) : (c.skip k).syncSeen = c.syncSeen := rfl

/-- The length of a timestamp field, present or not. -/
def tsLen (present : Bool) (c : DecodeCtx) : Nat :=
  if present then (if c.tsIdx = 0 then 2 else 1) else 0

/-- The context after a timestamp field that fits. -/
def tsStep (present : Bool) (b : Buffer) (c : DecodeCtx) : DecodeCtx :=
  if present then
    { c with
      ts16 := if c.tsIdx = 0 then BitVec.ofNat 16 (b.mem.memRead c.pc 2)
        else rollTick c.ts16 (b.mem.read c.pc)
      pc := c.pc + tsLen true c, tsIdx := c.tsIdx + 1 }
  else c

/-- `decode_ts()`: the field when it fits, else FramingError at its start. -/
theorem decodeTsIf_eq (present : Bool) (b : Buffer) (c : DecodeCtx) :
    decodeTsIf present b c = if b.len < c.pc + tsLen present c ∧ present = true
      then .error (.framing c.recIdx c.pc) else .ok (tsStep present b c) := by
  cases present
  · simp [decodeTsIf, tsStep]
  · by_cases h : c.tsIdx = 0
    · by_cases hn : b.len < c.pc + 2
      · simp [decodeTsIf, decodeTs, tsLen, h, need, hn, bind, Except.bind]
      · simp [decodeTsIf, decodeTs, tsLen, tsStep, h, need, hn, bind, Except.bind, pure, Except.pure]
    · by_cases hn : b.len < c.pc + 1
      · simp [decodeTsIf, decodeTs, tsLen, h, need, hn, bind, Except.bind]
      · simp [decodeTsIf, decodeTs, tsLen, tsStep, h, need, hn, bind, Except.bind, pure, Except.pure]

@[simp] theorem tsStep_pc (p : Bool) (b : Buffer) (c : DecodeCtx) :
    (tsStep p b c).pc = c.pc + tsLen p c := by cases p <;> rfl
@[simp] theorem tsStep_recIdx (p : Bool) (b : Buffer) (c : DecodeCtx) :
    (tsStep p b c).recIdx = c.recIdx := by cases p <;> rfl
@[simp] theorem tsStep_recCount (p : Bool) (b : Buffer) (c : DecodeCtx) :
    (tsStep p b c).recCount = c.recCount := by cases p <;> rfl
@[simp] theorem tsStep_version (p : Bool) (b : Buffer) (c : DecodeCtx) :
    (tsStep p b c).version = c.version := by cases p <;> rfl
@[simp] theorem tsStep_syncSeen (p : Bool) (b : Buffer) (c : DecodeCtx) :
    (tsStep p b c).syncSeen = c.syncSeen := by cases p <;> rfl
@[simp] theorem tsLen_skip (p : Bool) (c : DecodeCtx) (k : Nat) :
    tsLen p (c.skip k) = tsLen p c := rfl

/-- The data bytes of a data record. -/
def recordDlc (rtr : Bool) (len : BitVec 4) : Nat := if rtr then 0 else (clampDlc len).toNat

/-- The context after a data record that fits. -/
def dataStep (ext ts rtr : Bool) (len : BitVec 4) (b : Buffer) (c : DecodeCtx) : DecodeCtx :=
  (tsStep ts b (c.skip (idFieldLen ext))).skip (recordDlc rtr len)

/-- The fields of a data record that fits. -/
def dataFields (ext ts rtr : Bool) (len : BitVec 4) (b : Buffer) (c : DecodeCtx) : DataFields :=
  ⟨idOfField ext (b.mem.memRead c.pc (idFieldLen ext)), clampDlc len,
    dataAt b.mem (c.pc + idFieldLen ext + tsLen ts c) (recordDlc rtr len), ts⟩

/-- The length of a data record after its status/length byte. -/
def dataSize (ext ts rtr : Bool) (len : BitVec 4) (c : DecodeCtx) : Nat :=
  idFieldLen ext + tsLen ts c + recordDlc rtr len

/-- The parse phase of a data record that fits. -/
theorem parseData_of_fits {ext ts rtr : Bool} {len : BitVec 4} {b : Buffer} {c : DecodeCtx}
    (h : c.pc + dataSize ext ts rtr len c ≤ b.len) :
    parseData false ext ts rtr len b c
      = .ok (dataFields ext ts rtr len b c, dataStep ext ts rtr len b c) := by
  have h1 : need b c (idFieldLen ext) = .ok () :=
    need_of_fits (by unfold dataSize at h; omega)
  have h2 : decodeTsIf ts b (c.skip (idFieldLen ext)) = .ok (tsStep ts b (c.skip (idFieldLen ext))) := by
    rw [decodeTsIf_eq, if_neg]
    simp only [tsLen_skip, DecodeCtx.skip_pc, not_and]
    unfold dataSize at h; omega
  have h3 : need b (tsStep ts b (c.skip (idFieldLen ext))) (recordDlc rtr len) = .ok () :=
    need_of_fits (by
      simp only [tsStep_pc, tsLen_skip, DecodeCtx.skip_pc]
      unfold dataSize at h; omega)
  simp only [parseData, h1, Bool.or_false, h2, bind, Except.bind]
  rw [show (if rtr = true then 0 else (clampDlc len).toNat) = recordDlc rtr len from rfl, h3]
  simp [pure, Except.pure, dataFields, dataStep]

theorem firstUnfit_ge (len pc : Nat) (fields : List Nat) : pc ≤ firstUnfit len pc fields := by
  induction fields generalizing pc with
  | nil => exact le_refl _
  | cons n fields ih => unfold firstUnfit; split; exacts [le_refl _, (Nat.le_add_right ..).trans (ih _)]

theorem firstUnfit_le {len pc : Nat} (fields : List Nat) (h : pc ≤ len) :
    firstUnfit len pc fields ≤ len := by
  induction fields generalizing pc with
  | nil => exact h
  | cons n fields ih => unfold firstUnfit; split; exacts [h, ih (by omega)]

/-- The parse phase of a data record that does not fit: FramingError at the first byte of the field
that does not fit. -/
theorem parseData_of_short {ext ts rtr : Bool} {len : BitVec 4} {b : Buffer} {c : DecodeCtx}
    (h : b.len < c.pc + dataSize ext ts rtr len c) :
    parseData false ext ts rtr len b c = .error (.framing c.recIdx
      (firstUnfit b.len c.pc [idFieldLen ext, tsLen ts c, recordDlc rtr len])) := by
  by_cases h1 : b.len < c.pc + idFieldLen ext
  · simp [parseData, need_of_short h1, bind, Except.bind, firstUnfit, h1]
  have n1 := need_of_fits (Nat.le_of_not_lt h1)
  by_cases h2 : b.len < c.pc + idFieldLen ext + tsLen ts c ∧ ts = true
  · have : decodeTsIf ts b (c.skip (idFieldLen ext))
        = .error (.framing c.recIdx (c.pc + idFieldLen ext)) := by
      rw [decodeTsIf_eq, if_pos (by simpa using h2)]; rfl
    simp [parseData, n1, this, bind, Except.bind, firstUnfit, h1, h2.1]
  have n2 : decodeTsIf ts b (c.skip (idFieldLen ext)) = .ok (tsStep ts b (c.skip (idFieldLen ext))) := by
    rw [decodeTsIf_eq, if_neg (by simpa using h2)]
  have hfit : ¬ b.len < c.pc + idFieldLen ext + tsLen ts c := by
    cases ts
    · simp only [tsLen, if_false, Bool.false_eq_true]; omega
    · simpa using h2
  have h3 : b.len < c.pc + idFieldLen ext + tsLen ts c + recordDlc rtr len := by
    unfold dataSize at h; omega
  have n3 : need b (tsStep ts b (c.skip (idFieldLen ext))) (recordDlc rtr len)
      = .error (.framing c.recIdx (c.pc + idFieldLen ext + tsLen ts c)) := by
    rw [need_of_short]
    · simp
    · simpa only [tsStep_pc, tsLen_skip, DecodeCtx.skip_pc] using h3
  simp only [parseData, n1, Bool.or_false, n2, bind, Except.bind]
  rw [show (if rtr = true then 0 else (clampDlc len).toNat) = recordDlc rtr len from rfl, n3]
  simp [firstUnfit, h1, hfit, h3]

/-- The length of an internal record after its status/length byte. -/
def internalSize (f : Byte) (ts : Bool) (len : BitVec 4) (c : DecodeCtx) : Nat :=
  2 + tsLen ts c + payloadLen f len

/-- The context after an internal record that fits. -/
def internalStep (f : Byte) (ts : Bool) (len : BitVec 4) (b : Buffer) (c : DecodeCtx) : DecodeCtx :=
  (tsStep ts b (c.skip 2)).skip (payloadLen f len)

/-- The parse phase of an internal record that fits. -/
theorem parseInternal_of_fits {f : Byte} {ts : Bool} {len : BitVec 4} {b : Buffer} {c : DecodeCtx}
    (h : c.pc + internalSize f ts len c ≤ b.len) :
    parseInternal f ts len b c = .ok (b.mem.read (c.pc + 1), internalStep f ts len b c) := by
  have h1 : need b c 2 = .ok () := need_of_fits (by unfold internalSize at h; omega)
  have h2 : decodeTsIf ts b (c.skip 2) = .ok (tsStep ts b (c.skip 2)) := by
    rw [decodeTsIf_eq, if_neg]
    simp only [tsLen_skip, DecodeCtx.skip_pc, not_and]
    unfold internalSize at h; omega
  have h3 : need b (tsStep ts b (c.skip 2)) (payloadLen f len) = .ok () :=
    need_of_fits (by
      simp only [tsStep_pc, tsLen_skip, DecodeCtx.skip_pc]
      unfold internalSize at h; omega)
  simp [parseInternal, h1, h2, h3, bind, Except.bind, pure, Except.pure, internalStep]

/-- The parse phase of an internal record that does not fit: FramingError at the first byte of the
field that does not fit. -/
theorem parseInternal_of_short {f : Byte} {ts : Bool} {len : BitVec 4} {b : Buffer} {c : DecodeCtx}
    (h : b.len < c.pc + internalSize f ts len c) :
    parseInternal f ts len b c = .error (.framing c.recIdx
      (firstUnfit b.len c.pc [2, tsLen ts c, payloadLen f len])) := by
  by_cases h1 : b.len < c.pc + 2
  · simp [parseInternal, need_of_short h1, bind, Except.bind, firstUnfit, h1]
  have n1 := need_of_fits (Nat.le_of_not_lt h1)
  by_cases h2 : b.len < c.pc + 2 + tsLen ts c ∧ ts = true
  · have : decodeTsIf ts b (c.skip 2) = .error (.framing c.recIdx (c.pc + 2)) := by
      rw [decodeTsIf_eq, if_pos (by simpa using h2)]; rfl
    simp [parseInternal, n1, this, bind, Except.bind, firstUnfit, h1, h2.1]
  have n2 : decodeTsIf ts b (c.skip 2) = .ok (tsStep ts b (c.skip 2)) := by
    rw [decodeTsIf_eq, if_neg (by simpa using h2)]
  have hfit : ¬ b.len < c.pc + 2 + tsLen ts c := by
    cases ts
    · simp only [tsLen, if_false, Bool.false_eq_true]; omega
    · simpa using h2
  have h3 : b.len < c.pc + 2 + tsLen ts c + payloadLen f len := by unfold internalSize at h; omega
  have n3 : need b (tsStep ts b (c.skip 2)) (payloadLen f len)
      = .error (.framing c.recIdx (c.pc + 2 + tsLen ts c)) := by
    rw [need_of_short]
    · simp
    · simpa only [tsStep_pc, tsLen_skip, DecodeCtx.skip_pc] using h3
  simp [parseInternal, n1, n2, n3, bind, Except.bind, firstUnfit, h1, hfit, h3]

/-! ### Fetching a record -/

/-- A record whose first bytes lie in RXBUF is fetched. -/
theorem fetchRecord_of_fits {b : Buffer} {c : DecodeCtx}
    (h : c.pc + (if slInt (b.mem.read c.pc) then 3 else 1) ≤ b.len) :
    fetchRecord b c
      = .ok (decodeRecord (b.mem.read c.pc) (b.mem.read (c.pc + 1)), c.skip 1) := by
  have h1 : need b c 1 = .ok () := need_of_fits (by split at h <;> omega)
  have h2 : need b (c.skip 1) (if slInt (b.mem.read c.pc) then 2 else 0) = .ok () :=
    need_of_fits (by simp only [DecodeCtx.skip_pc]; split at h <;> simp_all)
  simp [fetchRecord, h1, h2, bind, Except.bind, pure, Except.pure]

/-- A fetch that does not fit: FramingError at the status/length byte, or at the sub-header after it. -/
theorem fetchRecord_of_short {b : Buffer} {c : DecodeCtx}
    (h : b.len < c.pc + (if slInt (b.mem.read c.pc) then 3 else 1)) :
    fetchRecord b c = .error (.framing c.recIdx
      (firstUnfit b.len c.pc [1, if slInt (b.mem.read c.pc) then 2 else 0])) := by
  by_cases h1 : b.len < c.pc + 1
  · simp [fetchRecord, need_of_short h1, bind, Except.bind, firstUnfit, h1]
  have n1 := need_of_fits (Nat.le_of_not_lt h1)
  have h2 : b.len < c.pc + 1 + (if slInt (b.mem.read c.pc) then 2 else 0) := by
    split at h <;> simp_all
  have n2 : need b (c.skip 1) (if slInt (b.mem.read c.pc) then 2 else 0)
      = .error (.framing c.recIdx (c.pc + 1)) := need_of_short h2
  simp [fetchRecord, n1, n2, bind, Except.bind, firstUnfit, h1, h2]

/-- A fetch answers the record at the cursor, or FramingError. -/
theorem fetchRecord_cases (b : Buffer) (c : DecodeCtx) :
    (c.pc + (if slInt (b.mem.read c.pc) then 3 else 1) ≤ b.len
      ∧ fetchRecord b c
        = .ok (decodeRecord (b.mem.read c.pc) (b.mem.read (c.pc + 1)), c.skip 1))
    ∨ (b.len < c.pc + (if slInt (b.mem.read c.pc) then 3 else 1)
      ∧ ∃ off, c.pc ≤ off ∧ (c.pc ≤ b.len → off ≤ b.len)
        ∧ fetchRecord b c = .error (.framing c.recIdx off)) := by
  by_cases h : c.pc + (if slInt (b.mem.read c.pc) then 3 else 1) ≤ b.len
  · exact .inl ⟨h, fetchRecord_of_fits h⟩
  · exact .inr ⟨by omega, _, firstUnfit_ge .., firstUnfit_le _, fetchRecord_of_short (by omega)⟩

/-! ### Transmit slots -/

/-- The TXBUF check is the comparison with TX_CAP, which is at least 16. -/
theorem exceedsTxCap_iff (n : Nat) : exceedsTxCap n = true ↔ Config.txCap < n := by
  have h : 16 ≤ Config.txCap := Nat.le_add_left ..
  simp only [exceedsTxCap, Bool.and_eq_true, decide_eq_true_eq]
  omega

/-- A frame of at most 8 data bytes always fits a TXBUF. -/
theorem exceedsTxCap_txLen {f : Frame} (h : f.dlc.toNat ≤ 8) : exceedsTxCap (txLen f) = false := by
  have h16 : txLen f ≤ 16 := by unfold txLen; split <;> split <;> omega
  simp only [exceedsTxCap, decide_eq_false (Nat.not_lt.2 h16), Bool.false_and]

theorem isSlot_iff (k : Nat) : isSlot k = true ↔ k < Config.txSlots := by
  have h : 1 ≤ Config.txSlots := Nat.le_add_left ..
  simp only [isSlot, Bool.or_eq_true, beq_iff_eq, decide_eq_true_eq]
  omega

theorem State.poolFull_iff (s : State) :
    s.poolFull = true ↔ Config.txSlots ≤ s.txInFlight.length := by
  cases h : s.txInFlight <;> simp [State.poolFull, h, Config.txSlots]

theorem Event.presentsEncode_iff (e : Event) :
    e.presentsEncode = true ↔ ∃ x now, e.action = .present 0x0B#5 x now := by
  obtain ⟨a, d⟩ := e
  cases a <;> simp [Event.presentsEncode]

/-- An event that is no ENC.FRAME, or meets a pool with a free slot, is next. -/
theorem nextEvent_head {full : Bool} {e : Event} {rest : List Event}
    (h : (e.presentsEncode && full) = false) : nextEvent full (e :: rest) = some (e, rest) := by
  simp [nextEvent, h]

/-- With a full pool the first event that is no ENC.FRAME is next; the waiting ones stay in front. -/
theorem nextEvent_skip {waiting rest : List Event} {a : Event}
    (hw : ∀ e ∈ waiting, e.presentsEncode = true) (ha : a.presentsEncode = false) :
    nextEvent true (waiting ++ a :: rest) = some (a, waiting ++ rest) := by
  induction waiting with
  | nil => exact nextEvent_head (by simp [ha])
  | cons e waiting ih =>
    simp [nextEvent, hw e (by simp), ih fun x hx => hw x (by simp [hx])]

/-- No event is next only when every event is an ENC.FRAME that waits, or there is none. -/
theorem nextEvent_eq_none {full : Bool} {l : List Event} :
    nextEvent full l = none ↔ ∀ e ∈ l, (e.presentsEncode && full) = true := by
  induction l with
  | nil => simp [nextEvent]
  | cons e l ih =>
    rw [List.forall_mem_cons, ← ih, nextEvent]
    by_cases h : (e.presentsEncode && full) = true
    · rw [if_pos h]
      cases nextEvent full l <;> simp [h]
    · rw [if_neg h]
      exact ⟨nofun, fun h' => absurd h'.1 h⟩

/-! ### The command channel -/

theorem sendStep_of_unconnected {s : State} (h : s.port.connected = false) :
    sendStep s = (s, .error .notConnected) := by simp [sendStep, h]

theorem sendStep_of_connected {s : State} (h : s.port.connected = true) :
    sendStep s = (s.call (.send s.cmdBytes), match s.port.sendAns with
      | .ok => .ok ()
      | .timeout => .error .timeout
      | .err e => .error (.transportError e)) := by
  cases hs : s.port.sendAns <;> simp [sendStep, h, hs]

/-- What a send may change: the record of calls. -/
theorem sendStep_fst (s : State) : ∃ calls, (sendStep s).1 = { s with calls := calls } := by
  unfold sendStep; split
  · exact ⟨_, rfl⟩
  · exact ⟨s.calls, rfl⟩

/-- What a receive may change: the record of calls, and RPLBUF. -/
theorem receiveStep_fst (s : State) :
    ∃ calls rpl, (receiveStep s).1 = { s with calls := calls, rplbuf := rpl }
      ∧ (rpl = s.rplbuf ∨ ∃ bs, rpl = Buffer.ofBytes bs) := by
  unfold receiveStep; split
  · exact ⟨_, s.rplbuf, rfl, .inl rfl⟩
  · exact ⟨_, s.rplbuf, rfl, .inl rfl⟩
  · exact ⟨_, _, rfl, .inr ⟨_, rfl⟩⟩

/-- What a send and a receive may change: the record of calls, and RPLBUF. -/
theorem sendAwait_fst (s : State) :
    ∃ calls rpl, (sendAwait s).1 = { s with calls := calls, rplbuf := rpl }
      ∧ (rpl = s.rplbuf ∨ ∃ bs, rpl = Buffer.ofBytes bs) := by
  obtain ⟨calls, hc⟩ := sendStep_fst s
  unfold sendAwait
  split
  · rename_i t hs
    have : t = { s with calls := calls } := by rw [← hc, hs]
    subst this
    obtain ⟨c2, rpl, h1, h2⟩ := receiveStep_fst { s with calls := calls }
    exact ⟨c2, rpl, h1, h2⟩
  · rename_i t f hs
    have : t = { s with calls := calls } := by rw [← hc, hs]
    subst this
    exact ⟨calls, s.rplbuf, rfl, .inl rfl⟩

/-- Returning what a command came to changes the outcome port alone. -/
theorem State.conclude_eq {α : Type} (s : State) (g : α → Result) (r : Except OpFault α) :
    s.conclude g r = { s with outcome := some (match r with
      | .ok a => .ok (g a)
      | .error f => .fault f) } := by cases r <;> rfl

theorem concludeCommand_eq {α : Type} (p : State × Except OpFault α) (g : α → Result) :
    concludeCommand p g = { p.1 with outcome := some (match p.2 with
      | .ok a => .ok (g a)
      | .error f => .fault f) } := State.conclude_eq ..

/-! ### Records and passes -/

/-- What no record changes: everything but TR, BS.state, the decode context, the clock, the items and
the outcome. -/
structure State.SameOutsidePass (s t : State) : Prop where
  txSeq : t.txSeq = s.txSeq
  rxbuf : t.rxbuf = s.rxbuf
  rplbuf : t.rplbuf = s.rplbuf
  cmdbuf : t.cmdbuf = s.cmdbuf
  txbufs : t.txbufs = s.txbufs
  cmdOutstanding : t.cmdOutstanding = s.cmdOutstanding
  txInFlight : t.txInFlight = s.txInFlight
  asyncInFlight : t.asyncInFlight = s.asyncInFlight
  port : t.port = s.port
  calls : t.calls = s.calls
  completions : t.completions = s.completions
  events : t.events = s.events

theorem State.SameOutsidePass.refl (s : State) : s.SameOutsidePass s := by constructor <;> rfl

theorem State.SameOutsidePass.trans {s t u : State} (h1 : s.SameOutsidePass t)
    (h2 : t.SameOutsidePass u) : s.SameOutsidePass u := by
  obtain ⟨⟩ := h1; obtain ⟨⟩ := h2; constructor <;> simp_all

/-- Changing what a pass may change changes nothing else. -/
theorem State.SameOutsidePass.of_eq (s : State) (tr : TimeRef) (bs : BusErrorState)
    (dc : Option DecodeCtx) (clock : HostClock) (items : List Item) (outcome : Option OpOutcome) :
    s.SameOutsidePass { s with tr, bs, dc, clock, items, outcome } := by
  constructor <;> rfl

/-- A data record: it faults with FramingError and nothing else, or emits its frame with the cursor
past it, reading the clock if it is timestamped. -/
theorem runData_cases {ext ts rtr : Bool} {len : BitVec 4} {s : State} {c : DecodeCtx}
    (hdc : s.dc = some c) :
    (s.rxbuf.len < c.pc + dataSize ext ts rtr len c
      ∧ runData false ext ts rtr len s = .next (s.abortPass (.framing c.recIdx
        (firstUnfit s.rxbuf.len c.pc [idFieldLen ext, tsLen ts c, recordDlc rtr len]))))
    ∨ (c.pc + dataSize ext ts rtr len c ≤ s.rxbuf.len
      ∧ runData false ext ts rtr len s
        = dataEffect ext rtr (dataFields ext ts rtr len s.rxbuf c)
            (dataStep ext ts rtr len s.rxbuf c).ts16
            { s with dc := some (dataStep ext ts rtr len s.rxbuf c) }) := by
  by_cases h : c.pc + dataSize ext ts rtr len c ≤ s.rxbuf.len
  · exact .inr ⟨h, by simp [runData, hdc, parseData_of_fits h]⟩
  · exact .inl ⟨by omega, by simp [runData, hdc, parseData_of_short (Nat.lt_of_not_le h)]⟩

/-- An internal record: it faults with FramingError and nothing else, or its effect runs with the
cursor past it. -/
theorem runInternal_cases {f : Byte} {ts : Bool} {len : BitVec 4}
    {effect : Byte → DecodeCtx → State → Answer} {s : State} {c : DecodeCtx} (hdc : s.dc = some c) :
    (s.rxbuf.len < c.pc + internalSize f ts len c
      ∧ runInternal f ts len effect s = .next (s.abortPass (.framing c.recIdx
        (firstUnfit s.rxbuf.len c.pc [2, tsLen ts c, payloadLen f len]))))
    ∨ (c.pc + internalSize f ts len c ≤ s.rxbuf.len
      ∧ runInternal f ts len effect s
        = effect (s.rxbuf.mem.read (c.pc + 1)) (internalStep f ts len s.rxbuf c)
            { s with dc := some (internalStep f ts len s.rxbuf c) }) := by
  by_cases h : c.pc + internalSize f ts len c ≤ s.rxbuf.len
  · exact .inr ⟨h, by simp [runInternal, hdc, parseInternal_of_fits h]⟩
  · exact .inl ⟨by omega, by simp [runInternal, hdc, parseInternal_of_short (Nat.lt_of_not_le h)]⟩

/-- What a record that runs may change: TR by one TSS operation, BS.state by one BES.PROCESS, the clock
by one sample, the items by items at their end, the cursor. -/
structure State.RecordEffect (s t : State) (c c' : DecodeCtx) : Prop where
  outside : s.SameOutsidePass t
  outcome : t.outcome = s.outcome
  dc : t.dc = some c'
  tr : t.tr = s.tr ∨ ∃ tick, t.tr = s.tr.accumulate tick ∨ ∃ now, t.tr = s.tr.set tick now
  bs : t.bs = s.bs ∨ ∃ flags, t.bs = (besProcess s flags).1.bs
  clock : t.clock = s.clock ∨ ∃ now, s.clock.draw = .ok (now, t.clock)
  items : ∃ l, t.items = s.items ++ l
  version : c'.version = c.version
  recCount : c'.recCount = c.recCount
  recIdx : c'.recIdx = c.recIdx
  pc_ge : c.pc ≤ c'.pc
  pc_le : c'.pc ≤ s.rxbuf.len

/-- The three things a record can come to in a pass. -/
def State.RecordCases (s : State) (c : DecodeCtx) (a : Answer) : Prop :=
  (∃ off, c.pc ≤ off ∧ (c.pc ≤ s.rxbuf.len → off ≤ s.rxbuf.len)
      ∧ a = .next (s.abortPass (.framing c.recIdx off)))
    ∨ (∃ t c', a = .next t ∧ s.RecordEffect t c c')
    ∨ (a = .refused .clockBackwards ∧ s.clock.draw = .error .clockBackwards)

theorem runData_recordCases {ext ts rtr : Bool} {len : BitVec 4} {s : State} {c : DecodeCtx}
    (hdc : s.dc = some c) : s.RecordCases c (runData false ext ts rtr len s) := by
  rcases runData_cases (ext := ext) (ts := ts) (rtr := rtr) (len := len) hdc with
    ⟨-, h⟩ | ⟨hf, h⟩
  · exact .inl ⟨_, firstUnfit_ge .., firstUnfit_le _, h⟩
  · have hpc : (dataStep ext ts rtr len s.rxbuf c).pc = c.pc + dataSize ext ts rtr len c := by
      simp [dataStep, dataSize]; omega
    rw [h]
    unfold dataEffect
    split
    · cases hc : tssCompute { s with dc := some (dataStep ext ts rtr len s.rxbuf c) }
          (dataStep ext ts rtr len s.rxbuf c).ts16 with
      | error r =>
        unfold tssCompute at hc
        split at hc
        · rename_i hd
          cases hc
          obtain ⟨rfl, -⟩ := HostClock.draw_eq_error hd
          exact .inr (.inr ⟨rfl, hd⟩)
        · cases hc
      | ok p =>
        obtain ⟨time, t⟩ := p
        obtain ⟨now, k, hd, rfl, rfl⟩ := tssCompute_eq_ok hc
        refine .inr (.inl ⟨_, dataStep ext ts rtr len s.rxbuf c, rfl, ?_⟩)
        constructor
        · exact .of_eq s ..
        · rfl
        · rfl
        · exact .inl rfl
        · exact .inl rfl
        · exact .inr ⟨now, hd⟩
        · exact ⟨_, rfl⟩
        · simp [dataStep]
        · simp [dataStep]
        · simp [dataStep]
        · omega
        · omega
    · refine .inr (.inl ⟨_, dataStep ext ts rtr len s.rxbuf c, rfl, ?_⟩)
      constructor
      · exact .of_eq s ..
      · rfl
      · rfl
      · exact .inl rfl
      · exact .inl rfl
      · exact .inl rfl
      · exact ⟨_, rfl⟩
      · simp [dataStep]
      · simp [dataStep]
      · simp [dataStep]
      · omega
      · omega

theorem runInternal_recordCases {f : Byte} {ts : Bool} {len : BitVec 4}
    {effect : Byte → DecodeCtx → State → Answer} {s : State} {c : DecodeCtx} (hdc : s.dc = some c)
    (he : ∀ n c', c'.version = c.version → c'.recCount = c.recCount → c'.recIdx = c.recIdx →
      c.pc ≤ c'.pc → c'.pc ≤ s.rxbuf.len →
      s.RecordCases c (effect n c' { s with dc := some c' })) :
    s.RecordCases c (runInternal f ts len effect s) := by
  rcases runInternal_cases (f := f) (ts := ts) (len := len) (effect := effect) hdc with
    ⟨-, h⟩ | ⟨hf, h⟩
  · exact .inl ⟨_, firstUnfit_ge .., firstUnfit_le _, h⟩
  · have hpc : (internalStep f ts len s.rxbuf c).pc = c.pc + internalSize f ts len c := by
      simp [internalStep, internalSize]; omega
    rw [h]
    exact he _ _ (by simp [internalStep]) (by simp [internalStep]) (by simp [internalStep])
      (by omega) (by omega)

theorem skipEffect_recordCases {s : State} {c c' : DecodeCtx} (n : Byte)
    (hv : c'.version = c.version) (hr : c'.recCount = c.recCount) (hi : c'.recIdx = c.recIdx)
    (h1 : c.pc ≤ c'.pc) (h2 : c'.pc ≤ s.rxbuf.len) :
    s.RecordCases c (skipEffect n c' { s with dc := some c' }) := by
  refine .inr (.inl ⟨_, c', rfl, ?_⟩)
  constructor
  · exact .of_eq s ..
  · rfl
  · rfl
  · exact .inl rfl
  · exact .inl rfl
  · exact .inl rfl
  · exact ⟨[], (List.append_nil _).symm⟩
  all_goals assumption

theorem errorEffect_recordCases {s : State} {c c' : DecodeCtx} (n : Byte)
    (hv : c'.version = c.version) (hr : c'.recCount = c.recCount) (hi : c'.recIdx = c.recIdx)
    (h1 : c.pc ≤ c'.pc) (h2 : c'.pc ≤ s.rxbuf.len) :
    s.RecordCases c (errorEffect n c' { s with dc := some c' }) := by
  unfold errorEffect
  rw [besProcess_eq]
  cases besEvent s.bs (besNext s.bs (errorConditions (gateFlags s.tr.sampleCount n))).1
      (besNext s.bs (errorConditions (gateFlags s.tr.sampleCount n))).2 n with
  | none =>
    refine .inr (.inl ⟨_, c', rfl, ?_⟩)
    constructor
    · exact .of_eq s ..
    · rfl
    · rfl
    · exact .inl rfl
    · exact .inr ⟨n, rfl⟩
    · exact .inl rfl
    · exact ⟨[], (List.append_nil _).symm⟩
    all_goals assumption
  | some e =>
    refine .inr (.inl ⟨_, c', rfl, ?_⟩)
    constructor
    · exact .of_eq s ..
    · rfl
    · rfl
    · exact .inl rfl
    · exact .inr ⟨n, rfl⟩
    · exact .inl rfl
    · exact ⟨_, rfl⟩
    all_goals assumption

theorem tsEffect_recordCases {s : State} {c c' : DecodeCtx} (ts : Bool) (n : Byte)
    (hv : c'.version = c.version) (hr : c'.recCount = c.recCount) (hi : c'.recIdx = c.recIdx)
    (h1 : c.pc ≤ c'.pc) (h2 : c'.pc ≤ s.rxbuf.len) :
    s.RecordCases c (tsEffect ts n c' { s with dc := some c' }) := by
  unfold tsEffect
  split
  · exact skipEffect_recordCases n hv hr hi h1 h2
  split
  · refine .inr (.inl ⟨_, { c' with syncSeen := true }, rfl, ?_⟩)
    constructor
    · exact .of_eq s ..
    · rfl
    · rfl
    · exact .inr ⟨c'.ts16, .inl rfl⟩
    · exact .inl rfl
    · exact .inl rfl
    · exact ⟨_, rfl⟩
    all_goals assumption
  · cases hc : tssSet { s with dc := some c' } c'.ts16 with
    | error r =>
      unfold tssSet at hc
      split at hc
      · rename_i hd
        cases hc
        obtain ⟨rfl, -⟩ := HostClock.draw_eq_error hd
        exact .inr (.inr ⟨rfl, hd⟩)
      · cases hc
    | ok t =>
      obtain ⟨now, k, hd, rfl⟩ := tssSet_eq_ok hc
      refine .inr (.inl ⟨_, { c' with syncSeen := true }, rfl, ?_⟩)
      constructor
      · exact .of_eq s ..
      · rfl
      · rfl
      · exact .inr ⟨c'.ts16, .inr ⟨now, rfl⟩⟩
      · exact .inl rfl
      · exact .inr ⟨now, hd⟩
      · exact ⟨_, rfl⟩
      all_goals assumption

/-- Every record in an open pass comes to one of the three. -/
theorem exec_recordCases {i : Instr} {s : State} {c : DecodeCtx} (hi : i.space = .record)
    (hdc : s.dc = some c) : s.RecordCases c (exec i s) := by
  cases i <;> first
    | exact runData_recordCases hdc
    | exact runInternal_recordCases hdc fun n c' => errorEffect_recordCases n
    | exact runInternal_recordCases hdc fun n c' => tsEffect_recordCases _ n
    | exact runInternal_recordCases hdc fun n c' => skipEffect_recordCases n
    | cases hi

theorem space_decodeRecord (sl f : Byte) : (decodeRecord sl f).space = .record := by
  unfold decodeRecord decodeInternal
  repeat' split
  all_goals rfl

/-- A record inside a pass means what it means as an instruction. -/
theorem execRecord_decodeRecord (sl f : Byte) (s : State) :
    execRecord (decodeRecord sl f) s = exec (decodeRecord sl f) s := by
  unfold decodeRecord decodeInternal
  repeat' split
  all_goals rfl

/-- One turn is the same whichever of the two runs the record. -/
theorem recordTurn_exec (s : State) : recordTurn exec s = recordTurn execRecord s := by
  unfold recordTurn
  split
  · rfl
  · rename_i c hdc
    rcases fetchRecord_cases s.rxbuf c with ⟨-, h⟩ | ⟨-, off, -, -, h⟩ <;> simp only [h]
    rw [execRecord_decodeRecord]

/-- What a turn comes to: the pass ends with FramingError, a record has run and the index advances (or
the pass ends), or the clock ran backwards. -/
theorem recordTurn_cases {s : State} {c : DecodeCtx} (hdc : s.dc = some c) :
    (∃ off, c.pc ≤ off ∧ (c.pc ≤ s.rxbuf.len → off ≤ s.rxbuf.len)
        ∧ recordTurn execRecord s = .next (s.abortPass (.framing c.recIdx off)))
      ∨ (∃ t c', recordTurn execRecord s = .next (t.nextRecord { c' with recIdx := c.recIdx + 1 })
          ∧ s.RecordEffect t c c')
      ∨ (recordTurn execRecord s = .refused .clockBackwards
          ∧ s.clock.draw = .error .clockBackwards) := by
  unfold recordTurn
  rw [hdc]
  rcases fetchRecord_cases s.rxbuf c with ⟨hfit, h⟩ | ⟨-, off, h1, h2, h⟩
  · simp only [h]
    rw [execRecord_decodeRecord]
    rcases exec_recordCases (i := decodeRecord (s.rxbuf.mem.read c.pc) (s.rxbuf.mem.read (c.pc + 1)))
      (s := { s with dc := some (c.skip 1) }) (c := c.skip 1) (space_decodeRecord _ _) rfl with
      ⟨off, h1, h2, he⟩ | ⟨t, c', he, hr⟩ | ⟨he, hd⟩
    · left
      rw [he]
      have hc : (c.skip 1).pc ≤ s.rxbuf.len := by
        simp only [DecodeCtx.skip_pc]; split at hfit <;> omega
      exact ⟨off, by simp only [DecodeCtx.skip_pc] at h1; omega, fun _ => h2 hc, rfl⟩
    · right; left
      rw [he]
      refine ⟨t, c', ?_, ?_⟩
      · simp only [State.advance, hr.dc]
        rw [hr.recIdx]; rfl
      · exact ⟨⟨hr.outside.txSeq, hr.outside.rxbuf, hr.outside.rplbuf, hr.outside.cmdbuf,
          hr.outside.txbufs, hr.outside.cmdOutstanding, hr.outside.txInFlight,
          hr.outside.asyncInFlight, hr.outside.port, hr.outside.calls, hr.outside.completions,
          hr.outside.events⟩, hr.outcome, hr.dc, hr.tr, hr.bs, hr.clock, hr.items, hr.version,
          hr.recCount, hr.recIdx, by have := hr.pc_ge; simp only [DecodeCtx.skip_pc] at this; omega,
          hr.pc_le⟩
    · right; right
      rw [he]
      exact ⟨rfl, hd⟩
  · left
    exact ⟨off, h1, h2, by simp only [h]⟩

/-- What every turn keeps, a pass keeps. -/
theorem runPass_keeps {run : Instr → State → Answer} {P : State → Prop}
    (hP : ∀ s t, P s → s.dc ≠ none → recordTurn run s = .next t → P t) {n : Nat} {s t : State}
    (h : runPass run n s = .next t) (hs : P s) : P t := by
  induction n generalizing s with
  | zero => cases h; exact hs
  | succ n ih =>
    unfold runPass at h
    split at h
    · cases h; exact hs
    · rename_i c hdc
      split at h
      · rename_i u hu
        exact ih h (hP s u hs (by rw [hdc]; exact Option.some_ne_none c) hu)
      · cases h
      · cases h

/-- `nextRecord` with records left opens the next one. -/
theorem State.nextRecord_of_lt {s : State} {c : DecodeCtx} (h : c.recIdx < c.recCount.toNat) :
    s.nextRecord c = { s with dc := some c } := if_pos h

/-- `nextRecord` with none left ends the pass. -/
theorem State.nextRecord_of_le {s : State} {c : DecodeCtx} (h : c.recCount.toNat ≤ c.recIdx) :
    s.nextRecord c = s.closePass c := if_neg (by omega)

/-- A pass that is over stays as it is. -/
theorem runPass_of_closed {run : Instr → State → Answer} {n : Nat} {s : State} (h : s.dc = none) :
    runPass run n s = .next s := by
  cases n with
  | zero => rfl
  | succ n => unfold runPass; rw [h]

/-- One more turn of an open pass. -/
theorem runPass_succ {run : Instr → State → Answer} {n : Nat} {s : State} {c : DecodeCtx}
    (h : s.dc = some c) : runPass run (n + 1) s = match recordTurn run s with
      | .next t => runPass run n t
      | .fault f => .fault f
      | .refused r => .refused r := by
  cases hr : recordTurn run s <;> simp [runPass, h, hr]

/-- A turn stops with no fault. -/
theorem recordTurn_ne_fault (s : State) (f : Fault) : recordTurn execRecord s ≠ .fault f := by
  cases hdc : s.dc with
  | none => simp [recordTurn, hdc]
  | some c =>
    rcases recordTurn_cases hdc with ⟨_, -, -, h⟩ | ⟨_, _, h, -⟩ | ⟨h, -⟩ <;> simp [h]

/-- A pass stops with no fault. -/
theorem runPass_ne_fault (n : Nat) (s : State) (f : Fault) : runPass execRecord n s ≠ .fault f := by
  induction n generalizing s with
  | zero => simp [runPass]
  | succ n ih =>
    cases hdc : s.dc with
    | none => simp [runPass_of_closed hdc]
    | some c =>
      rw [runPass_succ hdc]
      cases h : recordTurn execRecord s with
      | next t => exact ih t
      | fault g => exact absurd h (recordTurn_ne_fault s g)
      | refused r => simp

/-- No instruction stops the machine with a fault: the faults of R200 are outcomes (R206, R208). -/
theorem exec_ne_fault (i : Instr) (s : State) (f : Fault) : exec i s ≠ .fault f := by
  by_cases hi : i.space = .record
  · cases hdc : s.dc with
    | none => cases i <;> first
        | (cases hi; done)
        | simp [exec, execRecDataStd, execRecDataExt, execRecIntError, execRecIntAnalog,
            execRecIntBusload, execRecIntTs, execRecIntBusevt, execRecIntUnknown, runData,
            runInternal, hdc]
    | some c =>
      rcases exec_recordCases hi hdc with ⟨_, -, -, h⟩ | ⟨_, _, h, -⟩ | ⟨h, -⟩ <;> simp [h]
  · cases i
    case encFrame =>
      simp only [exec, execEncFrame]
      repeat' split
      all_goals simp
    case tssSet => simp only [exec, execTssSet]; split <;> simp
    case tssCompute => simp only [exec, execTssCompute]; split <;> simp
    case cmdSendAsync => simp only [exec, execCmdSendAsync]; split <;> simp
    case decMessage =>
      simp only [exec, execDecMessage]
      split
      · simp
      split
      · simp
      · exact runPass_ne_fault _ _ _
    all_goals first | exact absurd rfl hi | nofun

/-! ### Steps between operations -/

/-- With nothing open, the step is the next event's. -/
theorem step_of_nextEvent {s : State} {e : Event} {rest : List Event} (hdc : s.dc = none)
    (hc : s.cmdOutstanding = false) (h : nextEvent s.poolFull s.events = some (e, rest)) :
    step s = takeEvent { s with events := rest } e := by
  simp [step, hdc, hc, eventTurn, h]

/-- An event at the head that does not wait for a transmit slot is the next one. -/
theorem step_of_head {s : State} {e : Event} {rest : List Event} (hdc : s.dc = none)
    (hc : s.cmdOutstanding = false) (h : s.events = e :: rest)
    (hw : (e.presentsEncode && s.poolFull) = false) :
    step s = takeEvent { s with events := rest } e :=
  step_of_nextEvent hdc hc (h ▸ nextEvent_head hw)

end Sys2Proof.Machine
end

