-- ==== Sys2Proof/Laws/PerInstr.lean ====
section
/-! SUPPORT. The per-instruction family: how many bytes the pattern of each instruction covers. -/

namespace Sys2Proof.Laws

/-- An instruction's pattern covers one byte on the operation port, two in a command frame, and in a
message one or two as bit 6 of its status/length byte says (30_encoding.md R63, R74, R81, R85). -/
def EncodeWidth.Statement (i : Instr) : Prop :=
  (encode i).length = match i.space with
    | .op => 1
    | .record => if slInt ((encode i).headD 0#8) then 2 else 1
    | .command => 2

/-- Bit 6 of the status/length byte of a data record is clear. -/
theorem slInt_encodeDataSl : ∀ (ts ext rtr : Bool) (len : BitVec 4),
    slInt (encodeDataSl ts ext rtr len) = false := by decide

/-- Bit 6 of the status/length byte of an internal record is set. -/
theorem slInt_encodeIntSl : ∀ (ts : Bool) (ign : BitVec 2) (len : BitVec 4),
    slInt (encodeIntSl ts ign len) = true := by decide

theorem EncodeWidth.sessionReset : EncodeWidth.Statement .sessionReset := rfl
theorem EncodeWidth.cmdBuild : EncodeWidth.Statement .cmdBuild := rfl
theorem EncodeWidth.cmdParse : EncodeWidth.Statement .cmdParse := rfl
theorem EncodeWidth.cmdBtr : EncodeWidth.Statement .cmdBtr := rfl
theorem EncodeWidth.cmdPreset : EncodeWidth.Statement .cmdPreset := rfl
theorem EncodeWidth.cmdSetbtr : EncodeWidth.Statement .cmdSetbtr := rfl
theorem EncodeWidth.cmdGetsn : EncodeWidth.Statement .cmdGetsn := rfl
theorem EncodeWidth.cmdGetdevid : EncodeWidth.Statement .cmdGetdevid := rfl
theorem EncodeWidth.cmdSendSync : EncodeWidth.Statement .cmdSendSync := rfl
theorem EncodeWidth.cmdSendAwait : EncodeWidth.Statement .cmdSendAwait := rfl
theorem EncodeWidth.cmdSendAsync : EncodeWidth.Statement .cmdSendAsync := rfl
theorem EncodeWidth.encFrame : EncodeWidth.Statement .encFrame := rfl
theorem EncodeWidth.decMessage : EncodeWidth.Statement .decMessage := rfl
theorem EncodeWidth.tssSet : EncodeWidth.Statement .tssSet := rfl
theorem EncodeWidth.tssUpdate : EncodeWidth.Statement .tssUpdate := rfl
theorem EncodeWidth.tssCompute : EncodeWidth.Statement .tssCompute := rfl
theorem EncodeWidth.besProcess : EncodeWidth.Statement .besProcess := rfl
theorem EncodeWidth.recDataStd (ts : Bool) (rtr : Bool) (len : BitVec 4) : EncodeWidth.Statement (.recDataStd ts rtr len) := by
  simp [EncodeWidth.Statement, encode, Instr.space, slInt_encodeDataSl]
theorem EncodeWidth.recDataExt (ts : Bool) (rtr : Bool) (len : BitVec 4) : EncodeWidth.Statement (.recDataExt ts rtr len) := by
  simp [EncodeWidth.Statement, encode, Instr.space, slInt_encodeDataSl]
theorem EncodeWidth.recIntError (ts : Bool) (ign : BitVec 2) (len : BitVec 4) : EncodeWidth.Statement (.recIntError ts ign len) := by
  simp [EncodeWidth.Statement, encode, Instr.space, slInt_encodeIntSl]
theorem EncodeWidth.recIntAnalog (ts : Bool) (ign : BitVec 2) (len : BitVec 4) : EncodeWidth.Statement (.recIntAnalog ts ign len) := by
  simp [EncodeWidth.Statement, encode, Instr.space, slInt_encodeIntSl]
theorem EncodeWidth.recIntBusload (ts : Bool) (ign : BitVec 2) (len : BitVec 4) : EncodeWidth.Statement (.recIntBusload ts ign len) := by
  simp [EncodeWidth.Statement, encode, Instr.space, slInt_encodeIntSl]
theorem EncodeWidth.recIntTs (ts : Bool) (ign : BitVec 2) (len : BitVec 4) : EncodeWidth.Statement (.recIntTs ts ign len) := by
  simp [EncodeWidth.Statement, encode, Instr.space, slInt_encodeIntSl]
theorem EncodeWidth.recIntBusevt (ts : Bool) (ign : BitVec 2) (len : BitVec 4) : EncodeWidth.Statement (.recIntBusevt ts ign len) := by
  simp [EncodeWidth.Statement, encode, Instr.space, slInt_encodeIntSl]
theorem EncodeWidth.recIntUnknown (f : Byte) (ts : Bool) (ign : BitVec 2) (len : BitVec 4) : EncodeWidth.Statement (.recIntUnknown f ts ign len) := by
  simp [EncodeWidth.Statement, encode, Instr.space, slInt_encodeIntSl]
theorem EncodeWidth.devcmdSetBitrate : EncodeWidth.Statement .devcmdSetBitrate := rfl
theorem EncodeWidth.devcmdGetSerial : EncodeWidth.Statement .devcmdGetSerial := rfl
theorem EncodeWidth.devcmdGetDevid : EncodeWidth.Statement .devcmdGetDevid := rfl

end Sys2Proof.Laws
end

