-- ==== Sys2Proof/Laws/Values.lean ====
section
/-! SUPPORT. What the value functions of the model compute, in naturals: record fields, the time
reference, the command frame, the encoded message. -/

namespace Sys2Proof.Machine

/-! ### Record fields -/

/-- `n` bytes assemble a number below `256 ^ n`. -/
theorem Memory.memRead_lt (m : Memory) (a n : Nat) : m.memRead a n < 256 ^ n := by
  induction n generalizing a with
  | zero => simp [Memory.memRead]
  | succ n ih =>
    have := ih (a + 1)
    have := (m.read a).isLt
    simp only [Memory.memRead, pow_succ]
    omega

theorem clampDlc_toNat : ∀ l : BitVec 4, (clampDlc l).toNat = min l.toNat 8 := by decide

theorem dataAt_getElem (m : Memory) (a n : Nat) (i : Fin 8) :
    (dataAt m a n)[i] = if i.val < n then m.read (a + i.val) else 0#8 := by
  fin_cases i <;> rfl

/-- The rolling counter after a one-byte timestamp, in naturals. -/
theorem rollTick_toNat (t : Tick) (b : Byte) :
    (rollTick t b).toNat
      = ((if b.toNat < t.toNat % 256 then t.toNat / 256 + 1 else t.toNat / 256) % 256) * 256
        + b.toNat := by
  have hb := b.isLt
  have ht := t.isLt
  have low : (t.extractLsb' 0 8).toNat = t.toNat % 256 := by simp [BitVec.extractLsb'_toNat]
  have key : ∀ x : Tick, (x.extractLsb' 8 8 ++ b).toNat = (x.toNat / 256) * 256 + b.toNat := by
    intro x
    have hx := x.isLt
    rw [BitVec.toNat_append, BitVec.extractLsb'_toNat, ← Nat.shiftLeft_add_eq_or_of_lt (by omega)]
    simp only [Nat.shiftLeft_eq, Nat.shiftRight_eq_div_pow]
    omega
  unfold rollTick
  simp only [low, key]
  split
  · rw [BitVec.toNat_add]
    simp only [BitVec.toNat_ofNat]
    omega
  · omega

/-! ### The time reference -/

theorem TimeRef.delta_toNat (tr : TimeRef) (tick : Tick) :
    (tr.delta tick).toNat = (tick.toNat + 65536 - tr.devTickLast.toNat) % 65536 := by
  have h := tr.devTickLast.isLt
  unfold TimeRef.delta
  rw [BitVec.toNat_sub]
  congr 1
  omega

theorem TimeRef.rebaseDue_iff (tr : TimeRef) (now : Instant) :
    tr.rebaseDue now = true ↔ tr.hostEpoch0.toNat + 4200000000 < now.toNat := by
  unfold TimeRef.rebaseDue
  rw [decide_eq_true_eq, Config.rebaseUs]

theorem nextSampleCount_toNat (n : BitVec 32) :
    (nextSampleCount n).toNat = min (n.toNat + 1) (2 ^ 32 - 1) := by
  have := n.isLt
  unfold nextSampleCount
  rw [BitVec.toNat_ofNat]
  omega

/-! ### The command frame -/

theorem frameArgs_length (args : List Byte) : (frameArgs args).length = 14 := by
  simp [frameArgs, Config.cmdArgs]

theorem buildFrame_wf (f n : Byte) (args : List Byte) : (buildFrame f n args).wf = true := by
  unfold buildFrame
  exact Memory.writeBytes_wf _ _ (Memory.memWrite_wf _ _ _ (Memory.memWrite_wf _ _ _ Memory.wf_nil))

/-- Every byte of a built frame. -/
theorem buildFrame_read (f n : Byte) (args : List Byte) (k : Nat) :
    (buildFrame f n args).read k = if k = 0 then f else if k = 1 then n
      else if k < 16 then args.getD (k - 2) 0#8 else 0#8 := by
  have w1 := Memory.memWrite_wf 0 1 f.toNat Memory.wf_nil
  have w2 := Memory.memWrite_wf 1 1 n.toNat w1
  unfold buildFrame
  rw [Memory.read_writeBytes w2, Memory.read_memWrite w1, Memory.read_memWrite Memory.wf_nil,
    frameArgs_length, Memory.read_nil]
  by_cases h0 : k = 0
  · subst h0; simp
  by_cases h1 : k = 1
  · subst h1; simp
  rw [if_neg h0, if_neg h1]
  by_cases h2 : k < 16
  · rw [if_pos (by omega), if_pos h2]
    have : k - 2 < 14 := by omega
    simp [frameArgs, Config.cmdArgs, List.getD, this]
  · rw [if_neg (by omega), if_neg (by omega), if_neg (by omega), if_neg h2]

/-- A built frame lists no byte beyond its sixteenth. -/
theorem buildFrame_lt {f n : Byte} {args : List Byte} {x : Host.Cell}
    (h : x ∈ buildFrame f n args) : x.1 < 16 := by
  unfold buildFrame at h
  rcases Memory.mem_writeBytes h with h | h
  · rw [frameArgs_length] at h; omega
  · rcases Memory.mem_memWrite h with h | h
    · omega
    · rcases Memory.mem_memWrite h with h | h
      · omega
      · cases h

/-! ### The encoded message -/

theorem sentData_length {f : Frame} (h : f.dlc.toNat ≤ 8) :
    (sentData f).length = if f.rtr then 0 else f.dlc.toNat := by
  unfold sentData
  split
  · rfl
  · simp; omega

theorem encodedSl_toNat {f : Frame} (h : f.dlc.toNat ≤ 8) :
    (encodedSl f).toNat = f.dlc.toNat + (if f.rtr then 16 else 0) + (if f.ext then 32 else 0) := by
  have key : ∀ (d : BitVec 4) (r e : Bool), d.toNat ≤ 8 →
      (d.setWidth 8 ||| (if r then 0x10#8 else 0#8) ||| (if e then 0x20#8 else 0#8)).toNat
        = d.toNat + (if r then 16 else 0) + (if e then 32 else 0) := by decide
  exact key f.dlc f.rtr f.ext h

theorem idFieldOf_eq (f : Frame) :
    idFieldOf f = if f.ext then f.id.toNat * 8 else f.id.toNat * 32 % 65536 := by
  have := f.id.isLt
  unfold idFieldOf
  split
  · simp only [BitVec.toNat_shiftLeft, BitVec.toNat_setWidth, Nat.shiftLeft_eq]; omega
  · simp only [BitVec.toNat_shiftLeft, BitVec.toNat_setWidth, Nat.shiftLeft_eq]; omega

theorem encodeFrame_len {f : Frame} (q : Byte) (h : f.dlc.toNat ≤ 8) :
    (encodeFrame f q).len = txLen f := by
  simp only [encodeFrame, Buffer.memWrite, Buffer.writeBytes, Buffer.empty, sentData_length h,
    idFieldLen, txLen]
  cases f.ext <;> cases f.rtr <;> simp <;> omega

/-- Every byte of an encoded message. -/
theorem encodeFrame_read (f : Frame) (q : Byte) (k : Nat) :
    (encodeFrame f q).mem.read k =
      if k = 0 then 2#8 else if k = 1 then 1#8 else if k = 2 then encodedSl f
      else if k < 3 + idFieldLen f.ext then BitVec.ofNat 8 (idFieldOf f / 256 ^ (k - 3))
      else if k < 3 + idFieldLen f.ext + (sentData f).length then
        (sentData f).getD (k - (3 + idFieldLen f.ext)) 0#8
      else if k = 3 + idFieldLen f.ext + (sentData f).length then q else 0#8 := by
  have w0 : Buffer.empty.mem.wf = true := rfl
  have w1 := Memory.memWrite_wf 0 1 0x02 w0
  have w2 := Memory.memWrite_wf 1 1 0x01 w1
  have w3 := Memory.memWrite_wf 2 1 (encodedSl f).toNat w2
  have w4 := Memory.memWrite_wf 3 (idFieldLen f.ext) (idFieldOf f) w3
  have w5 := Memory.writeBytes_wf (3 + idFieldLen f.ext) (sentData f) w4
  simp only [encodeFrame, Buffer.memWrite, Buffer.writeBytes]
  rw [Memory.read_memWrite w5, Memory.read_writeBytes w4, Memory.read_memWrite w3,
    Memory.read_memWrite w2, Memory.read_memWrite w1, Memory.read_memWrite w0]
  simp only [show Buffer.empty.mem = [] from rfl, Memory.read_nil]
  generalize idFieldLen f.ext = L
  generalize (sentData f).length = D
  by_cases k0 : k = 0
  · subst k0
    rw [if_neg (by omega), if_neg (by omega), if_neg (by omega), if_neg (by omega),
      if_neg (by omega), if_pos (by omega)]
    rfl
  by_cases k1 : k = 1
  · subst k1
    rw [if_neg (by omega), if_neg (by omega), if_neg (by omega), if_neg (by omega),
      if_pos (by omega)]
    rfl
  by_cases k2 : k = 2
  · subst k2
    rw [if_neg (by omega), if_neg (by omega), if_neg (by omega), if_pos (by omega)]
    simp
  rw [if_neg k0, if_neg k1, if_neg k2]
  by_cases k3 : k < 3 + L
  · rw [if_pos k3, if_neg (by omega), if_neg (by omega), if_pos (by omega)]
  by_cases k4 : k < 3 + L + D
  · rw [if_neg k3, if_pos k4, if_neg (by omega), if_pos (by omega)]
  by_cases k5 : k = 3 + L + D
  · rw [if_neg k3, if_neg k4, if_pos k5, if_pos (by omega)]
    simp [k5]
  · rw [if_neg k3, if_neg k4, if_neg k5, if_neg (by omega), if_neg (by omega), if_neg (by omega),
      if_neg (by omega), if_neg (by omega), if_neg (by omega)]

theorem encodeFrame_wf (f : Frame) (q : Byte) : (encodeFrame f q).wf = true := by
  unfold encodeFrame
  exact Buffer.memWrite_wf _ _ _ (Buffer.writeBytes_wf _ _ (Buffer.memWrite_wf _ _ _
    (Buffer.memWrite_wf _ _ _ (Buffer.memWrite_wf _ _ _ (Buffer.memWrite_wf _ _ _ rfl)))))

end Sys2Proof.Machine
end

