-- ==== Sys2Proof/Tests/Slice0.lean ====
section
/-! SUPPORT. The model's own tests: well-formedness, decoding of words written out from the spec's
encodings, single operations on vectors of 95_test_vectors.md (named C, B, E, D, T, P, S as there),
and for each statement with hypotheses a state that meets them. -/

namespace Sys2Proof.Tests

open Sys2Proof Sys2Proof.Machine

/-! ### Small states -/

/-- Bytes from numbers. -/
def hex (l : List Nat) : List Byte := l.map (BitVec.ofNat 8)

/-- The reset state with these operands. -/
def withPort (x : Operands) : State := { State.reset with port := x }

/-- The reset state with a message in RXBUF and samples on the clock. -/
def withRx (bs : List Nat) (now : List Nat) : State :=
  { State.reset with
    rxbuf := Buffer.ofBytes (hex bs), clock := ⟨0#64, now.map (BitVec.ofNat 64), 0⟩ }

/-- `withRx` in an open pass of three records, at this cursor, record and timestamp index. -/
def inPass (bs : List Nat) (now : List Nat) (pc rec tsIdx : Nat) : State :=
  { withRx bs now with dc := some ⟨pc, 2#8, 3#8, rec, 0x12F8#16, tsIdx, false⟩ }

/-- The same state with one event waiting. -/
def waiting (s : State) (a : Action) (during : List (BitVec 5)) : State :=
  { s with events := [⟨a, during⟩] }

/-- The state an answer goes on in; reset where it stops. -/
def nextOf : Answer → State
  | .next s => s
  | .fault _ => State.reset
  | .refused _ => State.reset

/-- The refusal of an answer. -/
def refusalOf : Answer → Option Refusal
  | .next _ => none
  | .fault _ => none
  | .refused r => some r

/-- Outcome and items after DEC.MESSAGE of a message. -/
def decodes (bs : List Nat) (now : List Nat) : Option OpOutcome × List Item :=
  let t := nextOf (exec .decMessage (withRx bs now))
  (t.outcome, t.items)

def okVersion (v : Nat) : Option OpOutcome := some (.ok (.version (some (BitVec.ofNat 8 v))))

def framing (rec off : Nat) : Option OpOutcome := some (.fault (.framing rec off))

/-- A frame with the first bytes of its data given. -/
def frame (id : Nat) (ext rtr : Bool) (dlc : Nat) (d : List Nat) : Frame :=
  let b := fun i => BitVec.ofNat 8 (d.getD i 0)
  ⟨BitVec.ofNat 29 id, ext, rtr, BitVec.ofNat 4 dlc, #v[b 0, b 1, b 2, b 3, b 4, b 5, b 6, b 7],
    none, none⟩

/-- ENC.FRAME's operands: a frame for slot 0. -/
def encPort (f : Frame) : Operands := { Operands.reset with frame := f }

/-- TXBUF and TX.seq after ENC.FRAME. -/
def encodes (f : Frame) (seq : Nat) : List Byte × Byte :=
  let t := nextOf (exec .encFrame { withPort (encPort f) with txSeq := BitVec.ofNat 8 seq })
  ((slotBuffer t.txbufs 0).bytes, t.txSeq)

/-- Operands of a connected command with this reply. -/
def replyPort (bs : List Nat) : Operands :=
  { Operands.reset with connected := true, recvAns := .ok (hex bs) }

/-- The time reference with an epoch. -/
def epochTr : TimeRef := ⟨true, 1000000#64, 1350000#64, 0x10#16, 0x2000#16, 73728#64, 2#32⟩

/-! ### Well-formedness: each check refuses an ill-formed term -/

theorem test_wf_unknown_record_refuses_named_functionalities :
    ∀ f ∈ [1#8, 2#8, 3#8, 4#8, 5#8], (Instr.recIntUnknown f true 0#2 3#4).wf = false := by decide

theorem test_wf_unknown_record_accepts_others :
    ∀ f ∈ [0#8, 6#8, 9#8, 255#8], (Instr.recIntUnknown f true 0#2 3#4).wf = true := by decide

theorem test_wf_refuses_dlc_9 :
    (frame 0x123 false false 9 []).dlcOk = false ∧ (frame 0x123 false false 9 []).wf = false := by
  decide

theorem test_wf_refuses_12_bit_standard_id :
    (frame 0x923 false false 0 []).idOk = false ∧ (frame 0x923 false false 0 []).wf = false
      ∧ (frame 0x923 true false 0 []).wf = true := by decide

theorem test_wf_refuses_data_beyond_dlc :
    (frame 1 false false 1 [0x5A, 1]).dataOk = false ∧ (frame 1 false false 1 [0x5A, 1]).wf = false
      ∧ (frame 1 false true 1 [0x5A]).wf = false ∧ (frame 1 false false 1 [0x5A]).wf = true := by
  decide

/-! ### Decoding of words written out from the spec -/

/-- The 17 codes of R85. -/
theorem test_decode_operations :
    (List.range 17).map (fun k => decode .op [BitVec.ofNat 8 k]) =
      [.ok .sessionReset, .ok .cmdBuild, .ok .cmdParse, .ok .cmdBtr, .ok .cmdPreset, .ok .cmdSetbtr,
        .ok .cmdGetsn, .ok .cmdGetdevid, .ok .cmdSendSync, .ok .cmdSendAwait, .ok .cmdSendAsync,
        .ok .encFrame, .ok .decMessage, .ok .tssSet, .ok .tssUpdate, .ok .tssCompute,
        .ok .besProcess] := by rfl

theorem test_decode_reserved_operations :
    ∀ k ∈ [0x11#8, 0x1F#8, 0x20#8, 0xFF#8], decode .op [k] = .error .reservedOp := by
  intro k hk
  fin_cases hk <;> rfl

/-- Status/length bytes of R63: TS = 1, RTR = 0, LEN = 2; TS = 1, EXT, RTR, LEN = 8. -/
theorem test_decode_data_records :
    decodeRecord 0b10000010#8 0x60#8 = .recDataStd true false 2#4
      ∧ decodeRecord 0b10111000#8 0xF8#8 = .recDataExt true true 8#4 := by decide

/-- Internal records of R63 and R71: the functionality byte follows. -/
theorem test_decode_internal_records :
    decodeRecord 0b11000010#8 1#8 = .recIntError true 0#2 2#4
      ∧ decodeRecord 0b01000000#8 2#8 = .recIntAnalog false 0#2 0#4
      ∧ decodeRecord 0b01010001#8 3#8 = .recIntBusload false 1#2 1#4
      ∧ decodeRecord 0b11000000#8 4#8 = .recIntTs true 0#2 0#4
      ∧ decodeRecord 0b01100011#8 5#8 = .recIntBusevt false 2#2 3#4
      ∧ decodeRecord 0b01001111#8 9#8 = .recIntUnknown 9#8 false 0#2 15#4 := by decide

theorem test_decode_short_records :
    decode .record [] = .error .truncated ∧ decode .record [0x40#8] = .error .truncated
      ∧ decode .record [0x02#8] = .ok (.recDataStd false false 2#4) := ⟨rfl, rfl, rfl⟩

/-- The pairs of R81. -/
theorem test_decode_command_frames :
    decode .command [1#8, 2#8] = .ok .devcmdSetBitrate
      ∧ decode .command [6#8, 1#8] = .ok .devcmdGetSerial
      ∧ decode .command [4#8, 1#8] = .ok .devcmdGetDevid
      ∧ decode .command [1#8, 1#8] = .error .unknownCommand := ⟨rfl, rfl, rfl, rfl⟩

/-- One word of the opcode table of each kind, and that a step from reset runs it. -/
theorem test_table_words_run :
    decodeTableWord 5 0x10 = some .besProcess
      ∧ decodeTableWord 8 0x20 = some (.recDataExt false false 0#4)
      ∧ decodeTableWord 16 0x04C0 = some (.recIntTs true 0#2 0#4)
      ∧ decodeTableWord 16 0x0106 = some .devcmdGetSerial
      ∧ ((nextOf (step (State.reset.withFetchWord 16 0x04C0))).items = [.timestampOnly 0#16]) :=
  ⟨rfl, rfl, rfl, rfl, by decide⟩

/-! ### The host operations -/

theorem test_session_reset_clears_registers :
    let t := nextOf (exec .sessionReset { State.reset with
      tr := epochTr, bs := .busOff, txSeq := 9#8, cmdbuf := [(3, 7#8)] })
    t.tr = TimeRef.reset ∧ t.bs = .errorActive ∧ t.txSeq = 0#8 ∧ t.cmdbuf = [(3, 7#8)] := by decide

/-- C4: sixteen argument bytes, the last two dropped. -/
theorem test_cmd_build_drops_extra_arguments :
    (nextOf (exec .cmdBuild (withPort { Operands.reset with
      functionality := 0xFF#8, number := 0xEE#8
      args := hex [1, 2, 3, 4, 5, 6, 7, 8, 9, 10, 11, 12, 13, 14, 15, 16] }))).outcome
      = some (.ok (.bytes (hex [0xFF, 0xEE, 1, 2, 3, 4, 5, 6, 7, 8, 9, 10, 11, 12, 13, 14]))) := by
  decide

/-- C1 over a CMDBUF that held other bytes: nothing of them survives. -/
theorem test_cmd_build_clears_the_tail :
    (nextOf (exec .cmdBuild { withPort { Operands.reset with
      functionality := 1#8, number := 2#8, args := hex [0x1C, 0] } with
      cmdbuf := [(0, 9#8), (7, 9#8), (15, 9#8)] })).cmdbuf = [(0, 1#8), (1, 2#8), (2, 0x1C#8)] := by
  decide

/-- C9: the first two bytes of a reply are not compared. -/
theorem test_cmd_parse_ignores_header :
    (nextOf (exec .cmdParse { State.reset with
      rplbuf := Buffer.ofBytes (hex [4, 1, 0xA5, 1, 2, 3, 0, 0, 0, 0, 0, 0, 0, 0, 0, 0]) })).outcome
      = some (.ok (.bytes (hex [0xA5, 1, 2, 3, 0, 0, 0, 0, 0, 0, 0, 0, 0, 0]))) := by decide

/-- C6, C7, C8. -/
theorem test_cmd_parse_length_faults :
    ∀ n ∈ [15, 0, 17], (nextOf (exec .cmdParse { State.reset with rplbuf := ⟨n, []⟩ })).outcome
      = framing 0 n := by decide

/-- B1, B3, B4, B5. -/
theorem test_cmd_btr_vectors :
    ∀ x ∈ [((⟨4#32, 1#32, 6#32, 7#32, 2#32, true⟩ : Bittiming), 0x03#8, 0x9C#8),
      (⟨0#32, 0#32, 0#32, 0#32, 0#32, false⟩, 0xFF#8, 0x7F#8),
      (⟨64#32, 2#32, 8#32, 8#32, 8#32, false⟩, 0x7F#8, 0x7F#8),
      (⟨65#32, 5#32, 10#32, 10#32, 9#32, true⟩, 0x00#8, 0x83#8)],
      (nextOf (exec .cmdBtr (withPort { Operands.reset with bittiming := x.1 }))).outcome
        = some (.ok (.btr x.2.1 x.2.2)) := by decide

/-- S1, S2, S3. -/
theorem test_cmd_preset_vectors :
    ∀ x ∈ [(1000000, (.ok (.btr 0x00#8 0x14#8) : OpOutcome)), (5000, .ok (.btr 0x7F#8 0x7F#8)),
      (123456, .fault .invalidArgument), (0, .fault .invalidArgument),
      (1000001, .fault .invalidArgument)],
      (nextOf (exec .cmdPreset (withPort { Operands.reset with bps := BitVec.ofNat 32 x.1 }))).outcome
        = some x.2 := by decide

/-- C11. -/
theorem test_cmd_setbtr_order :
    (nextOf (exec .cmdSetbtr (withPort { Operands.reset with btr0 := 0x67#8, btr1 := 0x2F#8 }))).cmdbuf
      = [(0, 1#8), (1, 2#8), (2, 0x2F#8), (3, 0x67#8)] := by decide

/-- C13, S11: what is sent, and the little-endian serial number. -/
theorem test_cmd_getsn_serial :
    let t := nextOf (exec .cmdGetsn
      (withPort (replyPort [6, 1, 0x78, 0x56, 0x34, 0x12, 0, 0, 0, 0, 0, 0, 0, 0, 0, 0])))
    t.outcome = some (.ok (.serial 0x12345678#32))
      ∧ t.calls = [.send (hex [6, 1, 0, 0, 0, 0, 0, 0, 0, 0, 0, 0, 0, 0, 0, 0]), .receive] := by decide

/-- C15. -/
theorem test_cmd_getdevid_is_one_byte :
    (nextOf (exec .cmdGetdevid
      (withPort (replyPort [4, 1, 0xA5, 1, 2, 3, 0, 0, 0, 0, 0, 0, 0, 0, 0, 0])))).outcome
      = some (.ok (.deviceId 0xA5#32)) := by decide

/-- C16, C17, C18. -/
theorem test_cmd_send_sync_faults :
    (nextOf (exec .cmdSendSync (withPort Operands.reset))).outcome = some (.fault .notConnected)
      ∧ (nextOf (exec .cmdSendSync (withPort Operands.reset))).calls = []
      ∧ (nextOf (exec .cmdSendSync (withPort { Operands.reset with
          connected := true, sendAns := .err (.other 7) }))).outcome
          = some (.fault (.transportError (.other 7)))
      ∧ (nextOf (exec .cmdSendSync (withPort { Operands.reset with
          connected := true, sendAns := .timeout }))).outcome = some (.fault .timeout) := by decide

/-- C19, C20. -/
theorem test_cmd_send_await_faults :
    (nextOf (exec .cmdSendAwait (withPort { Operands.reset with
      connected := true, recvAns := .timeout }))).outcome = some (.fault .timeout)
      ∧ (nextOf (exec .cmdSendAwait (withPort (replyPort [1, 2, 3, 4, 5, 6, 7, 8])))).outcome
          = framing 0 8 := by decide

/-- C21, C22. -/
theorem test_cmd_send_async :
    (nextOf (exec .cmdSendAsync (withPort Operands.reset))).outcome = some (.fault .outOfMemory)
      ∧ (nextOf (exec .cmdSendAsync (withPort { Operands.reset with
          allocOk := true, onComplete := 5 }))).asyncInFlight.map AsyncCmd.onComplete = [5] := by
  decide

/-- E2, E6 (the counter wraps). -/
theorem test_enc_frame_data :
    encodes (frame 0x1ABCDEF0 true false 8 [1, 2, 3, 4, 5, 6, 7, 8]) 1
        = (hex [2, 1, 0x28, 0x80, 0xF7, 0xE6, 0xD5, 1, 2, 3, 4, 5, 6, 7, 8, 1], 2#8)
      ∧ encodes (frame 1 false false 1 [0x5A]) 0xFF = (hex [2, 1, 1, 0x20, 0, 0x5A, 0xFF], 0#8) := by
  decide

/-- E7 (an ill-formed id), E9 (RTR: data ignored). -/
theorem test_enc_frame_rtr_and_wide_id :
    encodes (frame 0x923 false false 0 []) 7 = (hex [2, 1, 0, 0x60, 0x24, 7], 8#8)
      ∧ encodes (frame 0x555 false true 8 [1, 2]) 0x10 = (hex [2, 1, 0x18, 0xA0, 0xAA, 0x10], 0x11#8) := by
  decide

/-- P1: two timestamped frames across a tick wrap between two REC.INT.TS. -/
theorem test_dec_message_p1 :
    let t := nextOf (exec .decMessage (withRx [0x02, 0x04, 0xC0, 0x04, 0x00, 0xF0, 0xFF, 0x82, 0x60,
      0x24, 0xF8, 0xAA, 0xBB, 0xA1, 0x80, 0xF7, 0xE6, 0xD5, 0x05, 0x11, 0xC0, 0x04, 0x00, 0x10]
      [1000000, 1000500, 1000900]))
    t.items = [.timestampOnly 0xFFF0#16,
        .frame { frame 0x123 false false 2 [0xAA, 0xBB] with
          ts := some 0xFFF8#16, hwtime := some 3795861#64 },
        .frame { frame 0x1ABCDEF0 true false 1 [0x11] with
          ts := some 0x0005#16, hwtime := some 3796416#64 },
        .timestampOnly 0x0010#16]
      ∧ t.tr = ⟨true, 1000000#64, 1000000#64, 0xFFF0#16, 0x0010#16, 65552#64, 1#32⟩ := by decide

/-- P3: a FramingError in record 1 keeps record 0. -/
theorem test_dec_message_p3 :
    decodes [0x02, 0x02, 0x01, 0x20, 0x00, 0x5A, 0x28, 0x80, 0xF7, 0xE6, 0xD5, 0x01, 0x02, 0x03] []
      = (framing 1 11, [.frame (frame 1 false false 1 [0x5A])]) := by decide

/-- After P1b, P1c: TSS.SET rebases the epoch to the previous sample's host time. -/
theorem test_tss_set_rebases :
    (nextOf (exec .tssSet { withPort { Operands.reset with tick := 0x3000#16 } with
      tr := epochTr, clock := ⟨1350000#64, [4201000001#64], 0⟩ })).tr
      = ⟨true, 1350000#64, 4201000001#64, 0x2000#16, 0x3000#16, 4096#64, 3#32⟩ := by decide

/-- T1. -/
theorem test_tss_set_first_sample :
    (nextOf (exec .tssSet { State.reset with clock := ⟨0#64, [500#64], 0⟩ })).tr
      = ⟨true, 500#64, 500#64, 0#16, 0#16, 0#64, 1#32⟩ := by decide

/-- S5: the wrap 65530 to 2 is a difference of 8. -/
theorem test_tss_update_wraps :
    (nextOf (exec .tssUpdate { withPort { Operands.reset with tick := 2#16 } with
      tr := ⟨true, 0#64, 0#64, 0#16, 65530#16, 65530#64, 1#32⟩ })).tr
      = ⟨true, 0#64, 0#64, 65530#16, 2#16, 65538#64, 1#32⟩ := by decide

/-- T2: after TSS.SET(0) at 500, ticks 1 and 0xFFFF. -/
theorem test_tss_compute_scales :
    ∀ x ∈ [(1#16, 542#64), (0xFFFF#16, 2796660#64)],
      (nextOf (exec .tssCompute { withPort { Operands.reset with tick := x.1 } with
        tr := ⟨true, 500#64, 500#64, 0#16, 0#16, 0#64, 1#32⟩ })).outcome
        = some (.ok (.time x.2)) := by
  intro x hx
  fin_cases hx <;> rfl

/-- S6 to S9, and rows of 6.2 with the gate closed and open. -/
theorem test_bes_process_vectors :
    ∀ x ∈ [(BusErrorState.errorActive, 0#32, 0x04#8, BusErrorState.errorWarning, some Cond.warning),
      (.errorWarning, 0#32, 0x04#8, .errorWarning, none),
      (.errorWarning, 0#32, 0x10#8, .busOff, some .busOff),
      (.busOff, 1#32, 0xFF#8, .busOff, none),
      (.errorWarning, 0#32, 0x42#8, .errorActive, some .active),
      (.errorWarning, 1#32, 0x42#8, .errorWarning, some .rxOverflow),
      (.errorPassive, 1#32, 0x14#8, .busOff, some .busOff),
      (.errorPassive, 1#32, 0x89#8, .errorPassive, none)],
      let t := nextOf (exec .besProcess { withPort { Operands.reset with flags := x.2.2.1 } with
        bs := x.1, tr := { TimeRef.reset with sampleCount := x.2.1 } })
      t.bs = x.2.2.2.1 ∧ t.outcome
        = some (.ok (.event (x.2.2.2.2.map fun k => ⟨x.2.2.2.1, x.2.2.1, k⟩))) := by decide

/-! ### The record kinds -/

/-- D6, D7: the length nibble is clamped to 8; one byte short is a FramingError. -/
theorem test_rec_data_std_clamp :
    decodes [7, 1, 0x0F, 0x20, 0, 1, 2, 3, 4, 5, 6, 7, 8, 9] []
        = (okVersion 7, [.frame (frame 1 false false 8 [1, 2, 3, 4, 5, 6, 7, 8])])
      ∧ decodes [7, 1, 0x0F, 0x20, 0, 1, 2, 3, 4, 5, 6, 7] [] = (framing 0 5, []) := by decide

/-- D19, D20: the rolling timestamp carries only on a lower low byte. -/
theorem test_rec_data_std_rolling_timestamp :
    (decodes [2, 2, 0x80, 0x20, 0, 0x34, 0x12, 0x80, 0x20, 0, 0x34] [1, 2]).2.getLast?
        = some (.frame { frame 1 false false 0 [] with ts := some 0x1234#16, hwtime := some 2#64 })
      ∧ (decodes [2, 2, 0x80, 0x20, 0, 0x34, 0x12, 0x80, 0x20, 0, 0x33] [1, 2]).2.getLast?
        = some (.frame { frame 1 false false 0 [] with
            ts := some 0x1333#16, hwtime := some 2#64 }) := by decide

/-- D26, D16. -/
theorem test_rec_data_ext :
    decodes [2, 1, 0xB8, 0xF8, 0xFF, 0xFF, 0xFF, 0x22, 0x11] [50]
        = (okVersion 2, [.frame { frame 0x1FFFFFFF true true 8 [] with
            ts := some 0x1122#16, hwtime := some 50#64 }])
      ∧ decodes [2, 1, 0x28, 0x80, 0xF7, 0xE6] [] = (framing 0 3, []) := by decide

/-- P2: escalation to BusOff with the gate closed. -/
theorem test_rec_int_error_escalation :
    decodes [0x02, 0x07, 0x40, 0x01, 0x40, 0x40, 0x01, 0x04, 0x40, 0x01, 0x04, 0x40, 0x01, 0x06,
        0x40, 0x01, 0x08, 0x40, 0x01, 0x10, 0x40, 0x01, 0x04] []
      = (okVersion 2, [.errorEvent ⟨.errorWarning, 4#8, .warning⟩,
          .errorEvent ⟨.errorPassive, 8#8, .passive⟩, .errorEvent ⟨.busOff, 0x10#8, .busOff⟩]) := by
  decide

/-- D23: a skipped analog record's timestamp sets the base. -/
theorem test_rec_int_analog_sets_base :
    decodes [2, 2, 0xC0, 2, 0, 0, 0x10, 0xAA, 0xBB, 0x80, 0x20, 0, 5] [9]
      = (okVersion 2, [.frame { frame 1 false false 0 [] with
          ts := some 0x1005#16, hwtime := some 9#64 }]) := by decide

/-- D12: the analog, busload, bus-event and unknown records are skipped by their lengths. -/
theorem test_skipped_records :
    decodes ([2, 5, 0x40, 2, 0, 0x11, 0x22, 0x40, 3, 0, 0x33, 0x43, 5, 0, 1, 2, 3, 0x4F, 9, 0]
        ++ List.replicate 15 0 ++ [0, 0x20, 0]) []
      = (okVersion 2, [.frame (frame 1 false false 0 [])]) := by decide

/-- D13: an unknown record that does not fit. -/
theorem test_rec_int_unknown_short :
    decodes ([2, 1, 0x4F, 9, 0] ++ List.replicate 14 0) [] = (framing 0 5, []) := by decide

/-- An operation beside others, and ENC.FRAME with a free slot. -/
theorem witness_StepRunsPresentedOperation :
    (waiting State.reset (.present 0x10#5 Operands.reset []) [0x0A#5, 0x0B#5]).presents
        ⟨.present 0x10#5 Operands.reset [], [0x0A#5, 0x0B#5]⟩ []
      ∧ (∀ d ∈ [0x0A#5, 0x0B#5], conflicts 0x10#5 d = false)
      ∧ decodeOp 0x10#5 = .ok .besProcess ∧ 0x10#5 ≠ 0x0B#5
      ∧ State.reset.txInFlight.length < Config.txSlots :=
  ⟨⟨rfl, rfl, rfl⟩, by decide, rfl, by decide, Nat.succ_pos _⟩

/-- Both ends of the range: a data record whose one byte is the last, an internal one whose third is. -/
theorem witness_StepRunsFetchedRecord :
    (let s := inPass [2, 3, 0x00] [] 2 0 0;
      2 + (if (s.rxbuf.mem.read 2).getLsbD 6 then 3 else 1) = s.rxbuf.len)
    ∧ (let s := inPass [2, 3, 0x40, 2, 0] [] 2 0 0;
      2 + (if (s.rxbuf.mem.read 2).getLsbD 6 then 3 else 1) = s.rxbuf.len) := by decide

theorem witness_StepRunsOutstandingCommand :
    let s := { State.reset with cmdOutstanding := true, cmdbuf := [(0, 6#8), (1, 1#8)] }
    s.dc = none ∧ s.cmdOutstanding = true
      ∧ decode .command [s.cmdbuf.read 0, s.cmdbuf.read 1] = .ok .devcmdGetSerial :=
  ⟨rfl, rfl, rfl⟩

theorem witness_StepWaitsWithoutEvents :
    State.reset.betweenOps = true ∧ State.reset.events = [] := by decide

theorem witness_DecodeEncodeAllInstructions :
    (Instr.recIntUnknown 0#8 true 3#2 15#4).wf = true ∧ (Instr.recIntUnknown 6#8 true 3#2 15#4).wf = true
      ∧ Instr.encFrame.wf = true := by decide

/-- One status/length byte and functionality for each row of the table. -/
theorem witness_RecordDecodeFollowsTableMasks :
    0x9F#8 &&& 0x60#8 = 0x00#8 ∧ 0x3F#8 &&& 0x60#8 = 0x20#8
      ∧ (∀ f ∈ [1#8, 2#8, 3#8, 4#8, 5#8], (f ++ 0xF3#8 : BitVec 16) &&& 0xFF40#16 = f ++ 0x40#8)
      ∧ (0#8 ++ 0xF3#8 : BitVec 16) &&& 0x0040#16 = 0x0040#16
      ∧ 0#8 ∉ [1#8, 2#8, 3#8, 4#8, 5#8] ∧ 6#8 ∉ [1#8, 2#8, 3#8, 4#8, 5#8] := by decide

theorem witness_ReservedOpCodesRefused :
    ∀ op ∈ [0x11#5, 0x1F#5],
      (waiting State.reset (.present op Operands.reset []) []).presents
        ⟨.present op Operands.reset [], []⟩ [] ∧ 0x11 ≤ op.toNat := by
  intro op hop
  fin_cases hop <;> exact ⟨⟨rfl, rfl, rfl⟩, by decide⟩

/-- A pair for each clause, and a liberty beside SESSION.RESET. -/
theorem witness_OverlappingOperationsRefused :
    (waiting State.reset (.present 6#5 Operands.reset []) [9#5]).presents
        ⟨.present 6#5 Operands.reset [], [9#5]⟩ []
      ∧ (1#5).toNat ∈ [1, 5, 6, 7, 8, 9] ∧ (9#5).toNat ∈ [6, 7, 8, 9]
      ∧ (12#5).toNat ∈ [0, 12, 13, 14, 16] ∧ (16#5).toNat ∈ [0, 12, 13, 14, 16]
      ∧ (15#5).toNat = 15 ∧ (0#5).toNat = 0
      ∧ (waiting State.reset (.present 10#5 Operands.reset []) [0#5]).presents
          ⟨.present 10#5 Operands.reset [], [0#5]⟩ []
      ∧ (10#5).toNat ∈ [2, 3, 4, 10] ∧ decodeOp 10#5 = .ok .cmdSendAsync
      ∧ decodeOp 11#5 = .ok .encFrame ∧ State.reset.txInFlight.length < Config.txSlots :=
  ⟨⟨rfl, rfl, rfl⟩, by decide, by decide, by decide, by decide, rfl, rfl, ⟨rfl, rfl, rfl⟩,
    by decide, rfl, rfl, Nat.succ_pos _⟩

theorem witness_CmdParseResult :
    (Buffer.ofBytes (List.replicate 16 1#8)).len = 16
      ∧ (Buffer.ofBytes (List.replicate 15 1#8)).len ≠ 16
      ∧ (Buffer.ofBytes (List.replicate 17 1#8)).len ≠ 16 := by decide

/-- First and last row. -/
theorem witness_CmdPresetTable :
    (withPort { Operands.reset with bps := 1000000#32 }).port.bps.toNat = 1000000
      ∧ (withPort { Operands.reset with bps := 5000#32 }).port.bps.toNat = 5000 := by decide

/-- Neighbours of rows, and 0. -/
theorem witness_InvalidArgumentOnlyForUnknownPresets :
    ∀ b ∈ [0#32, 4999#32, 5001#32, 999999#32, 1000001#32],
      (withPort { Operands.reset with bps := b }).port.bps.toNat
        ∉ [1000000, 500000, 250000, 125000, 100000, 50000, 20000, 10000, 5000] := by
  intro b hb
  fin_cases hb <;> simp [withPort]

theorem witness_InvalidArgumentOnlyForUnknownPresets_others :
    (∃ t, exec .cmdBtr State.reset = .next t)
      ∧ (∃ t, exec .cmdPreset (withPort { Operands.reset with bps := 5000#32 }) = .next t)
      ∧ (withPort { Operands.reset with bps := 5000#32 }).port.bps.toNat
        ∈ [1000000, 500000, 250000, 125000, 100000, 50000, 20000, 10000, 5000]
      ∧ State.reset.outcome ≠ some (.fault .invalidArgument) :=
  ⟨⟨_, rfl⟩, ⟨_, rfl⟩, by decide, by decide⟩

theorem witness_CmdSendSyncOutcomes :
    (withPort Operands.reset).port.connected = false
      ∧ (withPort (replyPort [])).port.connected = true := by decide

theorem witness_CmdGetsnResult : (List.replicate 14 0xFF#8).length = 14 := by decide

theorem witness_CmdGetdevidResult : (List.replicate 14 0xA5#8).length = 14 := by decide

theorem witness_DeviceCommandFramesExchange :
    (List.replicate 14 0x00#8).length = 14 ∧ ∃ t, exec .cmdSendSync State.reset = .next t :=
  ⟨by decide, _, rfl⟩

theorem witness_CmdSendAsyncSubmits :
    (withPort { Operands.reset with allocOk := true }).port.allocOk = true := by decide

theorem witness_OutOfMemorySubmitsNothing :
    (withPort Operands.reset).port.allocOk = false
      ∧ (Instr.cmdBuild ≠ .cmdSendAsync ∧ (∃ t, exec .tssUpdate State.reset = .next t)
        ∧ State.reset.outcome ≠ some (.fault .outOfMemory)) :=
  ⟨by decide, by decide, ⟨_, rfl⟩, by decide⟩

/-- One command in flight: its completion, and the first index beyond it. -/
theorem witness_AsyncCompletesOnce :
    let c : AsyncCmd := ⟨5, Operands.reset.cmd⟩
    let s := { State.reset with asyncInFlight := [c] }
    (waiting s (.asyncDone 0 none) []).presents ⟨.asyncDone 0 none, []⟩ []
      ∧ (waiting s (.asyncDone 0 none) []).asyncInFlight = [] ++ c :: [] ∧ ([] : List AsyncCmd).length = 0
      ∧ (waiting s (.asyncDone 1 none) []).presents ⟨.asyncDone 1 none, []⟩ []
      ∧ (waiting s (.asyncDone 1 none) []).asyncInFlight.length ≤ 1 :=
  ⟨⟨rfl, rfl, rfl⟩, rfl, rfl, ⟨rfl, rfl, rfl⟩, by decide⟩

theorem witness_CommandsLeaveSessionAlone :
    isCommand .cmdGetsn = true ∧ isCommand .devcmdGetDevid = true := by decide

/-- The longest frame fills a TXBUF of the least capacity, the shortest is 6 bytes. -/
theorem witness_EncFrameWritesMessage :
    (let s := withPort (encPort (frame 0x1FFFFFFF true false 8 [1]));
      s.port.frame.dlc.toNat ≤ 8 ∧ isSlot s.port.slot = true ∧ s.port.slot ∉ s.txInFlight
        ∧ (txMessage s.port.frame s.txSeq).length = 16)
    ∧ (let s := withPort (encPort (frame 0 false true 8 []));
      s.port.frame.dlc.toNat ≤ 8 ∧ isSlot s.port.slot = true ∧ s.port.slot ∉ s.txInFlight
        ∧ (txMessage s.port.frame s.txSeq).length = 6) := by decide

theorem witness_EncFrameRefusesLargeDlc :
    8 < (withPort (encPort (frame 0 false false 9 []))).port.frame.dlc.toNat
      ∧ 8 < (withPort (encPort (frame 0 true true 15 []))).port.frame.dlc.toNat := by decide

/-- Slot 0 in flight: an encode into it, and its completion. -/
theorem witness_SlotInFlightIsNotReused :
    let s := { State.reset with txInFlight := [0] }
    s.port.frame.dlc.toNat ≤ 8 ∧ isSlot s.port.slot = true ∧ s.port.slot ∈ s.txInFlight
      ∧ (waiting s (.slotDone 0) []).flightOk = true
      ∧ (waiting s (.slotDone 0) []).presents ⟨.slotDone 0, []⟩ []
      ∧ 0 ∈ (waiting s (.slotDone 0) []).txInFlight :=
  ⟨by decide, by decide, by decide, by decide, ⟨rfl, rfl, rfl⟩, by decide⟩

/-- A full pool of any size: an ENC.FRAME waiting before the completion that frees its slot, and one
that waits alone. -/
theorem witness_SlotInFlightIsNotReused_fullPool :
    let encode : Event := ⟨.present 0x0B#5 Operands.reset [], []⟩
    let done : Event := ⟨.slotDone 0, []⟩
    let s := { State.reset with txInFlight := List.range Config.txSlots, events := [encode, done] }
    s.betweenOps = true ∧ Config.txSlots ≤ s.txInFlight.length
      ∧ s.events = [encode] ++ done :: [] ∧ encode.presentsOp 0x0B#5 ∧ ¬ done.presentsOp 0x0B#5
      ∧ ({ s with events := [encode] } : State).events ≠ [] :=
  ⟨rfl, by simp, rfl, ⟨_, _, rfl⟩, (by rintro ⟨x, now, h⟩; cases h), by simp⟩

/-- With the pool full an ENC.FRAME waits: the completion happens first, and the encode stays next. -/
theorem test_encode_waits_for_completion :
    let encode : Event := ⟨.present 0x0B#5 Operands.reset [], []⟩
    let s := { State.reset with
      txInFlight := List.range Config.txSlots, events := [encode, ⟨.slotDone 0, []⟩] }
    step s = .next { s with txInFlight := s.txInFlight.erase 0, events := [encode] } := by
  simp [step, State.reset, eventTurn, nextEvent, Event.presentsEncode, State.poolFull, takeEvent,
    slotDone, Config.txSlots]

theorem witness_SubmitPutsSlotInFlight :
    (waiting State.reset (.submitSlot 0) []).presents ⟨.submitSlot 0, []⟩ [] ∧ isSlot 0 = true
      ∧ 0 ∉ (waiting State.reset (.submitSlot 0) []).txInFlight :=
  ⟨⟨rfl, rfl, rfl⟩, by decide, by decide⟩

theorem witness_EncodeThenDecodeRoundTrip :
    let s := withPort (encPort (frame 0x7FF false false 2 [0xAA, 0xBB]))
    s.port.frame.wf = true ∧ ∃ t, exec .encFrame s = .next t
      ∧ ({ State.reset with rxbuf := slotBuffer t.txbufs s.port.slot } : State).rxbuf
        = slotBuffer t.txbufs s.port.slot :=
  ⟨by decide, _, rfl, rfl⟩

/-- A record that fills RXBUF to its last byte: standard with 1 data byte, extended RTR. -/
theorem witness_DataRecordWithoutTimestamp :
    (let s := inPass [2, 3, 0x01, 0x20, 0, 0x5A] [] 3 0 0;
      ∃ c, s.dc = some c ∧ c.pc + dataRest false false false 1#4 c = s.rxbuf.len)
    ∧ (let s := inPass [2, 3, 0x3F, 1, 2, 3, 4] [] 3 0 0;
      ∃ c, s.dc = some c ∧ c.pc + dataRest true false true 15#4 c = s.rxbuf.len) :=
  ⟨⟨_, rfl, by decide⟩, ⟨_, rfl, by decide⟩⟩

/-- First timestamp of a message (two bytes) and a later one (one byte). -/
theorem witness_DataRecordWithTimestamp :
    (let s := inPass [2, 3, 0x80, 0x20, 0, 0x34, 0x12] [7] 3 0 0;
      ∃ c now k, s.dc = some c ∧ c.pc + dataRest false true false 0#4 c = s.rxbuf.len
        ∧ s.clock.draw = .ok (now, k))
    ∧ (let s := inPass [2, 3, 0x80, 0x20, 0, 0x05] [7] 3 1 1;
      ∃ c now k, s.dc = some c ∧ c.pc + dataRest false true false 0#4 c = s.rxbuf.len
        ∧ s.clock.draw = .ok (now, k)) :=
  ⟨⟨_, _, _, rfl, by decide, rfl⟩, ⟨_, _, _, rfl, by decide, rfl⟩⟩

theorem witness_SkippedRecordsOnlyAdvance :
    (let s := inPass [2, 3, 0x40, 2, 0, 0x11, 0x22] [] 3 0 0;
      ∃ c, s.dc = some c ∧ c.pc + internalRest (2#8).toNat false 0#4 c = s.rxbuf.len)
    ∧ (let s := inPass [2, 3, 0xC1, 9, 0, 0x34, 0x12, 0] [] 3 0 0;
      ∃ c, s.dc = some c ∧ c.pc + internalRest (9#8).toNat true 1#4 c = s.rxbuf.len)
    ∧ (Instr.recIntUnknown 9#8 true 0#2 1#4).wf = true :=
  ⟨⟨_, rfl, by decide⟩, ⟨_, rfl, by decide⟩, by decide⟩

theorem witness_RecIntErrorDrivesBusState :
    let s := inPass [2, 3, 0x40, 1, 0x04] [] 3 0 0
    ∃ c, s.dc = some c ∧ c.pc + internalRest 1 false 0#4 c = s.rxbuf.len := ⟨_, rfl, by decide⟩

theorem witness_RecIntTsFeedsSynchronizer :
    (let s := inPass [2, 3, 0x40, 4, 0] [] 3 0 0;
      ∃ c, s.dc = some c ∧ c.pc + internalRest 4 false 0#4 c = s.rxbuf.len)
    ∧ (let s := inPass [2, 3, 0xC0, 4, 0, 0x34, 0x12] [7] 3 0 0;
      ∃ c now k, s.dc = some c ∧ c.pc + internalRest 4 true 0#4 c = s.rxbuf.len
        ∧ c.syncSeen = false ∧ s.clock.draw = .ok (now, k)) :=
  ⟨⟨_, rfl, by decide⟩, ⟨_, _, _, rfl, by decide, rfl, rfl⟩⟩

/-- Data and internal records whose first, second and third field is one byte short, and where the
FramingError is then. -/
theorem witness_TruncatedRecordHasNoEffect :
    (∀ x ∈ [([2, 3, 0x02, 0x20], false, 3), ([2, 3, 0x82, 0x20, 0, 0x34], true, 5),
        ([2, 3, 0x02, 0x20, 0, 0x5A], false, 5)],
      let s := inPass x.1 [] 3 0 0
      ∃ c ∈ s.dc, s.rxbuf.len < c.pc + dataRest false x.2.1 false 2#4 c
        ∧ firstUnfit s.rxbuf.len c.pc [2, tsFieldLen x.2.1 c, dataLen false 2#4] = x.2.2)
    ∧ (∀ x ∈ [([2, 3, 0xC1, 4], 3), ([2, 3, 0xC1, 4, 0, 0x34], 5),
        ([2, 3, 0xC1, 4, 0, 0x34, 0x12], 7)],
      let s := inPass x.1 [] 3 0 0
      ∃ c ∈ s.dc, s.rxbuf.len < c.pc + internalRest (4#8).toNat true 1#4 c
        ∧ firstUnfit s.rxbuf.len c.pc [2, tsFieldLen true c, payloadBytes (4#8).toNat 1#4] = x.2) := by
  decide

/-- A fetch with no status/length byte, and one whose sub-header is one byte short. -/
theorem witness_TruncatedRecordHasNoEffect_fetch :
    (let s := inPass [2, 3] [] 2 0 0; ∃ c ∈ s.dc, s.rxbuf.len < c.pc + 1)
    ∧ (let s := inPass [2, 3, 0x40, 4] [] 2 0 0;
      ∃ c ∈ s.dc, c.pc + 1 ≤ s.rxbuf.len ∧ (s.rxbuf.mem.read c.pc).getLsbD 6 = true
        ∧ s.rxbuf.len < c.pc + 3) := by decide

theorem witness_FirstTimestampIgnoresCounter : (headerCtx Buffer.empty).tsIdx = 0 := by decide

theorem witness_DecMessageHeaderCases :
    (withRx [] []).rxbuf.len = 0 ∧ (withRx [2] []).rxbuf.len = 1
      ∧ 2 ≤ (withRx [2, 0] []).rxbuf.len ∧ (withRx [2, 0] []).rxbuf.mem.read 1 = 0#8 := by decide

theorem witness_DecMessageAlwaysEnds :
    2 ≤ (withRx [2, 1] [5, 5, 6]).rxbuf.len ∧ (withRx [2, 1] [5, 5, 6]).clock.monotone = true := by
  decide

theorem witness_DecMessageRunsRecordsInOrder :
    (2 ≤ (withRx [2, 0] []).rxbuf.len ∧ (withRx [2, 0] []).rxbuf.mem.read 1 = 0#8)
      ∧ 2 ≤ (withRx [2, 1, 0, 0x20, 0] []).rxbuf.len
      ∧ (withRx [2, 1, 0, 0x20, 0] []).rxbuf.mem.read 1 ≠ 0#8 := by decide

theorem witness_FramingErrorKeepsCompleteRecords :
    let s := withRx [2, 2, 0x00, 0x20, 0] []
    2 ≤ s.rxbuf.len ∧ ∃ t, exec .decMessage s = .next t
      ∧ t.outcome = some (.fault (.framing 1 5)) := ⟨by decide, _, rfl, by decide⟩

theorem witness_TrailingBytesNeverRead :
    2 ≤ (hex [2, 1, 0x00, 0x20, 0]).length
      ∧ ∃ t, exec .decMessage (State.reset.withMessage (hex [2, 1, 0x00, 0x20, 0])) = .next t
        ∧ ∃ r, t.outcome = some (.ok r) := ⟨by decide, _, rfl, _, rfl⟩

theorem witness_DecMessageIgnoresOutboundSide :
    let s := withRx [2, 1, 0xC0, 4, 0, 0x34, 0x12] [7]
    let t := { s with txSeq := 9#8, cmdbuf := [(0, 6#8)], txInFlight := [0] }
    2 ≤ s.rxbuf.len ∧ t.rxbuf = s.rxbuf ∧ t.tr = s.tr ∧ t.bs = s.bs ∧ t.clock = s.clock
      ∧ ∃ u, exec .decMessage s = .next u := ⟨by decide, rfl, rfl, rfl, rfl, _, rfl⟩

theorem witness_HostClockNeverRunsBack :
    (∃ now k, (⟨5#64, [5#64], 0⟩ : HostClock).draw = .ok (now, k))
      ∧ ({ State.reset with clock := ⟨5#64, [4#64], 0⟩ } : State).clock.next = 4#64 :: []
      ∧ (4#64).toNat < (5#64).toNat := ⟨⟨_, _, rfl⟩, rfl, by decide⟩

/-- Two timestamped frames in one message: the second sample equal to the first, and one less. -/
theorem witness_HostClockNeverRunsBack_message :
    let bs := [2, 2, 0x80, 0x20, 0, 0x34, 0x12, 0x80, 0x20, 0, 0x35]
    (∃ t, exec .decMessage (withRx bs [5, 5]) = .next t)
      ∧ exec .decMessage (withRx bs [5, 4]) = .refused .clockBackwards := ⟨⟨_, rfl⟩, rfl⟩

/-- A timestamped data record and a first REC.INT.TS that fill RXBUF, with a sample that runs back. -/
theorem witness_HostClockNeverRunsBack_records :
    (let s := { inPass [2, 3, 0x80, 0x20, 0, 0x34, 0x12] [] 3 0 0 with clock := ⟨5#64, [4#64], 0⟩ };
      ∃ c ∈ s.dc, c.pc + dataRest false true false 0#4 c = s.rxbuf.len)
    ∧ (let s := { inPass [2, 3, 0xC0, 4, 0, 0x34, 0x12] [] 3 0 0 with clock := ⟨5#64, [4#64], 0⟩ };
      ∃ c ∈ s.dc, c.syncSeen = false ∧ c.pc + internalRest 4 true 0#4 c = s.rxbuf.len) := by decide

/-- The epoch at the threshold, one microsecond beyond it, and before the first sample. -/
theorem witness_TssSetResult :
    (∃ now k, ({ State.reset with clock := ⟨0#64, [500#64], 0⟩ } : State).clock.draw = .ok (now, k))
      ∧ TimeRef.reset.epochValid = false ∧ epochTr.epochValid = true
      ∧ epochTr.hostEpoch0.toNat + 4200000000 < (4201000001#64).toNat
      ∧ (4201000000#64).toNat = epochTr.hostEpoch0.toNat + 4200000000 :=
  ⟨⟨_, _, rfl⟩, by decide⟩

theorem witness_TssComputeResult :
    (∃ now k, ({ State.reset with clock := ⟨0#64, [500#64], 0⟩ } : State).clock.draw = .ok (now, k))
      ∧ TimeRef.reset.epochValid = false ∧ epochTr.epochValid = true := ⟨⟨_, _, rfl⟩, by decide⟩

/-- Just after reset, with the counter's start 0; and an epoch of which 4200 s have just passed, or one
microsecond more. -/
theorem witness_TicksFollowDeviceCounter :
    0 < 65536 ∧ State.reset.tr.ticksFollow 0 ∧ (∃ t, exec .tssUpdate State.reset = .next t)
      ∧ epochTr.ticksFollow 0 ∧ epochTr.epochValid = true
      ∧ (∃ t, exec .tssSet { State.reset with
          tr := epochTr, clock := ⟨1350000#64, [4201000000#64], 0⟩ } = .next t
        ∧ t.tr.hostEpochLast.toNat = epochTr.hostEpoch0.toNat + 4200000000)
      ∧ (∃ t, exec .tssSet { State.reset with
          tr := epochTr, clock := ⟨1350000#64, [4201000001#64], 0⟩ } = .next t
        ∧ epochTr.hostEpoch0.toNat + 4200000000 < t.tr.hostEpochLast.toNat)
      ∧ State.reset.tr.epochValid = false
      ∧ ∃ t, exec .tssSet { State.reset with clock := ⟨0#64, [500#64], 0⟩ } = .next t :=
  ⟨by decide, by unfold TimeRef.ticksFollow; decide, ⟨_, rfl⟩, by unfold TimeRef.ticksFollow; decide,
    rfl, ⟨_, rfl, by decide⟩, ⟨_, rfl, by decide⟩, rfl, _, rfl⟩

theorem witness_BusOffLeftOnlyByReset :
    (withRx [2, 1, 0x40, 1, 4] []).bs ≠ .busOff
      ∧ ({ withRx [2, 1, 0x40, 1, 4] [] with bs := .busOff } : State).bs = .busOff
      ∧ Instr.decMessage ≠ .sessionReset
      ∧ (∃ t, exec .decMessage { withRx [2, 1, 0x40, 1, 4] [] with bs := .busOff } = .next t)
      ∧ ∃ t, exec .sessionReset { State.reset with bs := .busOff } = .next t :=
  ⟨by decide, rfl, by decide, ⟨_, rfl⟩, _, rfl⟩

theorem witness_RepeatedFlagsReportOnce :
    let s := { withPort { Operands.reset with flags := 4#8 } with bs := .errorWarning }
    flagOverflow s.tr.sampleCount s.port.flags = false
      ∧ ∃ t u, exec .besProcess s = .next t ∧ exec .besProcess t = .next u ∧ t.bs = s.bs :=
  ⟨by decide, _, _, rfl, rfl, rfl⟩

theorem witness_SessionRegisterOwnership :
    (∃ t, exec .tssCompute State.reset = .next t) ∧ writesTr .tssCompute = false
      ∧ writesBs .tssCompute = false ∧ writesTxSeq .tssCompute = false := ⟨⟨_, rfl⟩, by decide⟩

/-- Every slot of the pool in flight, whatever its size, and an ENC.FRAME that waits alone. -/
theorem witness_OnlyAFullPoolStopsTheMachine :
    let s := waiting { State.reset with txInFlight := List.range Config.txSlots }
      (.present 0x0B#5 Operands.reset []) []
    (∃ f, step s = .fault f) ∧ s.flightOk = true := by
  refine ⟨⟨.encoderStuck, ?_⟩, ?_⟩
  · simp [step, waiting, State.reset, eventTurn, nextEvent, Event.presentsEncode, State.poolFull,
      Config.txSlots]
  · simp [waiting, State.flightOk, isSlot, List.pairwise_lt_range]
    omega

theorem witness_StepKeepsWellFormed :
    let s := waiting State.reset (.present 0x0D#5 Operands.reset [5#64]) []
    s.wf = true ∧ ∃ t, step s = .next t := ⟨by decide, _, rfl⟩

/-- An open pass is well formed too, up to a cursor at the end of RXBUF. -/
theorem witness_StepKeepsWellFormed_inPass :
    (inPass [2, 3, 0x00, 0x20, 0] [] 5 2 0).wf = true
      ∧ ∃ t, step (inPass [2, 3, 0x00, 0x20, 0] [] 5 2 0) = .next t := ⟨by decide, _, rfl⟩

theorem witness_StepsLeaveNothingOpen :
    let s := waiting (withRx [2, 1, 0x00, 0x20, 0] []) (.present 0x0C#5 Operands.reset []) []
    s.betweenOps = true ∧ ∃ t, step s = .next t := ⟨by decide, _, rfl⟩

theorem witness_MemReadAfterWrite :
    Memory.wf [(0, 1#8), (7, 255#8)] = true ∧ (3 < 4 ∨ 4 + 4 ≤ 3) ∧ (8 < 4 ∨ 4 + 4 ≤ 8) := by decide

theorem witness_DeliveriesFillTheirBuffers :
    (waiting State.reset (.deliverRx [1#8]) [0x0C#5]).presents ⟨.deliverRx [1#8], [0x0C#5]⟩ []
      ∧ 0x0C#5 ∈ [0x0C#5] ∧ 0x0C#5 ∉ [0x0B#5]
      ∧ (waiting State.reset (.deliverReply [1#8]) [0x0C#5, 9#5]).presents
          ⟨.deliverReply [1#8], [0x0C#5, 9#5]⟩ []
      ∧ 9#5 ∈ [0x0C#5, 9#5] ∧ (9#5).toNat ∈ [6, 7, 8, 9]
      ∧ ∀ d ∈ [0x0C#5, 0x0A#5], d.toNat ∉ [6, 7, 8, 9] :=
  ⟨⟨rfl, rfl, rfl⟩, by decide, by decide, ⟨rfl, rfl, rfl⟩, by decide, by decide, by decide⟩

end Sys2Proof.Tests
end

section
/-! SUPPORT. The decode tree of R74 read through the masks and matches of the opcode table: what each
mask keeps of the status/length byte `sl` and of the word `w = sl | (functionality << 8)`, one equation
per branch of the decoder, and from the two the statement RecordDecodeFollowsTableMasks. -/

namespace Sys2Proof

/-! ### What a mask keeps -/

/-- The data records' mask keeps bits 6 (INT) and 5 (EXT). -/
theorem and_dataMask (sl : Byte) :
    sl &&& 0x60#8 = (if slInt sl then 0x40#8 else 0#8) ||| (if slExt sl then 0x20#8 else 0#8) :=
  calc sl &&& 0x60#8
      = sl &&& (BitVec.twoPow 8 6 ||| BitVec.twoPow 8 5) := rfl
    _ = (sl &&& BitVec.twoPow 8 6) ||| (sl &&& BitVec.twoPow 8 5) := BitVec.and_or_distrib_left
    _ = _ := by simp only [BitVec.and_twoPow]; rfl

theorem and_dataMask_eq_std_iff (sl : Byte) :
    sl &&& 0x60#8 = 0x00#8 ↔ slInt sl = false ∧ slExt sl = false := by
  rw [and_dataMask]
  cases slInt sl <;> cases slExt sl <;> decide

theorem and_dataMask_eq_ext_iff (sl : Byte) :
    sl &&& 0x60#8 = 0x20#8 ↔ slInt sl = false ∧ slExt sl = true := by
  rw [and_dataMask]
  cases slInt sl <;> cases slExt sl <;> decide

theorem and_intMask_eq_iff (sl : Byte) : sl &&& 0x40#8 = 0x40#8 ↔ slInt sl = true := by
  have hmask : sl &&& 0x40#8 = if slInt sl then 0x40#8 else 0#8 := BitVec.and_twoPow sl 6
  rw [hmask]
  cases slInt sl <;> decide

/-- A word is its functionality byte and its `sl` byte. -/
theorem word_eq_iff (a b c d : Byte) :
    (a ++ b : BitVec 16) = c ++ d ↔ a = c ∧ b = d := by
  refine ⟨fun h => ⟨?_, ?_⟩, by rintro ⟨rfl, rfl⟩; rfl⟩
  · simpa only [BitVec.extractLsb'_append_eq_left] using congrArg (BitVec.extractLsb' 8 8) h
  · simpa only [BitVec.extractLsb'_append_eq_right] using congrArg (BitVec.extractLsb' 0 8) h

/-- A mask over the word `w` is one mask over the functionality and one over `sl`. -/
theorem word_and_eq_iff (f sl mf ms vf vs : Byte) :
    (f ++ sl : BitVec 16) &&& (mf ++ ms) = vf ++ vs ↔ f &&& mf = vf ∧ sl &&& ms = vs := by
  rw [BitVec.and_append, word_eq_iff]

/-- The named internal records' mask and match: the functionality is `g` and INT is set. -/
theorem word_and_namedMask_eq_iff (f sl g : Byte) :
    (f ++ sl : BitVec 16) &&& 0xFF40#16 = g ++ 0x40#8 ↔ f = g ∧ slInt sl = true := by
  have hall : f &&& 0xFF#8 = f := BitVec.and_allOnes
  have hsplit := word_and_eq_iff f sl 0xFF#8 0x40#8 g 0x40#8
  rwa [hall, and_intMask_eq_iff] at hsplit

/-- The mask and match of REC.INT.UNKNOWN: INT is set. -/
theorem word_and_unknownMask_eq_iff (f sl : Byte) :
    (f ++ sl : BitVec 16) &&& 0x0040#16 = 0x0040#16 ↔ slInt sl = true := by
  have hnone : f &&& 0#8 = 0#8 := BitVec.and_zero
  rw [← and_intMask_eq_iff]
  exact (word_and_eq_iff f sl 0#8 0x40#8 0#8 0x40#8).trans (and_iff_right hnone)

/-! ### The branches of the decoder -/

theorem decodeRecord_std {sl : Byte} (hint : slInt sl = false) (hext : slExt sl = false) (f : Byte) :
    decodeRecord sl f = .recDataStd (slTs sl) (slRtr sl) (slLen sl) := by
  simp [decodeRecord, hint, hext]

theorem decodeRecord_ext {sl : Byte} (hint : slInt sl = false) (hext : slExt sl = true) (f : Byte) :
    decodeRecord sl f = .recDataExt (slTs sl) (slRtr sl) (slLen sl) := by
  simp [decodeRecord, hint, hext]

theorem decodeRecord_internal {sl : Byte} (hint : slInt sl = true) (f : Byte) :
    decodeRecord sl f = decodeInternal f sl := by
  simp [decodeRecord, hint]

theorem decodeInternal_error (sl : Byte) :
    decodeInternal 1#8 sl = .recIntError (slTs sl) (slIgn sl) (slLen sl) := rfl

theorem decodeInternal_analog (sl : Byte) :
    decodeInternal 2#8 sl = .recIntAnalog (slTs sl) (slIgn sl) (slLen sl) := rfl

theorem decodeInternal_busload (sl : Byte) :
    decodeInternal 3#8 sl = .recIntBusload (slTs sl) (slIgn sl) (slLen sl) := rfl

theorem decodeInternal_ts (sl : Byte) :
    decodeInternal 4#8 sl = .recIntTs (slTs sl) (slIgn sl) (slLen sl) := rfl

theorem decodeInternal_busevt (sl : Byte) :
    decodeInternal 5#8 sl = .recIntBusevt (slTs sl) (slIgn sl) (slLen sl) := rfl

theorem decodeInternal_unknown {f : Byte} (hf : f ∉ [1#8, 2#8, 3#8, 4#8, 5#8]) (sl : Byte) :
    decodeInternal f sl = .recIntUnknown f (slTs sl) (slIgn sl) (slLen sl) := by
  simp only [List.mem_cons, List.not_mem_nil, or_false, not_or] at hf
  obtain ⟨h1, h2, h3, h4, h5⟩ := hf
  simp only [decodeInternal, h1, h2, h3, h4, h5, if_false]

/-- A word that meets the mask and match of functionality `g` decodes to the record of `g`. -/
theorem decodeRecord_of_namedMask {sl f g : Byte}
    (h : (f ++ sl : BitVec 16) &&& 0xFF40#16 = g ++ 0x40#8) :
    decodeRecord sl f = decodeInternal g sl := by
  obtain ⟨rfl, hint⟩ := (word_and_namedMask_eq_iff f sl g).mp h
  exact decodeRecord_internal hint f

/-- Settles O8: each mask and match selects one branch of the decode tree. -/
theorem recordDecodeFollowsTableMasks : Obligations.RecordDecodeFollowsTableMasks := by
  intro sl f w ts ign len
  refine ⟨fun hstandard => ?_, fun hextended => ?_, fun herror => ?_, fun hanalog => ?_, fun hbusload => ?_,
    fun hts => ?_, fun hbusevt => ?_, fun hunknown hf => ?_⟩
  · obtain ⟨hint, hext⟩ := (and_dataMask_eq_std_iff sl).mp hstandard
    exact decodeRecord_std hint hext f
  · obtain ⟨hint, hext⟩ := (and_dataMask_eq_ext_iff sl).mp hextended
    exact decodeRecord_ext hint hext f
  · exact (decodeRecord_of_namedMask herror).trans (decodeInternal_error sl)
  · exact (decodeRecord_of_namedMask hanalog).trans (decodeInternal_analog sl)
  · exact (decodeRecord_of_namedMask hbusload).trans (decodeInternal_busload sl)
  · exact (decodeRecord_of_namedMask hts).trans (decodeInternal_ts sl)
  · exact (decodeRecord_of_namedMask hbusevt).trans (decodeInternal_busevt sl)
  · have hint := (word_and_unknownMask_eq_iff f sl).mp hunknown
    exact (decodeRecord_internal hint f).trans (decodeInternal_unknown hf sl)

end Sys2Proof
end

section
/-! SUPPORT. Two operations of the command unit: CMD.BUILD (R100), from what a built frame holds at
each offset, and CMD.SEND_SYNC (R109), from the two outcomes of the send step; with them the
statements CmdBuildWritesFrame and CmdSendSyncOutcomes. -/

namespace Sys2Proof.Machine

/-! ### Building a frame -/

/-- A built frame holds nothing but its header bytes, its arguments and zeros (R61, R100). -/
theorem holdsFrame_buildFrame (f n : Byte) (args : List Byte) :
    holdsFrame (buildFrame f n args) f n args := by
  refine ⟨?header0, ?header1, fun i hi => ?arguments, fun k hk => ?tail⟩
  case header0 => simp [buildFrame_read]
  case header1 => simp [buildFrame_read]
  case arguments =>
    have hoffset : 2 + i - 2 = i := Nat.add_sub_cancel_left 2 i
    rw [buildFrame_read, if_neg (by omega), if_neg (by omega), if_pos (by omega), hoffset]
  case tail => rw [buildFrame_read, if_neg (by omega), if_neg (by omega), if_neg (by omega)]

theorem State.cmdBytes_eq (s : State) : s.cmdBytes = s.cmdbuf.bytes 0 16 := rfl

/-- Returning the frame just built writes CMDBUF and the outcome port alone. -/
theorem State.withFrame_finish_bytes (s : State) (f n : Byte) (args : List Byte) :
    (s.withFrame f n args).finish (.bytes (s.withFrame f n args).cmdBytes)
      = { s with
          cmdbuf := buildFrame f n args
          outcome := some (.ok (.bytes ((buildFrame f n args).bytes 0 16))) } := by
  rw [State.cmdBytes_eq, State.withFrame_cmdbuf]
  unfold State.withFrame
  rfl

theorem exec_cmdBuild (s : State) :
    exec .cmdBuild s = .next
      ((s.withFrame s.port.functionality s.port.number s.port.args).finish
        (.bytes (s.withFrame s.port.functionality s.port.number s.port.args).cmdBytes)) := rfl

/-- Settles O13: CMDBUF becomes the built frame, which is canonical and holds each byte of R100. -/
theorem cmdBuildWritesFrame : Obligations.CmdBuildWritesFrame := by
  refine ⟨rfl, fun s => ⟨buildFrame s.port.functionality s.port.number s.port.args, ?_,
    buildFrame_wf .., holdsFrame_buildFrame ..⟩⟩
  rw [exec_cmdBuild, State.withFrame_finish_bytes]

/-! ### Sending without a reply -/

/-- What a send answers without a session: NotConnected, and no call is made (R109, R203). -/
theorem concludeCommand_sendStep_of_unconnected {s : State} (h : s.port.connected = false)
    (g : Unit → Result) :
    concludeCommand (sendStep s) g = { s with outcome := some (.fault .notConnected) } := by
  rw [concludeCommand_eq, sendStep_of_unconnected h]

/-- What a send answers in a session: one call, and the transport's answer in the outcome (R109). -/
theorem concludeCommand_sendStep_of_connected {s : State} (h : s.port.connected = true)
    (g : Unit → Result) :
    concludeCommand (sendStep s) g = { s with
      calls := s.calls ++ [.send (s.cmdbuf.bytes 0 16)]
      outcome := some (match s.port.sendAns with
        | .ok => .ok (g ())
        | .timeout => .fault .timeout
        | .err e => .fault (.transportError e)) } := by
  rw [concludeCommand_eq, sendStep_of_connected h]
  cases s.port.sendAns with
  | ok => rfl
  | timeout => rfl
  | err e => rfl

theorem exec_cmdSendSync (s : State) :
    exec .cmdSendSync s = .next (concludeCommand (sendStep s) fun _ => .done) := rfl

/-- Settles O19: the operation is the send step alone, in and out of a session. -/
theorem cmdSendSyncOutcomes : Obligations.CmdSendSyncOutcomes := by
  refine ⟨rfl, fun s => ⟨fun hunconnected => ?_, fun hconnected => ?_⟩⟩
  · exact (exec_cmdSendSync s).trans
      (congrArg _ (concludeCommand_sendStep_of_unconnected hunconnected _))
  · exact (exec_cmdSendSync s).trans
      (congrArg _ (concludeCommand_sendStep_of_connected hconnected _))

end Sys2Proof.Machine
end

section
/-! SUPPORT. The two absorbing facts of BusOff (R185): BES.PROCESS in it is no transition and no event,
and every instruction but SESSION.RESET keeps it. The second goes by what an instruction can do to
BS.state: a record runs BES.PROCESS at most, a message runs records, and the other operations leave the
register alone. With them the statement BusOffLeftOnlyByReset. -/

namespace Sys2Proof.Machine

/-! ### BES.PROCESS -/

/-- In BusOff a flag byte does nothing at all. -/
theorem besProcess_of_busOff {s : State} (hs : s.bs = .busOff) (flags : Byte) :
    besProcess s flags = (s, none) := by
  have hsame : { s with bs := .busOff } = s := by rw [← hs]
  rw [besProcess_eq, hs, besNext_busOff, hsame]
  rfl

theorem exec_besProcess (s : State) :
    exec .besProcess s
      = .next ((besProcess s s.port.flags).1.finish (.event (besProcess s s.port.flags).2)) := rfl

theorem exec_besProcess_of_busOff {s : State} (hs : s.bs = .busOff) :
    exec .besProcess s = .next { s with outcome := some (.ok (.event none)) } := by
  rw [exec_besProcess, besProcess_of_busOff hs]
  rfl

/-! ### Records -/

/-- A record outside a pass is refused (R26). -/
theorem exec_record_of_closed {i : Instr} {s : State} (hi : i.space = .record) (hdc : s.dc = none) :
    exec i s = .refused .noDecodeContext := by
  have hdata {always ext ts rtr len} :
      runData always ext ts rtr len s = .refused .noDecodeContext := by simp [runData, hdc]
  have hinternal {f ts len effect} :
      runInternal f ts len effect s = .refused .noDecodeContext := by simp [runInternal, hdc]
  cases i with
  | recDataStd | recDataExt => exact hdata
  | recIntError | recIntAnalog | recIntBusload | recIntTs | recIntBusevt | recIntUnknown =>
    exact hinternal
  | _ => cases hi

/-- A record that ran in BusOff left it: its one writer is BES.PROCESS. -/
theorem State.RecordEffect.keeps_busOff {s t : State} {c c' : DecodeCtx}
    (he : s.RecordEffect t c c') (hs : s.bs = .busOff) : t.bs = .busOff := by
  obtain hsame | ⟨flags, hbes⟩ := he.bs
  · exact hsame.trans hs
  · rw [hbes, besProcess_of_busOff hs, hs]

theorem exec_record_keeps_busOff {i : Instr} {s t : State} (hi : i.space = .record)
    (hs : s.bs = .busOff) (h : exec i s = .next t) : t.bs = .busOff := by
  cases hdc : s.dc with
  | none => rw [exec_record_of_closed hi hdc] at h; cases h
  | some c =>
    obtain ⟨off, -, -, habort⟩ | ⟨u, c', hrun, heffect⟩ | ⟨hclock, -⟩ := exec_recordCases hi hdc
    · rw [habort] at h; cases h; exact hs
    · rw [hrun] at h; cases h; exact heffect.keeps_busOff hs
    · rw [hclock] at h; cases h

/-! ### Messages -/

@[simp] theorem State.nextRecord_bs (s : State) (c : DecodeCtx) : (s.nextRecord c).bs = s.bs := by
  unfold State.nextRecord
  split <;> rfl

@[simp] theorem State.openPass_bs (s : State) : s.openPass.bs = s.bs := State.nextRecord_bs ..

theorem recordTurn_keeps_busOff {s t : State} (hs : s.bs = .busOff) (hopen : s.dc ≠ none)
    (h : recordTurn execRecord s = .next t) : t.bs = .busOff := by
  obtain ⟨c, hdc⟩ := Option.ne_none_iff_exists'.mp hopen
  obtain ⟨off, -, -, habort⟩ | ⟨u, c', hrun, heffect⟩ | ⟨hclock, -⟩ := recordTurn_cases hdc
  · rw [habort] at h; cases h; exact hs
  · rw [hrun] at h; cases h
    exact (State.nextRecord_bs ..).trans (heffect.keeps_busOff hs)
  · rw [hclock] at h; cases h

theorem exec_decMessage_keeps_busOff {s t : State} (hs : s.bs = .busOff)
    (h : exec .decMessage s = .next t) : t.bs = .busOff := by
  replace h : execDecMessage s = .next t := h
  unfold execDecMessage at h
  split at h
  case isTrue => cases h; exact hs
  case isFalse =>
    split at h
    case isTrue => cases h; exact hs
    case isFalse =>
      exact runPass_keeps (P := fun u => u.bs = .busOff) (fun _ _ => recordTurn_keeps_busOff) h
        ((State.openPass_bs s).trans hs)

/-! ### The other operations, and the device command frames -/

@[simp] theorem State.conclude_bs {α : Type} (s : State) (g : α → Result) (r : Except OpFault α) :
    (s.conclude g r).bs = s.bs := by rw [State.conclude_eq]

@[simp] theorem concludeCommand_bs {α : Type} (p : State × Except OpFault α) (g : α → Result) :
    (concludeCommand p g).bs = p.1.bs := State.conclude_bs ..

@[simp] theorem sendStep_bs (s : State) : (sendStep s).1.bs = s.bs := by
  obtain ⟨calls, hsent⟩ := sendStep_fst s
  rw [hsent]

@[simp] theorem sendAwait_bs (s : State) : (sendAwait s).1.bs = s.bs := by
  obtain ⟨calls, rpl, hsent, -⟩ := sendAwait_fst s
  rw [hsent]

theorem execCmdSendAsync_bs {s t : State} (h : execCmdSendAsync s = .next t) : t.bs = s.bs := by
  unfold execCmdSendAsync at h
  split at h
  case isTrue => cases h; rfl
  case isFalse => cases h; rfl

theorem execEncFrame_bs {s t : State} (h : execEncFrame s = .next t) : t.bs = s.bs := by
  simp only [execEncFrame] at h
  repeat' split at h
  all_goals cases h
  rfl

theorem execTssSet_bs {s t : State} (h : execTssSet s = .next t) : t.bs = s.bs := by
  unfold execTssSet at h
  split at h
  · cases h
  next u hset =>
    obtain ⟨now, clock, -, rfl⟩ := tssSet_eq_ok hset
    cases h; rfl

theorem execTssCompute_bs {s t : State} (h : execTssCompute s = .next t) : t.bs = s.bs := by
  unfold execTssCompute at h
  split at h
  · cases h
  next time u hcompute =>
    obtain ⟨now, clock, -, -, rfl⟩ := tssCompute_eq_ok hcompute
    cases h; rfl

/-- Outside the records, an instruction that is not among the writers of BS.state (R29) leaves it. -/
theorem exec_bs_of_not_record {i : Instr} {s t : State} (hrecord : i.space ≠ .record)
    (hwrites : writesBs i = false) (h : exec i s = .next t) : t.bs = s.bs := by
  cases i with
  | sessionReset | decMessage | besProcess => cases hwrites
  | recDataStd | recDataExt | recIntError | recIntAnalog | recIntBusload | recIntTs | recIntBusevt
  | recIntUnknown => exact absurd rfl hrecord
  | cmdSendAsync => exact execCmdSendAsync_bs h
  | encFrame => exact execEncFrame_bs h
  | tssSet => exact execTssSet_bs h
  | tssCompute => exact execTssCompute_bs h
  | tssUpdate | cmdBtr => cases h; rfl
  | cmdBuild | cmdSetbtr | cmdParse | cmdPreset | cmdSendSync | cmdSendAwait | cmdGetsn | cmdGetdevid
  | devcmdSetBitrate | devcmdGetSerial | devcmdGetDevid => cases h; simp

/-! ### Every instruction -/

theorem exec_keeps_busOff {i : Instr} {s t : State} (hi : i ≠ .sessionReset) (hs : s.bs = .busOff)
    (h : exec i s = .next t) : t.bs = .busOff := by
  by_cases hrecord : i.space = .record
  · exact exec_record_keeps_busOff hrecord hs h
  cases hwrites : writesBs i with
  | false => exact (exec_bs_of_not_record hrecord hwrites h).trans hs
  | true =>
    cases i with
    | sessionReset => exact absurd rfl hi
    | decMessage => exact exec_decMessage_keeps_busOff hs h
    | besProcess => rw [exec_besProcess_of_busOff hs] at h; cases h; exact hs
    | recIntError => exact absurd rfl hrecord
    | _ => cases hwrites

theorem exec_sessionReset_bs {s t : State} (h : exec .sessionReset s = .next t) :
    t.bs = .errorActive := by
  cases h
  rfl

/-- Settles O52: BusOff absorbs every flag byte and every instruction but the reset. -/
theorem busOffLeftOnlyByReset : Obligations.BusOffLeftOnlyByReset :=
  ⟨fun _ => exec_besProcess_of_busOff, fun _ _ _ => exec_keeps_busOff,
    fun _ _ => exec_sessionReset_bs⟩

end Sys2Proof.Machine
end

section
/-! SUPPORT. Which instruction raises which fault (R200), said once over all instructions: whatever
leaves a fault on the outcome port raised it itself, and then the table of R200 names it, or found it
there. With it the statements InvalidArgumentOnlyForUnknownPresets (R202) and OutOfMemorySubmitsNothing
(R204). -/

namespace Sys2Proof.Machine

/-! ### The table of R200 -/

/-- FramingError, whatever it records. -/
def OpFault.isFraming : OpFault → Bool
  | .framing _ _ => true
  | .invalidArgument | .notConnected | .outOfMemory | .timeout | .transportError _ => false

/-- The faults of the command channel itself (R203, R205, R207). -/
def OpFault.isChannel : OpFault → Bool
  | .notConnected | .timeout | .transportError _ => true
  | .framing _ _ | .invalidArgument | .outOfMemory => false

/-- The column "raised by" of R200. A record raises what its DEC.MESSAGE does, and a device command
frame what the command that sends it does. -/
def mayRaise : Instr → OpFault → Bool
  | .decMessage, f | .cmdParse, f => f.isFraming
  | .recDataStd _ _ _, f | .recDataExt _ _ _, f | .recIntError _ _ _, f | .recIntAnalog _ _ _, f
  | .recIntBusload _ _ _, f | .recIntTs _ _ _, f | .recIntBusevt _ _ _, f
  | .recIntUnknown _ _ _ _, f => f.isFraming
  | .cmdPreset, f => f == .invalidArgument
  | .cmdSendAsync, f => f == .outOfMemory
  | .cmdSendSync, f | .devcmdSetBitrate, f => f.isChannel
  | .cmdSendAwait, f | .cmdGetsn, f | .cmdGetdevid, f | .devcmdGetSerial, f | .devcmdGetDevid, f =>
    f.isChannel || f.isFraming
  | .sessionReset, _ | .cmdBuild, _ | .cmdBtr, _ | .cmdSetbtr, _ | .encFrame, _ | .tssSet, _
  | .tssUpdate, _ | .tssCompute, _ | .besProcess, _ => false

theorem mayRaise_of_record {i : Instr} (hi : i.space = .record) (f : OpFault) :
    mayRaise i f = f.isFraming := by
  cases i with
  | recDataStd | recDataExt | recIntError | recIntAnalog | recIntBusload | recIntTs | recIntBusevt
  | recIntUnknown => rfl
  | _ => cases hi

theorem mayRaise_invalidArgument_iff (i : Instr) :
    mayRaise i .invalidArgument = true ↔ i = .cmdPreset := by
  cases i <;> simp [mayRaise, OpFault.isFraming, OpFault.isChannel]

theorem mayRaise_outOfMemory_iff (i : Instr) :
    mayRaise i .outOfMemory = true ↔ i = .cmdSendAsync := by
  cases i <;> simp [mayRaise, OpFault.isFraming, OpFault.isChannel]

/-! ### The faults of the command unit -/

theorem State.conclude_outcome_eq_fault_iff {α : Type} {s : State} {g : α → Result}
    {r : Except OpFault α} {f : OpFault} :
    (s.conclude g r).outcome = some (.fault f) ↔ r = .error f := by
  cases r <;> simp [State.conclude]

theorem concludeCommand_outcome_eq_fault_iff {α : Type} {p : State × Except OpFault α}
    {g : α → Result} {f : OpFault} :
    (concludeCommand p g).outcome = some (.fault f) ↔ p.2 = .error f :=
  State.conclude_outcome_eq_fault_iff

theorem parseReply_eq_error {b : Buffer} {f : OpFault} (h : parseReply b = .error f) :
    f.isFraming = true := by
  unfold parseReply at h
  split at h
  case isTrue => cases h
  case isFalse => cases h; rfl

theorem sendStep_eq_error {s : State} {f : OpFault} (h : (sendStep s).2 = .error f) :
    f.isChannel = true := by
  cases hconnected : s.port.connected with
  | false => rw [sendStep_of_unconnected hconnected] at h; cases h; rfl
  | true =>
    rw [sendStep_of_connected hconnected] at h
    cases hans : s.port.sendAns with
    | ok => simp [hans] at h
    | timeout => simp only [hans] at h; cases h; rfl
    | err e => simp only [hans] at h; cases h; rfl

theorem receiveStep_eq_error {s : State} {f : OpFault} (h : (receiveStep s).2 = .error f) :
    (f.isChannel || f.isFraming) = true := by
  unfold receiveStep at h
  split at h
  · cases h; rfl
  · cases h; rfl
  · rw [parseReply_eq_error h, Bool.or_true]

theorem sendAwait_eq_error {s : State} {f : OpFault} (h : (sendAwait s).2 = .error f) :
    (f.isChannel || f.isFraming) = true := by
  unfold sendAwait at h
  split at h
  · exact receiveStep_eq_error h
  next t g hsent =>
    cases h
    rw [sendStep_eq_error (congrArg Prod.snd hsent), Bool.true_or]

/-- The nine bitrates of R103. -/
def presetRates : List Nat := [1000000, 500000, 250000, 125000, 100000, 50000, 20000, 10000, 5000]

theorem presetTable_lookup_eq_none_iff {n : Nat} : presetTable.lookup n = none ↔ n ∉ presetRates := by
  simp [List.lookup_eq_none_iff, presetTable, presetRates]

theorem presetOf_eq_error_iff {bps : BitVec 32} {f : OpFault} :
    presetOf bps = .error f ↔ f = .invalidArgument ∧ bps.toNat ∉ presetRates := by
  rw [← presetTable_lookup_eq_none_iff]
  cases hfound : presetTable.lookup bps.toNat with
  | none => simp [presetOf, hfound, eq_comm]
  | some p => simp [presetOf, hfound]

theorem exec_cmdPreset (s : State) :
    exec .cmdPreset s = .next (s.conclude (fun p => .btr p.1 p.2) (presetOf s.port.bps)) := rfl

theorem exec_cmdPreset_of_unknown {s : State} (h : s.port.bps.toNat ∉ presetRates) :
    exec .cmdPreset s = .next { s with outcome := some (.fault .invalidArgument) } := by
  rw [exec_cmdPreset, presetOf_eq_error_iff.mpr ⟨rfl, h⟩]
  rfl

theorem exec_cmdSendAsync_of_allocFailed {s : State} (h : s.port.allocOk = false) :
    exec .cmdSendAsync s = .next { s with outcome := some (.fault .outOfMemory) } := by
  have hexec : exec .cmdSendAsync s = execCmdSendAsync s := rfl
  rw [hexec, execCmdSendAsync, h]
  rfl

theorem execCmdSendAsync_outcome_eq_fault {s t : State} {f : OpFault}
    (h : execCmdSendAsync s = .next t) (hf : t.outcome = some (.fault f)) : f = .outOfMemory := by
  unfold execCmdSendAsync at h
  split at h
  case isTrue => cases h; cases hf
  case isFalse => cases h; cases hf; rfl

/-! ### The operations that never fault -/

theorem execEncFrame_outcome_ne_fault {s t : State} (h : execEncFrame s = .next t) (f : OpFault) :
    t.outcome ≠ some (.fault f) := by
  simp only [execEncFrame] at h
  repeat' split at h
  all_goals cases h
  simp

theorem execTssSet_outcome_ne_fault {s t : State} (h : execTssSet s = .next t) (f : OpFault) :
    t.outcome ≠ some (.fault f) := by
  unfold execTssSet at h
  split at h
  · cases h
  · cases h; simp

theorem execTssCompute_outcome_ne_fault {s t : State} (h : execTssCompute s = .next t)
    (f : OpFault) : t.outcome ≠ some (.fault f) := by
  unfold execTssCompute at h
  split at h
  · cases h
  · cases h; simp

/-! ### Records and messages -/

/-- Going to the next record raises nothing; ending the pass is `Ok`. -/
theorem State.nextRecord_outcome_eq_fault {s : State} {c : DecodeCtx} {f : OpFault}
    (hf : (s.nextRecord c).outcome = some (.fault f)) : s.outcome = some (.fault f) := by
  unfold State.nextRecord at hf
  split at hf
  case isTrue => exact hf
  case isFalse => cases hf

/-- The state holds no fault but FramingError and what the port held before, in `s`. -/
def State.RaisedOnlyFraming (s t : State) : Prop :=
  ∀ f, t.outcome = some (.fault f) → s.outcome = some (.fault f) ∨ f.isFraming = true

theorem State.raisedOnlyFraming_abortPass (s u : State) (rec off : Nat) :
    s.RaisedOnlyFraming (u.abortPass (.framing rec off)) := by
  intro f hf
  cases hf
  exact .inr rfl

theorem exec_record_raisesOnlyFraming {i : Instr} {s t : State} (hi : i.space = .record)
    (h : exec i s = .next t) : s.RaisedOnlyFraming t := by
  cases hdc : s.dc with
  | none => rw [exec_record_of_closed hi hdc] at h; cases h
  | some c =>
    obtain ⟨off, -, -, habort⟩ | ⟨u, c', hrun, heffect⟩ | ⟨hclock, -⟩ := exec_recordCases hi hdc
    · rw [habort] at h; cases h; exact s.raisedOnlyFraming_abortPass s _ _
    · rw [hrun] at h; cases h
      exact fun f hf => .inl (heffect.outcome ▸ hf)
    · rw [hclock] at h; cases h

theorem recordTurn_keeps_raisedOnlyFraming {s u t : State} (hu : s.RaisedOnlyFraming u)
    (hopen : u.dc ≠ none) (h : recordTurn execRecord u = .next t) : s.RaisedOnlyFraming t := by
  obtain ⟨c, hdc⟩ := Option.ne_none_iff_exists'.mp hopen
  obtain ⟨off, -, -, habort⟩ | ⟨v, c', hrun, heffect⟩ | ⟨hclock, -⟩ := recordTurn_cases hdc
  · rw [habort] at h; cases h; exact s.raisedOnlyFraming_abortPass u _ _
  · rw [hrun] at h; cases h
    exact fun f hf => hu f (heffect.outcome ▸ State.nextRecord_outcome_eq_fault hf)
  · rw [hclock] at h; cases h

theorem exec_decMessage_raisesOnlyFraming {s t : State} (h : exec .decMessage s = .next t) :
    s.RaisedOnlyFraming t := by
  replace h : execDecMessage s = .next t := h
  unfold execDecMessage at h
  split at h
  case isTrue => cases h; exact nofun
  case isFalse =>
    split at h
    case isTrue =>
      cases h
      intro f hf
      cases hf
      exact .inr rfl
    case isFalse =>
      have hheader : s.RaisedOnlyFraming s.openPass :=
        fun f hf => .inl
          (State.nextRecord_outcome_eq_fault (s := { s with items := [] }) hf)
      exact runPass_keeps (P := s.RaisedOnlyFraming)
        (fun _ _ => recordTurn_keeps_raisedOnlyFraming) h hheader

/-! ### Every instruction -/

/-- A host operation but DEC.MESSAGE, or a device command frame, that ends in a fault raised it. -/
theorem mayRaise_of_exec {i : Instr} {s t : State} {f : OpFault} (hrecord : i.space ≠ .record)
    (hmessage : i ≠ .decMessage) (h : exec i s = .next t) (hf : t.outcome = some (.fault f)) :
    mayRaise i f = true := by
  cases i with
  | decMessage => exact absurd rfl hmessage
  | recDataStd | recDataExt | recIntError | recIntAnalog | recIntBusload | recIntTs | recIntBusevt
  | recIntUnknown => exact absurd rfl hrecord
  | sessionReset | cmdBuild | cmdBtr | cmdSetbtr | tssUpdate | besProcess => cases h; cases hf
  | encFrame => exact absurd hf (execEncFrame_outcome_ne_fault h f)
  | tssSet => exact absurd hf (execTssSet_outcome_ne_fault h f)
  | tssCompute => exact absurd hf (execTssCompute_outcome_ne_fault h f)
  | cmdParse => cases h; exact parseReply_eq_error (State.conclude_outcome_eq_fault_iff.mp hf)
  | cmdPreset =>
    cases h
    obtain ⟨rfl, -⟩ := presetOf_eq_error_iff.mp (State.conclude_outcome_eq_fault_iff.mp hf)
    rfl
  | cmdSendAsync => rw [execCmdSendAsync_outcome_eq_fault h hf]; rfl
  | cmdSendSync | devcmdSetBitrate =>
    cases h; exact sendStep_eq_error (concludeCommand_outcome_eq_fault_iff.mp hf)
  | cmdSendAwait | cmdGetsn | cmdGetdevid | devcmdGetSerial | devcmdGetDevid =>
    cases h; exact sendAwait_eq_error (concludeCommand_outcome_eq_fault_iff.mp hf)

/-- A fault on the outcome port stood there before, or is one that R200 lets the instruction raise. -/
theorem outcome_eq_fault_or_mayRaise_of_exec {i : Instr} {s t : State} {f : OpFault}
    (h : exec i s = .next t) (hf : t.outcome = some (.fault f)) :
    s.outcome = some (.fault f) ∨ mayRaise i f = true := by
  by_cases hrecord : i.space = .record
  · rw [mayRaise_of_record hrecord]
    exact exec_record_raisesOnlyFraming hrecord h f hf
  by_cases hmessage : i = .decMessage
  · subst hmessage
    exact exec_decMessage_raisesOnlyFraming h f hf
  · exact .inr (mayRaise_of_exec hrecord hmessage h hf)

/-- What R200 does not let an instruction raise, it does not raise. -/
theorem exec_outcome_ne_fault {i : Instr} {s t : State} {f : OpFault} (hraise : mayRaise i f ≠ true)
    (h : exec i s = .next t) (hs : s.outcome ≠ some (.fault f)) : t.outcome ≠ some (.fault f) :=
  fun hf => (outcome_eq_fault_or_mayRaise_of_exec h hf).elim hs hraise

theorem exec_cmdBtr_outcome_ne_fault {s t : State} (h : exec .cmdBtr s = .next t) (f : OpFault) :
    t.outcome ≠ some (.fault f) := by
  cases h
  exact nofun

theorem exec_cmdPreset_outcome_ne_fault {s t : State} (h : exec .cmdPreset s = .next t)
    (hbps : s.port.bps.toNat ∈ presetRates) (f : OpFault) :
    t.outcome ≠ some (.fault f) := by
  cases h
  intro hf
  obtain ⟨-, hunknown⟩ := presetOf_eq_error_iff.mp (State.conclude_outcome_eq_fault_iff.mp hf)
  exact hunknown hbps

/-- Settles O17: CMD.PRESET is the one instruction that R200 lets raise InvalidArgument, and it does
so exactly outside the preset table. -/
theorem invalidArgumentOnlyForUnknownPresets : Obligations.InvalidArgumentOnlyForUnknownPresets := by
  refine ⟨fun s => exec_cmdPreset_of_unknown, fun s t h => exec_cmdBtr_outcome_ne_fault h _,
    fun i s t h hpreset hs => ?_⟩
  by_cases hi : i = .cmdPreset
  · subst hi
    exact exec_cmdPreset_outcome_ne_fault h (hpreset rfl) _
  · exact exec_outcome_ne_fault (mt (mayRaise_invalidArgument_iff i).mp hi) h hs

/-- Settles O24: a failed allocation writes the outcome port alone, and CMD.SEND_ASYNC is the one
instruction that R200 lets raise OutOfMemory. -/
theorem outOfMemorySubmitsNothing : Obligations.OutOfMemorySubmitsNothing :=
  ⟨fun _ => exec_cmdSendAsync_of_allocFailed, fun i _ _ hi =>
    exec_outcome_ne_fault (mt (mayRaise_outOfMemory_iff i).mp hi)⟩

end Sys2Proof.Machine
end

section
/-! SUPPORT. Decode and encode are inverse to each other: the fields of a status/length byte put together
from its bits and taken apart again (R63), and from them the round trips of the three spaces (R74, R81,
R85), in both directions. -/

namespace Sys2Proof

/-! ### The status/length byte, put together and taken apart -/

/-- The four fields of a data record's status/length byte. -/
@[simp] theorem encodeDataSl_bits : ∀ (ts ext rtr : Bool) (len : BitVec 4),
    slTs (encodeDataSl ts ext rtr len) = ts ∧ slInt (encodeDataSl ts ext rtr len) = false
      ∧ slExt (encodeDataSl ts ext rtr len) = ext ∧ slRtr (encodeDataSl ts ext rtr len) = rtr
      ∧ slLen (encodeDataSl ts ext rtr len) = len := by decide

/-- The three fields of an internal record's status/length byte. -/
@[simp] theorem encodeIntSl_bits : ∀ (ts : Bool) (ign : BitVec 2) (len : BitVec 4),
    slTs (encodeIntSl ts ign len) = ts ∧ slInt (encodeIntSl ts ign len) = true
      ∧ slIgn (encodeIntSl ts ign len) = ign ∧ slLen (encodeIntSl ts ign len) = len := by decide

/-- A status/length byte with bit 6 clear is its four fields. -/
theorem encodeDataSl_fields {sl : Byte} (hint : slInt sl = false) :
    encodeDataSl (slTs sl) (slExt sl) (slRtr sl) (slLen sl) = sl := by
  have key : ∀ b : Byte, slInt b = false →
      encodeDataSl (slTs b) (slExt b) (slRtr b) (slLen b) = b := by decide
  exact key sl hint

/-- A status/length byte with bit 6 set is its three fields. -/
theorem encodeIntSl_fields {sl : Byte} (hint : slInt sl = true) :
    encodeIntSl (slTs sl) (slIgn sl) (slLen sl) = sl := by
  have key : ∀ b : Byte, slInt b = true → encodeIntSl (slTs b) (slIgn b) (slLen b) = b := by decide
  exact key sl hint

/-! ### From an instruction to its bytes and back -/

/-- A data record decodes from its status/length byte, whatever follows. -/
theorem decode_dataSl (ts ext rtr : Bool) (len : BitVec 4) (rest : List Byte) :
    decode .record (encodeDataSl ts ext rtr len :: rest)
      = .ok (if ext then .recDataExt ts rtr len else .recDataStd ts rtr len) := by
  cases rest <;> simp [decode, decodeRecord]

/-- An internal record decodes by its functionality byte. -/
theorem decode_intSl (f : Byte) (ts : Bool) (ign : BitVec 2) (len : BitVec 4) (rest : List Byte) :
    decode .record (encodeIntSl ts ign len :: f :: rest)
      = .ok (decodeInternal f (encodeIntSl ts ign len)) := by
  simp [decode, decodeRecord]

theorem wf_recIntUnknown_iff {f : Byte} {ts : Bool} {ign : BitVec 2} {len : BitVec 4} :
    (Instr.recIntUnknown f ts ign len).wf = true ↔ f ∉ [1#8, 2#8, 3#8, 4#8, 5#8] := by
  simp [Instr.wf, and_assoc]

/-- Settles O6: the operations and the command frames by their codes, the records by their fields. -/
theorem decodeEncodeAllInstructions : Obligations.DecodeEncodeAllInstructions := by
  intro i rest hwf
  cases i with
  | recDataStd ts rtr len => exact decode_dataSl ts false rtr len rest
  | recDataExt ts rtr len => exact decode_dataSl ts true rtr len rest
  | recIntError ts ign len | recIntAnalog ts ign len | recIntBusload ts ign len
  | recIntTs ts ign len | recIntBusevt ts ign len =>
    exact (decode_intSl _ ts ign len rest).trans (by simp [decodeInternal])
  | recIntUnknown f ts ign len =>
    refine (decode_intSl f ts ign len rest).trans ?_
    rw [decodeInternal_unknown (wf_recIntUnknown_iff.mp hwf)]
    simp
  | _ => rfl

/-! ### From a record's bytes to the record and back -/

/-- An internal record encodes back to its two bytes, and is well formed. -/
theorem encode_decodeInternal {sl : Byte} (hint : slInt sl = true) (f : Byte) :
    (decodeInternal f sl).wf = true ∧ encode (decodeInternal f sl) = [sl, f] := by
  by_cases hf : f ∈ [1#8, 2#8, 3#8, 4#8, 5#8]
  · simp only [List.mem_cons, List.not_mem_nil, or_false] at hf
    rcases hf with rfl | rfl | rfl | rfl | rfl <;>
      exact ⟨rfl, congrArg (fun b => [b, _]) (encodeIntSl_fields hint)⟩
  · rw [decodeInternal_unknown hf]
    exact ⟨wf_recIntUnknown_iff.mpr hf, congrArg (fun b => [b, f]) (encodeIntSl_fields hint)⟩

/-- A data record encodes back to its status/length byte, and is well formed. -/
theorem encode_decodeRecord_data {sl : Byte} (hint : slInt sl = false) (f : Byte) :
    (decodeRecord sl f).wf = true ∧ encode (decodeRecord sl f) = [sl] := by
  have hfields := encodeDataSl_fields hint
  cases hext : slExt sl with
  | false => rw [decodeRecord_std hint hext, ← hfields, hext]; simp [Instr.wf, encode]
  | true => rw [decodeRecord_ext hint hext, ← hfields, hext]; simp [Instr.wf, encode]

/-- Settles O7: bit 6 tells the two forms apart, and each form is its fields. -/
theorem recordWordsEncodeBack : Obligations.RecordWordsEncodeBack := by
  intro sl f
  change (decodeRecord sl f).wf = true ∧ encode (decodeRecord sl f) = if slInt sl then [sl, f] else [sl]
  cases hint : slInt sl with
  | false => exact encode_decodeRecord_data hint f
  | true => rw [decodeRecord_internal hint]; exact encode_decodeInternal hint f

/-- Settles O5: the seventeen operation codes one by one, then the records and the command frames. -/
theorem sampleWordsDecode : Obligations.SampleWordsDecode := by
  refine ⟨by decide, ?_⟩
  decide

end Sys2Proof
end

section
/-! SUPPORT. The memory primitives read back what was written (R47), and a delivery fills its buffer
whole (R40, R51). -/

namespace Sys2Proof.Machine

/-! ### Assembling bytes -/

/-- The bytes of a number, assembled from its low end, give the number modulo the width. -/
theorem Memory.memRead_of_bytes {m : Memory} {a n v : Nat}
    (h : ∀ i < n, m.read (a + i) = BitVec.ofNat 8 (v / 256 ^ i)) : m.memRead a n = v % 256 ^ n := by
  induction n generalizing a v with
  | zero => simp [Memory.memRead, Nat.mod_one]
  | succ n ih =>
    have hlow : m.read a = BitVec.ofNat 8 v := by simpa using h 0 (by omega)
    have hhigh : m.memRead (a + 1) n = v / 256 % 256 ^ n := ih fun i hi => by
      rw [Nat.div_div_eq_div_mul, ← pow_succ', ← h (i + 1) (by omega), Nat.add_right_comm, Nat.add_assoc]
    have hsplit : v % 256 ^ (n + 1) = v % 256 + 256 * (v / 256 % 256 ^ n) := by
      rw [pow_succ', Nat.mod_mul]
    rw [Memory.memRead, hlow, hhigh, hsplit, BitVec.toNat_ofNat]

/-- Settles O59: read after write, byte by byte. -/
theorem memReadAfterWrite : Obligations.MemReadAfterWrite := by
  intro m a n v hwf
  refine ⟨Memory.memWrite_wf a n v hwf, Memory.memRead_of_bytes fun i hi => ?_, fun k hk => ?_⟩
  · rw [Memory.read_memWrite hwf, if_pos (by omega), Nat.add_sub_cancel_left]
  · rw [Memory.read_memWrite hwf, if_neg (by omega)]

/-! ### Buffers as lists of bytes -/

theorem Memory.bytes_length (m : Memory) (a n : Nat) : (m.bytes a n).length = n := by
  simp [Memory.bytes]

theorem Memory.bytes_getElem (m : Memory) (a n i : Nat) (h : i < (m.bytes a n).length) :
    (m.bytes a n)[i] = m.read (a + i) := by
  simp [Memory.bytes]

/-- A buffer filled from offset 0 holds what filled it, from any offset on. -/
theorem Buffer.ofBytes_bytes_from (bs : List Byte) (a : Nat) :
    (Buffer.ofBytes bs).mem.bytes a (bs.length - a) = bs.drop a := by
  refine List.ext_getElem (by simp [Memory.bytes_length]) fun i h1 h2 => ?_
  rw [Memory.bytes_getElem, Buffer.ofBytes_read, List.getElem_drop]
  simp only [List.length_drop] at h2
  simp [List.getD, List.getElem?_eq_getElem (show a + i < bs.length by omega)]

theorem Buffer.ofBytes_bytes (bs : List Byte) : (Buffer.ofBytes bs).bytes = bs :=
  Buffer.ofBytes_bytes_from bs 0

/-! ### Steps of one event -/

/-- The first event happens, unless it is an ENC.FRAME that a full pool keeps waiting. -/
theorem State.presents.step_eq {s : State} {e : Event} {rest : List Event} (h : s.presents e rest)
    (hw : (e.presentsEncode && s.poolFull) = false) :
    step s = takeEvent { s with events := rest } e := by
  obtain ⟨hdc, hcommand, hevents⟩ := h
  exact step_of_head hdc hcommand hevents hw

/-- The codes of R107. -/
theorem isSyncCommand_iff : ∀ op : BitVec 5, isSyncCommand op = true ↔ op.toNat ∈ [6, 7, 8, 9] := by
  decide

theorem deliverRx_of_decoding {during : List (BitVec 5)} (h : 0x0C#5 ∈ during) (s : State)
    (bs : List Byte) : deliverRx s during bs = .refused .rxRewritten := by
  simp [deliverRx, h]

theorem deliverRx_of_idle {during : List (BitVec 5)} (h : 0x0C#5 ∉ during) (s : State)
    (bs : List Byte) : deliverRx s during bs = .next { s with rxbuf := Buffer.ofBytes bs } := by
  simp [deliverRx, h, rxFits, Config.rxMax]

theorem deliverReply_of_command {during : List (BitVec 5)} {d : BitVec 5} (hd : d ∈ during)
    (h : d.toNat ∈ [6, 7, 8, 9]) (s : State) (bs : List Byte) :
    deliverReply s during bs = .refused .replyRewritten := by
  have hany : during.any isSyncCommand = true :=
    List.any_eq_true.mpr ⟨d, hd, (isSyncCommand_iff d).mpr h⟩
  simp only [deliverReply, hany, if_true]

theorem deliverReply_of_idle {during : List (BitVec 5)} (h : ∀ d ∈ during, d.toNat ∉ [6, 7, 8, 9])
    (s : State) (bs : List Byte) :
    deliverReply s during bs = .next { s with rplbuf := Buffer.ofBytes bs } := by
  have hany : ¬ during.any isSyncCommand = true := fun hany => by
    obtain ⟨d, hd, hsync⟩ := List.any_eq_true.mp hany
    exact h d hd ((isSyncCommand_iff d).mp hsync)
  simp only [deliverReply, if_neg hany]

/-- Settles O60: each delivery is refused during its owner, and else is `Buffer.ofBytes`. -/
theorem deliveriesFillTheirBuffers : Obligations.DeliveriesFillTheirBuffers := by
  refine fun s bs during rest => ⟨fun hrx => ?_, fun hreply => ?_⟩
  · have hstep : step s = deliverRx { s with events := rest } during bs := hrx.step_eq rfl
    exact ⟨fun hd => hstep.trans (deliverRx_of_decoding hd _ bs), fun hd => ⟨.ofBytes bs,
      hstep.trans (deliverRx_of_idle hd _ bs), Buffer.ofBytes_wf bs, Buffer.ofBytes_bytes bs, rfl⟩⟩
  · have hstep : step s = deliverReply { s with events := rest } during bs := hreply.step_eq rfl
    exact ⟨fun d hd hsync => hstep.trans (deliverReply_of_command hd hsync _ bs), fun hidle =>
      ⟨.ofBytes bs, hstep.trans (deliverReply_of_idle hidle _ bs), Buffer.ofBytes_wf bs,
        Buffer.ofBytes_bytes bs, rfl⟩⟩

end Sys2Proof.Machine
end

section
/-! SUPPORT. What one step of the machine does: the operation the host presents and the duties checked
before it (R6, R85, R86, R107, R230, R236), the record at the cursor (R133), the outstanding frame
(R81), the transport's completions and submissions (R51, R111, R238), and the one stop of the machine
(R238). -/

namespace Sys2Proof.Machine

/-! ### A presented operation -/

/-- An operation whose turn it is: an ENC.FRAME only while a transmit slot is free (R238). -/
theorem State.presents.step_eq_presentOp {s : State} {op : BitVec 5} {x : Operands}
    {now : List Instant} {during : List (BitVec 5)} {rest : List Event}
    (h : s.presents ⟨.present op x now, during⟩ rest)
    (hfree : op = 0x0B#5 → s.txInFlight.length < Config.txSlots) :
    step s = presentOp { s with events := rest } during op x now := by
  refine h.step_eq (Bool.eq_false_iff.mpr fun hw => ?_)
  obtain ⟨hop, hfull⟩ := Bool.and_eq_true_iff.mp hw
  have hlen := (State.poolFull_iff s).mp hfull
  exact absurd (hfree (beq_iff_eq.mp hop)) (by omega)

theorem presentOp_of_duties {s : State} {during : List (BitVec 5)} {op : BitVec 5} {x : Operands}
    {now : List Instant} {i : Instr} (hduties : ∀ d ∈ during, conflicts op d = false)
    (hop : decodeOp op = .ok i) : presentOp s during op x now = exec i (s.accept x now) := by
  have hany : during.any (conflicts op) = false := List.any_eq_false.mpr fun d hd => by
    simp [hduties d hd]
  simp only [presentOp, hany, hop, Bool.false_eq_true, if_false]

theorem presentOp_of_conflict {s : State} {during : List (BitVec 5)} {op d : BitVec 5} {x : Operands}
    {now : List Instant} (hd : d ∈ during) (hconflict : conflicts op d = true) :
    presentOp s during op x now = .refused .notSerialized := by
  have hany : during.any (conflicts op) = true := List.any_eq_true.mpr ⟨d, hd, hconflict⟩
  simp only [presentOp, hany, if_true]

theorem presentOp_of_reserved {s : State} {op : BitVec 5} {x : Operands} {now : List Instant}
    {r : Reject} (hop : decodeOp op = .error r) : presentOp s [] op x now = .refused .reservedOp := by
  simp [presentOp, hop]

/-- Settles O1: with its turn come and its duties kept, the presented operation is run. -/
theorem stepRunsPresentedOperation : Obligations.StepRunsPresentedOperation :=
  fun _ _ _ _ _ _ _ hpresents hduties hfree hop =>
    (hpresents.step_eq_presentOp hfree).trans (presentOp_of_duties hduties hop)

/-- The codes of R86 decode to nothing. -/
theorem decodeOp_reserved : ∀ op : BitVec 5, 0x11 ≤ op.toNat → decodeOp op = .error .reservedOp := by
  decide

/-- Settles O9: a reserved code is none that waits, and decodes to nothing. -/
theorem reservedOpCodesRefused : Obligations.ReservedOpCodesRefused := by
  intro s op x now rest hpresents hreserved
  have hnot : op ≠ 0x0B#5 := by rintro rfl; exact absurd hreserved (by decide)
  exact (hpresents.step_eq_presentOp (absurd · hnot)).trans
    (presentOp_of_reserved (decodeOp_reserved op hreserved))

/-! ### The host's duties -/

/-- The pairs of R107, R236 and R230, by their codes. -/
theorem conflicts_iff : ∀ op d : BitVec 5, conflicts op d = true ↔
    (op.toNat ∈ [1, 5, 6, 7, 8, 9] ∧ d.toNat ∈ [6, 7, 8, 9]
      ∨ op.toNat ∈ [0, 12, 13, 14, 16] ∧ d.toNat ∈ [0, 12, 13, 14, 16]
      ∨ op.toNat = 15 ∧ d.toNat ∈ [0, 12, 13, 14, 16]
      ∨ op.toNat ∈ [0, 12, 13, 14, 16] ∧ d.toNat = 15
      ∨ op.toNat = 0) := by
  decide

/-- ENC.FRAME conflicts with nothing. -/
theorem ne_encFrame_of_conflicts {op d : BitVec 5} (h : conflicts op d = true) : op ≠ 0x0B#5 := by
  rintro rfl
  simp [conflicts_iff] at h

/-- CMD.PARSE, CMD.BTR, CMD.PRESET, CMD.SEND_ASYNC and ENC.FRAME conflict with nothing. -/
theorem conflicts_of_free {op : BitVec 5} (h : op.toNat ∈ [2, 3, 4, 10, 11]) (d : BitVec 5) :
    conflicts op d = false := by
  refine Bool.eq_false_iff.mpr fun hc => ?_
  simp only [conflicts_iff, List.mem_cons, List.not_mem_nil, or_false] at h hc
  omega

/-- Settles O10: the conflicting pairs are those of `conflicts_iff`, and the five free operations are
in none. -/
theorem overlappingOperationsRefused : Obligations.OverlappingOperationsRefused := by
  refine fun s op x now during rest hpresents => ⟨fun d hd hpair => ?_, fun i hfree hop => ?_⟩
  · have hconflict := (conflicts_iff op d).mpr hpair
    exact (hpresents.step_eq_presentOp (absurd · (ne_encFrame_of_conflicts hconflict))).trans
      (presentOp_of_conflict hd hconflict)
  · have hcode : op.toNat ∈ [2, 3, 4, 10, 11] := by
      simp only [List.mem_cons, List.not_mem_nil, or_false] at hfree ⊢
      omega
    have hslot : op = 0x0B#5 → s.txInFlight.length < Config.txSlots := by
      rintro rfl
      simpa using hfree
    exact (hpresents.step_eq_presentOp hslot).trans
      (presentOp_of_duties (fun d _ => conflicts_of_free hcode d) hop)

/-! ### What is open goes first -/

/-- Settles O2: the bytes the fetch needs are there, so the turn runs the record they decode to. -/
theorem stepRunsFetchedRecord : Obligations.StepRunsFetchedRecord := by
  intro s c hdc hfits
  have hfetch := fetchRecord_of_fits (b := s.rxbuf) (c := c) hfits
  simp only [step, hdc, recordTurn, hfetch]
  rfl

theorem step_of_outstanding {s : State} (hdc : s.dc = none) (hcommand : s.cmdOutstanding = true) :
    step s = commandTurn s := by
  simp [step, hdc, hcommand]

theorem step_of_betweenOps {s : State} (h : s.betweenOps = true) : step s = eventTurn s := by
  obtain ⟨hdc, hcommand⟩ : s.dc = none ∧ s.cmdOutstanding = false := by
    simpa [State.betweenOps] using h
  simp [step, hdc, hcommand]

/-- Settles O3: the frame in CMDBUF is decoded from its first two bytes and run. -/
theorem stepRunsOutstandingCommand : Obligations.StepRunsOutstandingCommand := by
  intro s i hdc hcommand hdecode
  replace hdecode : decodeCommand (s.cmdbuf.read 0) (s.cmdbuf.read 1) = .ok i := hdecode
  simp only [step_of_outstanding hdc hcommand, commandTurn, hdecode]

/-- Settles O4: with nothing open and nothing presented there is no event. -/
theorem stepWaitsWithoutEvents : Obligations.StepWaitsWithoutEvents := by
  intro s hbetween hevents
  simp [step_of_betweenOps hbetween, eventTurn, hevents, nextEvent]

/-! ### The transport -/

/-- Settles O25: the completed command is the one at its place in the list. -/
theorem asyncCompletesOnce : Obligations.AsyncCompletesOnce := by
  intro s k error during rest hpresents
  have hstep : step s = asyncDone { s with events := rest } k error := hpresents.step_eq rfl
  refine ⟨fun hnone => ?_, fun pre post c hlist hk => ?_⟩
  · have hget : s.asyncInFlight[k]? = none := List.getElem?_eq_none hnone
    simp only [hstep, asyncDone, hget]
  · subst hk
    have hget : s.asyncInFlight[pre.length]? = some c := by simp [hlist]
    have herase : s.asyncInFlight.eraseIdx pre.length = pre ++ post := by
      simp [hlist, List.eraseIdx_append_of_length_le]
    simp only [hstep, asyncDone, hget, herase]

/-- Settles O31: a slot not in flight joins the slots in flight. -/
theorem submitPutsSlotInFlight : Obligations.SubmitPutsSlotInFlight := by
  intro s k during rest hpresents hslot hfree
  refine ⟨insertSlot s.txInFlight k, (hpresents.step_eq rfl).trans ?_, fun j => mem_insertSlot⟩
  simp [takeEvent, submitSlot, hslot, hfree]

/-- A transmission in flight completes: its slot is free again. -/
theorem slotDone_of_mem {s : State} {k : Nat} (h : k ∈ s.txInFlight) :
    slotDone s k = .next { s with txInFlight := s.txInFlight.erase k } := by
  simp [slotDone, h]

theorem State.flightOk_iff {s : State} : s.flightOk = true ↔
    s.txInFlight.Pairwise (fun a b => a < b) ∧ ∀ k ∈ s.txInFlight, isSlot k = true := by
  simp [State.flightOk]

/-- Slots in flight are listed once each. -/
theorem State.nodup_of_flightOk {s : State} (h : s.flightOk = true) : s.txInFlight.Nodup :=
  (State.flightOk_iff.mp h).1.imp (Nat.ne_of_lt ·)

/-! ### A full pool -/

theorem execEncFrame_of_inFlight {s : State} (hdlc : s.port.frame.dlc.toNat ≤ 8)
    (hslot : isSlot s.port.slot = true) (hflight : s.port.slot ∈ s.txInFlight) :
    execEncFrame s = .refused .slotInFlight := by
  simp [execEncFrame, Frame.dlcOk, hdlc, hslot, hflight]

theorem Event.presentsEncode_iff_presentsOp (e : Event) :
    e.presentsEncode = true ↔ e.presentsOp 0x0B#5 := e.presentsEncode_iff

theorem eventTurn_of_nextEvent {s : State} {e : Event} {rest : List Event}
    (h : nextEvent s.poolFull s.events = some (e, rest)) :
    eventTurn s = takeEvent { s with events := rest } e := by
  simp only [eventTurn, h]

/-- The machine is stuck exactly when a full pool keeps every event left, and there is one. -/
theorem eventTurn_stuck_iff {s : State} {f : Fault} (hnext : ∀ t e f, takeEvent t e ≠ .fault f) :
    eventTurn s = .fault f ↔ s.poolFull = true ∧ s.events ≠ []
      ∧ ∀ e ∈ s.events, e.presentsEncode = true := by
  have hnone : nextEvent s.poolFull s.events = none ↔
      ∀ e ∈ s.events, (e.presentsEncode && s.poolFull) = true := nextEvent_eq_none
  cases hevent : nextEvent s.poolFull s.events with
  | some p =>
    obtain ⟨e, rest⟩ := p
    rw [eventTurn_of_nextEvent hevent]
    refine ⟨fun h => absurd h (hnext _ _ _), fun ⟨hfull, _, hall⟩ => ?_⟩
    have := hnone.mpr fun e he => by simp [hall e he, hfull]
    simp [hevent] at this
  | none =>
    have hwait := hnone.mp hevent
    cases hlist : s.events with
    | nil => simp [eventTurn, hlist, nextEvent]
    | cons e rest =>
      have hstuck : eventTurn s = .fault .encoderStuck := by
        rw [hlist] at hevent
        simp only [eventTurn, hlist, hevent]
      obtain ⟨-, hfull⟩ := Bool.and_eq_true_iff.mp (hwait e (by simp [hlist]))
      cases f
      refine iff_of_true hstuck ⟨hfull, by simp, fun a ha => ?_⟩
      exact (Bool.and_eq_true_iff.mp (hwait a (hlist ▸ ha))).1

/-- No event stops the machine with a fault. -/
theorem takeEvent_ne_fault (s : State) (e : Event) (f : Fault) : takeEvent s e ≠ .fault f := by
  obtain ⟨action, during⟩ := e
  cases action with
  | present op x now =>
    simp only [takeEvent, presentOp]
    split
    · nofun
    · split
      · nofun
      · exact exec_ne_fault _ _ _
  | deliverRx bytes =>
    simp only [takeEvent, deliverRx]
    repeat' split
    all_goals nofun
  | deliverReply bytes => simp only [takeEvent, deliverReply]; split <;> nofun
  | submitSlot slot =>
    simp only [takeEvent, submitSlot]
    repeat' split
    all_goals nofun
  | slotDone slot => simp only [takeEvent, slotDone]; split <;> nofun
  | asyncDone k error => simp only [takeEvent, asyncDone]; split <;> nofun

theorem commandTurn_ne_fault (s : State) (f : Fault) : commandTurn s ≠ .fault f := by
  unfold commandTurn
  split
  · nofun
  · exact exec_ne_fault _ _ _

/-- What stops the machine with a fault, and when. -/
theorem step_eq_fault_iff {s : State} {f : Fault} : step s = .fault f ↔
    s.betweenOps = true ∧ Config.txSlots ≤ s.txInFlight.length
      ∧ s.events ≠ [] ∧ ∀ e ∈ s.events, e.presentsOp 0x0B#5 := by
  by_cases hbetween : s.betweenOps = true
  · rw [step_of_betweenOps hbetween, eventTurn_stuck_iff takeEvent_ne_fault, State.poolFull_iff]
    simp only [hbetween, true_and, Event.presentsEncode_iff_presentsOp]
  · refine iff_of_false (fun h => ?_) fun h => hbetween h.1
    cases hdc : s.dc with
    | some c =>
      simp only [step, hdc, recordTurn_exec] at h
      exact recordTurn_ne_fault s f h
    | none =>
      have hcommand : s.cmdOutstanding = true := by simpa [State.betweenOps, hdc] using hbetween
      exact commandTurn_ne_fault s f (step_of_outstanding hdc hcommand ▸ h)

/-- A pool of which as many slots are in flight as there are has every slot in flight. -/
theorem State.mem_inFlight_of_full {s : State} (hflight : s.flightOk = true)
    (hfull : Config.txSlots ≤ s.txInFlight.length) {k : Nat} (hk : isSlot k = true) :
    k ∈ s.txInFlight := by
  have hsub : s.txInFlight.toFinset ⊆ Finset.range Config.txSlots := fun j hj =>
    Finset.mem_range.mpr ((isSlot_iff j).mp
      ((State.flightOk_iff.mp hflight).2 j (List.mem_toFinset.mp hj)))
  have hcard : (Finset.range Config.txSlots).card ≤ s.txInFlight.toFinset.card := by
    rw [Finset.card_range, List.toFinset_card_of_nodup (State.nodup_of_flightOk hflight)]
    exact hfull
  rw [← List.mem_toFinset, Finset.eq_of_subset_of_card_le hsub hcard]
  exact Finset.mem_range.mpr ((isSlot_iff k).mp hk)

/-- Settles O55: the one stop, and that the encoders it leaves wait for slots in flight. -/
theorem onlyAFullPoolStopsTheMachine : Obligations.OnlyAFullPoolStopsTheMachine := by
  refine fun s => ⟨⟨fun ⟨f, hf⟩ => step_eq_fault_iff.mp hf,
    fun h => ⟨.encoderStuck, step_eq_fault_iff.mpr h⟩⟩, fun f hf hflight e he => ?_⟩
  obtain ⟨-, hfull, -, hall⟩ := step_eq_fault_iff.mp hf
  obtain ⟨x, now, hop⟩ := hall e he
  exact ⟨x, now, hop, State.mem_inFlight_of_full hflight hfull⟩

/-- With a full pool the first event that is no ENC.FRAME happens as if it stood first. -/
theorem step_of_waiting {s : State} (hbetween : s.betweenOps = true) (hfull : s.poolFull = true)
    {waiting rest : List Event} {a : Event} (hevents : s.events = waiting ++ a :: rest)
    (hwait : ∀ e ∈ waiting, e.presentsEncode = true) (ha : a.presentsEncode = false) :
    step s = step { s with events := a :: (waiting ++ rest) } := by
  have hskip : nextEvent s.poolFull s.events = some (a, waiting ++ rest) := by
    rw [hevents, hfull]; exact nextEvent_skip hwait ha
  have hhead : nextEvent s.poolFull (a :: (waiting ++ rest)) = some (a, waiting ++ rest) :=
    nextEvent_head (by simp [ha])
  rw [step_of_betweenOps hbetween, eventTurn_of_nextEvent hskip,
    step_of_betweenOps (s := { s with events := a :: (waiting ++ rest) }) hbetween,
    eventTurn_of_nextEvent (s := { s with events := a :: (waiting ++ rest) }) hhead]

/-- Settles O30: refused into a slot in flight, free again on completion, waiting while the pool is
full, stuck when only waiting is left. -/
theorem slotInFlightIsNotReused : Obligations.SlotInFlightIsNotReused := by
  refine ⟨fun s => execEncFrame_of_inFlight, fun s k during rest hflight hpresents hk => ?_,
    fun s hbetween hfull => ⟨fun waiting rest a hevents hwait ha => ?_, fun hsome hall => ?_⟩⟩
  · refine ⟨s.txInFlight.erase k, (hpresents.step_eq rfl).trans (slotDone_of_mem hk), fun j => ?_⟩
    rw [(State.nodup_of_flightOk hflight).mem_erase_iff]
    exact and_comm
  · refine step_of_waiting hbetween ((State.poolFull_iff s).mpr hfull) hevents
      (fun e he => e.presentsEncode_iff_presentsOp.mpr (hwait e he)) ?_
    exact Bool.eq_false_iff.mpr (mt a.presentsEncode_iff_presentsOp.mp ha)
  · refine ⟨step_eq_fault_iff.mpr ⟨hbetween, hfull, hsome, hall⟩, ?_⟩
    simp [State.runOver, hsome]

end Sys2Proof.Machine
end

section
/-! SUPPORT. The command unit: the pure operations (R101 to R104), the command channel and the three
queries and frames that use it (R105, R106, R110, R112), the asynchronous submission (R111), and what
no command touches (R29). -/

namespace Sys2Proof.Machine

/-! ### Reset -/

/-- Settles O11: the reset state is written out, and nothing is presented in it. -/
theorem resetHoldsSpecValues : Obligations.ResetHoldsSpecValues :=
  ⟨rfl, rfl, rfl, stepWaitsWithoutEvents State.reset rfl rfl⟩

/-- Settles O12: SESSION.RESET is one record update. -/
theorem sessionResetResult : Obligations.SessionResetResult := fun _ => rfl

/-! ### Pure operations -/

theorem parseReply_of_len {b : Buffer} (h : b.len = 16) : parseReply b = .ok (b.mem.bytes 2 14) :=
  if_pos h

theorem parseReply_of_len_ne {b : Buffer} (h : b.len ≠ 16) :
    parseReply b = .error (.framing 0 b.len) := if_neg h

theorem exec_cmdParse (s : State) :
    exec .cmdParse s = .next (s.conclude .bytes (parseReply s.rplbuf)) := rfl

/-- Settles O14: a reply of 16 bytes is read from offset 2 on, any other is FramingError. -/
theorem cmdParseResult : Obligations.CmdParseResult := by
  refine fun s => ⟨fun hlen => ⟨s.rplbuf.mem.bytes 2 14, Memory.bytes_length .., fun i hi => ?_, ?_⟩,
    fun hlen => ?_⟩
  · have hget : i < (s.rplbuf.mem.bytes 2 14).length := by rwa [Memory.bytes_length]
    rw [List.getD_eq_getElem _ _ hget, Memory.bytes_getElem]
  · rw [exec_cmdParse, parseReply_of_len hlen]; rfl
  · rw [exec_cmdParse, parseReply_of_len_ne hlen]; rfl

/-- A field below `2 ^ n` and one shifted above it do not overlap. -/
theorem or_shiftLeft_eq_add {a b n : Nat} (h : a < 2 ^ n) : a ||| b <<< n = a + 2 ^ n * b := by
  rw [Nat.or_comm, ← Nat.shiftLeft_add_eq_or_of_lt h, Nat.shiftLeft_eq]
  ring

/-- A u32 field less one, as R102 masks it, in naturals. -/
theorem toNat_sub_one (x : BitVec 32) : (x - 1#32).toNat = (x.toNat + (2 ^ 32 - 1)) % 2 ^ 32 := by
  rw [BitVec.toNat_sub, Nat.add_comm]; rfl

theorem btr0Of_toNat (t : Bittiming) :
    (btr0Of t).toNat = (t.brp.toNat + (2 ^ 32 - 1)) % 64
      + 64 * ((t.sjw.toNat + (2 ^ 32 - 1)) % 4) := by
  have hlow (x : BitVec 32) : (x &&& 0x3F#32).toNat = x.toNat % 64 :=
    Nat.and_two_pow_sub_one_eq_mod x.toNat 6
  have hhigh (x : BitVec 32) : (x &&& 0x3#32).toNat = x.toNat % 4 :=
    Nat.and_two_pow_sub_one_eq_mod x.toNat 2
  have hshift (x : BitVec 32) : ((x &&& 0x3#32) <<< 6).toNat = (x.toNat % 4) <<< 6 := by
    rw [BitVec.toNat_shiftLeft, hhigh, Nat.shiftLeft_eq, Nat.mod_eq_of_lt (by omega)]
  unfold btr0Of
  rw [BitVec.toNat_setWidth, BitVec.toNat_or, hlow, hshift, or_shiftLeft_eq_add (by omega),
    toNat_sub_one, toNat_sub_one]
  omega

theorem btr1Of_toNat (t : Bittiming) :
    (btr1Of t).toNat = (t.propSeg.toNat + t.phaseSeg1.toNat + (2 ^ 32 - 1)) % 16
      + 16 * ((t.phaseSeg2.toNat + (2 ^ 32 - 1)) % 8) + (if t.tripleSample then 128 else 0) := by
  have hlow (x : BitVec 32) : (x &&& 0xF#32).toNat = x.toNat % 16 :=
    Nat.and_two_pow_sub_one_eq_mod x.toNat 4
  have hmid (x : BitVec 32) : (x &&& 0x7#32).toNat = x.toNat % 8 :=
    Nat.and_two_pow_sub_one_eq_mod x.toNat 3
  have hshift (x : BitVec 32) : ((x &&& 0x7#32) <<< 4).toNat = (x.toNat % 8) <<< 4 := by
    rw [BitVec.toNat_shiftLeft, hmid, Nat.shiftLeft_eq, Nat.mod_eq_of_lt (by omega)]
  have hbit7 (b : Bool) : (if b then 0x80#32 else 0#32).toNat = (if b then 1 else 0) <<< 7 := by
    cases b <;> rfl
  unfold btr1Of
  rw [BitVec.toNat_setWidth, BitVec.toNat_or, BitVec.toNat_or, hlow, hshift,
    or_shiftLeft_eq_add (by omega), hbit7, or_shiftLeft_eq_add (by omega), toNat_sub_one,
    toNat_sub_one, BitVec.toNat_add]
  cases t.tripleSample <;> simp <;> omega

/-- Settles O15: the two bytes are `btr0Of` and `btr1Of`, field by field. -/
theorem cmdBtrFields : Obligations.CmdBtrFields := fun s =>
  ⟨btr0Of s.port.bittiming, btr1Of s.port.bittiming, rfl, btr0Of_toNat _, btr1Of_toNat _⟩

theorem exec_cmdPreset_of_lookup {s : State} {b0 b1 : Byte}
    (h : presetTable.lookup s.port.bps.toNat = some (b0, b1)) :
    exec .cmdPreset s = .next { s with outcome := some (.ok (.btr b0 b1)) } := by
  rw [exec_cmdPreset, presetOf, h]
  rfl

/-- Settles O16: each row of the table is found under its bitrate. -/
theorem cmdPresetTable : Obligations.CmdPresetTable := by
  intro s bps b0 b1 hrow hbps
  refine exec_cmdPreset_of_lookup (hbps ▸ ?_)
  simp only [List.mem_cons, List.not_mem_nil, or_false, Prod.mk.injEq] at hrow
  rcases hrow with ⟨rfl, rfl, rfl⟩ | ⟨rfl, rfl, rfl⟩ | ⟨rfl, rfl, rfl⟩ | ⟨rfl, rfl, rfl⟩
    | ⟨rfl, rfl, rfl⟩ | ⟨rfl, rfl, rfl⟩ | ⟨rfl, rfl, rfl⟩ | ⟨rfl, rfl, rfl⟩ | ⟨rfl, rfl, rfl⟩ <;> rfl

theorem exec_cmdSetbtr (s : State) :
    exec .cmdSetbtr s = .next
      ((s.withFrame 1#8 2#8 [s.port.btr1, s.port.btr0]).finish
        (.bytes (s.withFrame 1#8 2#8 [s.port.btr1, s.port.btr0]).cmdBytes)) := rfl

/-- Settles O18: the frame is built as CMD.BUILD builds one. -/
theorem cmdSetbtrBuildsFrame : Obligations.CmdSetbtrBuildsFrame := fun s =>
  ⟨buildFrame 1#8 2#8 [s.port.btr1, s.port.btr0],
    (exec_cmdSetbtr s).trans (congrArg _ (State.withFrame_finish_bytes ..)), buildFrame_wf ..,
    holdsFrame_buildFrame ..⟩

/-! ### The command channel -/

theorem parseReply_ofBytes (bs : List Byte) : parseReply (Buffer.ofBytes bs)
    = if bs.length = 16 then .ok (bs.drop 2) else .error (.framing 0 bs.length) := by
  by_cases h : bs.length = 16
  · have hbytes := Buffer.ofBytes_bytes_from bs 2
    rw [h] at hbytes
    rw [if_pos h, parseReply_of_len h, hbytes]
  · rw [if_neg h, parseReply_of_len_ne h, Buffer.ofBytes_len]

/-- The receive step: one call, RPLBUF filled, the answer parsed (R110). -/
theorem receiveStep_eq (s : State) : receiveStep s =
    ({ s with
        calls := s.calls ++ [.receive]
        rplbuf := (receiveResult s.port.recvAns s.rplbuf).1 },
      (receiveResult s.port.recvAns s.rplbuf).2) := by
  unfold receiveStep receiveResult
  cases s.port.recvAns with
  | ok bs => simp only [parseReply_ofBytes]; rfl
  | timeout => rfl
  | err e => rfl

/-- A send, a receive and a result: the faults in the order of R109 and R110. -/
theorem concludeCommand_sendAwait (s : State) (g : List Byte → Result) :
    concludeCommand (sendAwait s) g = exchanged g s := by
  cases hconnected : s.port.connected with
  | false =>
    simp only [sendAwait, sendStep_of_unconnected hconnected, exchanged, hconnected, if_true]
    rfl
  | true =>
    simp only [sendAwait, sendStep_of_connected hconnected, exchanged, hconnected,
      Bool.true_eq_false, if_false]
    cases s.port.sendAns with
    | ok =>
      simp only [receiveStep_eq, concludeCommand_eq, State.call_port, State.call_rplbuf,
        State.call_calls]
      cases (receiveResult s.port.recvAns s.rplbuf).2 <;> rfl
    | timeout => rfl
    | err e => rfl

/-- Settles O20: the send, the receive and the parse, in that order. -/
theorem cmdSendAwaitOutcomes : Obligations.CmdSendAwaitOutcomes := fun s =>
  congrArg Host.Outcome.next (concludeCommand_sendAwait s _)

/-- The serial number is little-endian (R82). -/
theorem serialOf_toNat (r : List Byte) : (serialOf r).toNat = (r.getD 0 0#8).toNat
    + 256 * (r.getD 1 0#8).toNat + 65536 * (r.getD 2 0#8).toNat
    + 16777216 * (r.getD 3 0#8).toNat := by
  have happend {n : Nat} (x : BitVec n) (b : Byte) : (x ++ b).toNat = b.toNat + 256 * x.toNat := by
    rw [BitVec.toNat_append, Nat.or_comm]
    exact or_shiftLeft_eq_add b.isLt
  simp only [serialOf, happend]
  ring

/-- The device id is the first byte alone (R82). -/
theorem deviceIdOf_toNat (r : List Byte) : (deviceIdOf r).toNat = (r.getD 0 0#8).toNat := by
  have hlt := (r.getD 0 0#8).isLt
  rw [deviceIdOf, BitVec.toNat_setWidth, Nat.mod_eq_of_lt (by omega)]

theorem exec_cmdGetsn (s : State) : exec .cmdGetsn s
    = .next (exchanged (fun r => .serial (serialOf r)) { s with cmdbuf := buildFrame 6#8 1#8 [] }) :=
  congrArg Host.Outcome.next (concludeCommand_sendAwait (s.withFrame 6#8 1#8 []) _)

theorem exec_cmdGetdevid (s : State) : exec .cmdGetdevid s
    = .next (exchanged (fun r => .deviceId (deviceIdOf r))
        { s with cmdbuf := buildFrame 4#8 1#8 [] }) :=
  congrArg Host.Outcome.next (concludeCommand_sendAwait (s.withFrame 4#8 1#8 []) _)

/-- Settles O21: the built frame exchanged, and four bytes of the result. -/
theorem cmdGetsnResult : Obligations.CmdGetsnResult := fun s =>
  ⟨buildFrame 6#8 1#8 [], fun r => .serial (serialOf r), exec_cmdGetsn s, buildFrame_wf ..,
    holdsFrame_buildFrame .., fun r _ => ⟨serialOf r, rfl, serialOf_toNat r⟩⟩

/-- Settles O22: the built frame exchanged, and one byte of the result. -/
theorem cmdGetdevidResult : Obligations.CmdGetdevidResult := fun s =>
  ⟨buildFrame 4#8 1#8 [], fun r => .deviceId (deviceIdOf r), exec_cmdGetdevid s, buildFrame_wf ..,
    holdsFrame_buildFrame .., fun r _ => ⟨deviceIdOf r, rfl, deviceIdOf_toNat r⟩⟩

/-- Settles O23: with its buffer allocated the frame is submitted, whatever else the state holds. -/
theorem cmdSendAsyncSubmits : Obligations.CmdSendAsyncSubmits := by
  intro s halloc
  have hexec : exec .cmdSendAsync s = execCmdSendAsync s := rfl
  rw [hexec, execCmdSendAsync, halloc]
  rfl

theorem exec_devcmdSetBitrate (s : State) : exec .devcmdSetBitrate s
    = .next (concludeCommand (sendStep s) fun _ => .done).requestDone := rfl

theorem exec_devcmdGetSerial (s : State) : exec .devcmdGetSerial s
    = .next (exchanged (fun r => .serial (serialOf r)) s).requestDone := by
  rw [← concludeCommand_sendAwait]; rfl

theorem exec_devcmdGetDevid (s : State) : exec .devcmdGetDevid s
    = .next (exchanged (fun r => .deviceId (deviceIdOf r)) s).requestDone := by
  rw [← concludeCommand_sendAwait]; rfl

/-- Settles O26: each frame is the command that sends it, with CMDBUF as it stands, and then the
request is over. -/
theorem deviceCommandFramesExchange : Obligations.DeviceCommandFramesExchange := fun s =>
  ⟨⟨_, exec_cmdSendSync s, exec_devcmdSetBitrate s⟩,
    ⟨_, exec_devcmdGetSerial s, fun r _ => ⟨serialOf r, rfl, serialOf_toNat r⟩⟩,
    ⟨_, exec_devcmdGetDevid s, fun r _ => ⟨deviceIdOf r, rfl, deviceIdOf_toNat r⟩⟩⟩

/-! ### What a command may change -/

/-- What a command may change: CMDBUF by a build, RPLBUF by a reply, the commands in flight, the record
of calls and the outcome; and an outstanding request may end. -/
structure State.CommandEffect (s t : State) : Prop where
  tr : t.tr = s.tr
  bs : t.bs = s.bs
  txSeq : t.txSeq = s.txSeq
  rxbuf : t.rxbuf = s.rxbuf
  txbufs : t.txbufs = s.txbufs
  txInFlight : t.txInFlight = s.txInFlight
  dc : t.dc = s.dc
  clock : t.clock = s.clock
  items : t.items = s.items
  port : t.port = s.port
  events : t.events = s.events
  completions : t.completions = s.completions
  cmdbuf : t.cmdbuf = s.cmdbuf ∨ ∃ f n args, t.cmdbuf = buildFrame f n args
  rplbuf : t.rplbuf = s.rplbuf ∨ ∃ bytes, t.rplbuf = Buffer.ofBytes bytes
  request : t.cmdOutstanding = s.cmdOutstanding ∨ t.cmdOutstanding = false

/-- An update of the record of calls, the commands in flight and the outcome is a command's. -/
theorem State.CommandEffect.of_eq (s : State) (calls : List TransportCall) (async : List AsyncCmd)
    (outcome : Option OpOutcome) :
    s.CommandEffect { s with calls, asyncInFlight := async, outcome } := by
  constructor
  case cmdbuf | rplbuf | request => exact .inl rfl
  all_goals rfl

theorem State.CommandEffect.trans {s t u : State} (h1 : s.CommandEffect t)
    (h2 : t.CommandEffect u) : s.CommandEffect u where
  tr := h2.tr.trans h1.tr
  bs := h2.bs.trans h1.bs
  txSeq := h2.txSeq.trans h1.txSeq
  rxbuf := h2.rxbuf.trans h1.rxbuf
  txbufs := h2.txbufs.trans h1.txbufs
  txInFlight := h2.txInFlight.trans h1.txInFlight
  dc := h2.dc.trans h1.dc
  clock := h2.clock.trans h1.clock
  items := h2.items.trans h1.items
  port := h2.port.trans h1.port
  events := h2.events.trans h1.events
  completions := h2.completions.trans h1.completions
  cmdbuf := h2.cmdbuf.elim (fun h => h ▸ h1.cmdbuf) .inr
  rplbuf := h2.rplbuf.elim (fun h => h ▸ h1.rplbuf) .inr
  request := h2.request.elim (fun h => h ▸ h1.request) .inr

theorem State.commandEffect_withFrame (s : State) (f n : Byte) (args : List Byte) :
    s.CommandEffect (s.withFrame f n args) := by
  constructor
  case cmdbuf => exact .inr ⟨f, n, args, State.withFrame_cmdbuf ..⟩
  case rplbuf | request => exact .inl (by simp)
  all_goals simp

theorem State.commandEffect_requestDone (s : State) : s.CommandEffect s.requestDone := by
  constructor
  case cmdbuf | rplbuf => exact .inl rfl
  case request => exact .inr rfl
  all_goals rfl

theorem State.commandEffect_conclude {α : Type} (s : State) (g : α → Result) (r : Except OpFault α) :
    s.CommandEffect (s.conclude g r) := by
  rw [State.conclude_eq]
  exact .of_eq s ..

theorem State.commandEffect_sendStep (s : State) (g : Unit → Result) :
    s.CommandEffect (concludeCommand (sendStep s) g) := by
  obtain ⟨calls, hsent⟩ := sendStep_fst s
  rw [concludeCommand_eq, hsent]
  exact .of_eq s ..

theorem State.commandEffect_sendAwait (s : State) (g : List Byte → Result) :
    s.CommandEffect (concludeCommand (sendAwait s) g) := by
  obtain ⟨calls, rpl, hsent, hrpl⟩ := sendAwait_fst s
  rw [concludeCommand_eq, hsent]
  constructor
  case rplbuf => exact hrpl
  case cmdbuf | request => exact .inl rfl
  all_goals rfl

/-- Every command completes, and changes what a command may change. -/
theorem exec_command {i : Instr} (hi : isCommand i = true) (s : State) :
    ∃ t, exec i s = .next t ∧ s.CommandEffect t := by
  cases i with
  | cmdBuild | cmdSetbtr =>
    exact ⟨_, rfl, (s.commandEffect_withFrame _ _ _).trans (.of_eq ..)⟩
  | cmdBtr => exact ⟨_, rfl, .of_eq s ..⟩
  | cmdParse | cmdPreset => exact ⟨_, rfl, s.commandEffect_conclude ..⟩
  | cmdGetsn | cmdGetdevid =>
    exact ⟨_, rfl, (s.commandEffect_withFrame _ _ _).trans (State.commandEffect_sendAwait ..)⟩
  | cmdSendSync => exact ⟨_, rfl, s.commandEffect_sendStep _⟩
  | cmdSendAwait => exact ⟨_, rfl, s.commandEffect_sendAwait _⟩
  | cmdSendAsync =>
    cases halloc : s.port.allocOk with
    | false => exact ⟨_, exec_cmdSendAsync_of_allocFailed halloc, .of_eq s ..⟩
    | true => exact ⟨_, cmdSendAsyncSubmits s halloc, .of_eq s ..⟩
  | devcmdSetBitrate =>
    exact ⟨_, rfl, (s.commandEffect_sendStep _).trans (State.commandEffect_requestDone _)⟩
  | devcmdGetSerial | devcmdGetDevid =>
    exact ⟨_, rfl, (s.commandEffect_sendAwait _).trans (State.commandEffect_requestDone _)⟩
  | _ => cases hi

/-- Settles O27: none of these is among what a command may change. -/
theorem commandsLeaveSessionAlone : Obligations.CommandsLeaveSessionAlone := by
  intro i s hi
  obtain ⟨t, hexec, he⟩ := exec_command hi s
  exact ⟨t, hexec, ⟨he.tr, he.bs, he.txSeq⟩, he.rxbuf, he.txbufs, he.txInFlight, he.dc, he.clock,
    he.items, he.port, he.events, he.completions⟩

end Sys2Proof.Machine
end

section
/-! SUPPORT. The timestamp synchronizer: TSS.SET by the three cases of its epoch (R161), TSS.UPDATE
(R162), TSS.COMPUTE (R163), and the congruence of the cumulative ticks (R165). -/

namespace Sys2Proof.Machine

/-! ### The accumulation -/

/-- The cumulative ticks after an accumulation, in naturals (R160). -/
theorem TimeRef.accumulate_ticks (tr : TimeRef) (tick : Tick) :
    (tr.accumulate tick).cumulativeTicks.toNat = (tr.cumulativeTicks.toNat
      + (tick.toNat + 65536 - tr.devTickLast.toNat) % 65536) % 2 ^ 64 := by
  have hdelta := (tr.delta tick).isLt
  simp only [TimeRef.accumulate, BitVec.toNat_add, BitVec.toNat_setWidth, ← TimeRef.delta_toNat]
  rw [Nat.mod_eq_of_lt (a := (tr.delta tick).toNat) (by omega)]

/-! ### The three cases of an epoch -/

theorem TimeRef.epochStep_of_first {tr : TimeRef} (h : tr.epochValid = false) (now : Instant) :
    tr.epochStep now = { tr with hostEpoch0 := now, cumulativeTicks := 0#64, epochValid := true } := by
  simp [TimeRef.epochStep, h]

theorem TimeRef.epochStep_of_due {tr : TimeRef} {now : Instant} (hvalid : tr.epochValid = true)
    (hdue : tr.hostEpoch0.toNat + 4200000000 < now.toNat) :
    tr.epochStep now = { tr with hostEpoch0 := tr.hostEpochLast, cumulativeTicks := 0#64 } := by
  simp [TimeRef.epochStep, hvalid, (tr.rebaseDue_iff now).mpr hdue]

theorem TimeRef.epochStep_of_recent {tr : TimeRef} {now : Instant} (hvalid : tr.epochValid = true)
    (hrecent : now.toNat ≤ tr.hostEpoch0.toNat + 4200000000) : tr.epochStep now = tr := by
  have hdue : tr.rebaseDue now = false := Bool.eq_false_iff.mpr fun h => by
    have := (tr.rebaseDue_iff now).mp h
    omega
  simp [TimeRef.epochStep, hvalid, hdue]

/-- Whatever it does to the epoch, the first step of TSS.SET leaves the tick last seen. -/
theorem TimeRef.epochStep_devTickLast (tr : TimeRef) (now : Instant) :
    (tr.epochStep now).devTickLast = tr.devTickLast := by
  unfold TimeRef.epochStep
  split
  · rfl
  · split <;> rfl

theorem TimeRef.epochStep_epochValid (tr : TimeRef) (now : Instant) :
    (tr.epochStep now).epochValid = true := by
  unfold TimeRef.epochStep
  split
  · rfl
  next hvalid =>
    have hvalid : tr.epochValid = true := by simpa using hvalid
    split <;> exact hvalid

/-! ### TSS.SET -/

theorem TimeRef.set_epochValid (tr : TimeRef) (tick : Tick) (now : Instant) :
    (tr.set tick now).epochValid = true := tr.epochStep_epochValid now

theorem TimeRef.set_hostEpoch0 (tr : TimeRef) (tick : Tick) (now : Instant) :
    (tr.set tick now).hostEpoch0 = (tr.epochStep now).hostEpoch0 := rfl

theorem TimeRef.set_devTickPrev (tr : TimeRef) (tick : Tick) (now : Instant) :
    (tr.set tick now).devTickPrev = tr.devTickLast := tr.epochStep_devTickLast now

theorem TimeRef.set_devTickLast (tr : TimeRef) (tick : Tick) (now : Instant) :
    (tr.set tick now).devTickLast = tick := rfl

theorem TimeRef.set_sampleCount (tr : TimeRef) (tick : Tick) (now : Instant) :
    (tr.set tick now).sampleCount.toNat = min (tr.sampleCount.toNat + 1) (2 ^ 32 - 1) :=
  nextSampleCount_toNat tr.sampleCount

/-- TSS.SET folds the tick difference into what its first step leaves. -/
theorem TimeRef.set_ticks (tr : TimeRef) (tick : Tick) (now : Instant) :
    (tr.set tick now).cumulativeTicks.toNat = ((tr.epochStep now).cumulativeTicks.toNat
      + (tick.toNat + 65536 - tr.devTickLast.toNat) % 65536) % 2 ^ 64 := by
  rw [← tr.epochStep_devTickLast now]
  exact TimeRef.accumulate_ticks ..

/-- Ticks that were just zeroed come to the tick difference alone. -/
theorem TimeRef.set_ticks_of_zeroed {tr : TimeRef} {now : Instant} (tick : Tick)
    (h : (tr.epochStep now).cumulativeTicks = 0#64) : (tr.set tick now).cumulativeTicks.toNat
      = (tick.toNat + 65536 - tr.devTickLast.toNat) % 65536 := by
  rw [TimeRef.set_ticks, h, BitVec.toNat_ofNat]
  omega

theorem exec_tssSet_of_draw {s : State} {now : Instant} {k : HostClock}
    (h : s.clock.draw = .ok (now, k)) : exec .tssSet s = .next { s with
      tr := s.tr.set s.port.tick now, clock := k, outcome := some (.ok .done) } := by
  have hexec : exec .tssSet s = execTssSet s := rfl
  simp only [hexec, execTssSet, tssSet, h]
  rfl

/-- TSS.SET completes only on a sample. -/
theorem exec_tssSet_eq_next {s t : State} (h : exec .tssSet s = .next t) :
    ∃ now k, s.clock.draw = .ok (now, k) ∧ t = { s with
      tr := s.tr.set s.port.tick now, clock := k, outcome := some (.ok .done) } := by
  replace h : execTssSet s = .next t := h
  unfold execTssSet at h
  split at h
  · cases h
  next u hset =>
    obtain ⟨now, k, hdraw, rfl⟩ := tssSet_eq_ok hset
    cases h
    exact ⟨now, k, hdraw, rfl⟩

/-- Settles O47: the fields of `TimeRef.set`, and its ticks in each of the three cases. -/
theorem tssSetResult : Obligations.TssSetResult := by
  intro s now k hdraw
  refine ⟨s.tr.set s.port.tick now, exec_tssSet_of_draw hdraw, s.tr.set_epochValid .., rfl,
    s.tr.set_devTickPrev .., rfl, s.tr.set_sampleCount .., fun hfirst => ?_, fun hvalid hdue => ?_,
    fun hvalid hrecent => ?_⟩
  · have hepoch := TimeRef.epochStep_of_first hfirst now
    exact ⟨by rw [TimeRef.set_hostEpoch0, hepoch], TimeRef.set_ticks_of_zeroed _ (by rw [hepoch])⟩
  · have hepoch := TimeRef.epochStep_of_due hvalid hdue
    exact ⟨by rw [TimeRef.set_hostEpoch0, hepoch], TimeRef.set_ticks_of_zeroed _ (by rw [hepoch])⟩
  · have hepoch := TimeRef.epochStep_of_recent hvalid hrecent
    exact ⟨by rw [TimeRef.set_hostEpoch0, hepoch], by rw [TimeRef.set_ticks, hepoch]⟩

/-! ### TSS.UPDATE and TSS.COMPUTE -/

theorem exec_tssUpdate (s : State) : exec .tssUpdate s = .next { s with
    tr := s.tr.accumulate s.port.tick, outcome := some (.ok .done) } := rfl

/-- Settles O48: TSS.UPDATE is the accumulation. -/
theorem tssUpdateResult : Obligations.TssUpdateResult := fun s =>
  ⟨(s.tr.accumulate s.port.tick).cumulativeTicks, exec_tssUpdate s, s.tr.accumulate_ticks _⟩

theorem microsOf_eq (k : Nat) : microsOf k = k * 44739243 / 2 ^ 20 := Nat.shiftRight_eq_div_pow ..

theorem TimeRef.hostTime_toNat (tr : TimeRef) (tick : Tick) :
    (tr.hostTime tick).toNat = (tr.hostEpoch0.toNat
      + ((tr.cumulativeTicks.toNat + (tick.toNat + 65536 - tr.devTickLast.toNat) % 65536)
          * 44739243) / 2 ^ 20) % 2 ^ 64 := by
  rw [TimeRef.hostTime, BitVec.toNat_ofNat, microsOf_eq, TimeRef.delta_toNat]

theorem TimeRef.compute_of_epoch {tr : TimeRef} (h : tr.epochValid = true) (tick : Tick)
    (now : Instant) : tr.compute tick now = tr.hostTime tick := by simp [TimeRef.compute, h]

theorem TimeRef.compute_of_no_epoch {tr : TimeRef} (h : tr.epochValid = false) (tick : Tick)
    (now : Instant) : tr.compute tick now = now := by simp [TimeRef.compute, h]

theorem exec_tssCompute_of_draw {s : State} {now : Instant} {k : HostClock}
    (h : s.clock.draw = .ok (now, k)) : exec .tssCompute s = .next { s with
      clock := k, outcome := some (.ok (.time (s.tr.compute s.port.tick now))) } := by
  have hexec : exec .tssCompute s = execTssCompute s := rfl
  simp only [hexec, execTssCompute, tssCompute, h]
  rfl

/-- Settles O49: `TimeRef.compute`, with and without an epoch. -/
theorem tssComputeResult : Obligations.TssComputeResult := fun s now _ hdraw =>
  ⟨s.tr.compute s.port.tick now, exec_tssCompute_of_draw hdraw,
    fun hnone => TimeRef.compute_of_no_epoch hnone _ _, fun hepoch => by
      rw [TimeRef.compute_of_epoch hepoch, TimeRef.hostTime_toNat]⟩

/-! ### The congruence of the ticks -/

/-- An accumulation keeps the congruence. -/
theorem TimeRef.ticksFollow.accumulate {tr : TimeRef} {t0 : Nat} (h : tr.ticksFollow t0)
    (ht0 : t0 < 65536) (tick : Tick) : (tr.accumulate tick).ticksFollow t0 := by
  have hlast := tr.devTickLast.isLt
  have hticks := tr.accumulate_ticks tick
  have hnew : (tr.accumulate tick).devTickLast.toNat = tick.toNat := rfl
  unfold TimeRef.ticksFollow at h ⊢
  omega

/-- Zeroed ticks follow from the tick last seen. -/
theorem TimeRef.ticksFollow_of_zeroed {tr : TimeRef} {now : Instant} (tick : Tick)
    (h : (tr.epochStep now).cumulativeTicks = 0#64) :
    (tr.set tick now).ticksFollow tr.devTickLast.toNat := by
  rw [TimeRef.ticksFollow, TimeRef.set_ticks_of_zeroed tick h, TimeRef.set_devTickLast, Nat.mod_mod]

/-- Settles O50: a kept epoch accumulates, a new or rebased one starts from zeroed ticks. -/
theorem ticksFollowDeviceCounter : Obligations.TicksFollowDeviceCounter := by
  refine ⟨fun s t t0 ht0 hfollow => ⟨fun hupdate => ?_, fun hset hvalid hrecent => ?_⟩,
    fun s t hset hzeroed => ?_⟩
  · cases hupdate
    exact hfollow.accumulate ht0 _
  · obtain ⟨now, k, -, rfl⟩ := exec_tssSet_eq_next hset
    have hepoch : s.tr.epochStep now = s.tr := TimeRef.epochStep_of_recent hvalid hrecent
    have hkept : (s.tr.epochStep now).ticksFollow t0 := hepoch.symm ▸ hfollow
    exact TimeRef.ticksFollow.accumulate (tr := { s.tr.epochStep now with
      hostEpochLast := now, sampleCount := nextSampleCount s.tr.sampleCount }) hkept ht0 s.port.tick
  · obtain ⟨now, k, -, rfl⟩ := exec_tssSet_eq_next hset
    cases hvalid : s.tr.epochValid with
    | false => exact TimeRef.ticksFollow_of_zeroed _ (by rw [TimeRef.epochStep_of_first hvalid])
    | true =>
      have hdue : s.tr.hostEpoch0.toNat + 4200000000 < now.toNat :=
        hzeroed.resolve_left (by simp [hvalid])
      exact TimeRef.ticksFollow_of_zeroed _ (by rw [TimeRef.epochStep_of_due hvalid hdue])

end Sys2Proof.Machine
end

section
/-! SUPPORT. BES.PROCESS is the table of R190 with the gate of R181, and a report of the state it is
already in reports nothing (R188). -/

namespace Sys2Proof.Machine

/-- The gate touches the overflow bits alone: the conditions of a gated byte are the flags of the byte
as received, the overflow only once a sample was taken (R180, R181). -/
theorem errorConditions_gateFlags (samples : BitVec 32) (b : Byte) :
    errorConditions (gateFlags samples b)
      = ⟨flagLight b, flagHeavy b, flagOff b, flagOverflow samples b⟩ := by
  have hopen : ∀ x : Byte, errorConditions x
      = ⟨flagLight x, flagHeavy x, flagOff x, x.getLsbD 1 || x.getLsbD 6⟩ := by decide
  have hgated : ∀ x : Byte, errorConditions (x &&& ~~~overflowMask)
      = ⟨flagLight x, flagHeavy x, flagOff x, false⟩ := by decide
  by_cases h : samples = 0#32
  · subst h
    rw [gateFlags, if_pos rfl, hgated]
    rfl
  · have hsamples : samples.toNat ≠ 0 := fun h0 => h (BitVec.eq_of_toNat_eq h0)
    rw [gateFlags, if_neg h, hopen, flagOverflow, decide_eq_true hsamples, Bool.true_and]

/-- The row of R190 that applies is what `besNext` and `besEvent` answer, for every flag byte. -/
theorem besRow_eq (state : BusErrorState) (c : ErrorConditions) (flags : Byte) :
    ∃ cond, besRow state c.light c.heavy c.off c.overflow = some ((besNext state c).1, cond)
      ∧ besEvent state (besNext state c).1 (besNext state c).2 flags
        = cond.map fun k => ⟨(besNext state c).1, flags, k⟩ := by
  obtain ⟨light, heavy, off, overflow⟩ := c
  cases state <;> cases light <;> cases heavy <;> cases off <;> cases overflow <;>
    exact ⟨_, rfl, rfl⟩

/-- BES.PROCESS by the conditions of its byte. -/
theorem exec_besProcess_eq (s : State) :
    let c : ErrorConditions := ⟨flagLight s.port.flags, flagHeavy s.port.flags,
      flagOff s.port.flags, flagOverflow s.tr.sampleCount s.port.flags⟩
    exec .besProcess s = .next { s with
      bs := (besNext s.bs c).1
      outcome := some (.ok (.event
        (besEvent s.bs (besNext s.bs c).1 (besNext s.bs c).2 s.port.flags))) } := by
  rw [exec_besProcess, besProcess_eq, errorConditions_gateFlags]
  rfl

/-- Settles O51: the conditions of the gated byte select the row. -/
theorem besProcessFollowsTable : Obligations.BesProcessFollowsTable := by
  intro s
  obtain ⟨cond, hrow, hevent⟩ := besRow_eq s.bs ⟨flagLight s.port.flags, flagHeavy s.port.flags,
    flagOff s.port.flags, flagOverflow s.tr.sampleCount s.port.flags⟩ s.port.flags
  exact ⟨_, cond, hrow, by rw [exec_besProcess_eq, hevent]⟩

/-- Without an overflow condition no overflow is reported. -/
theorem besNext_snd_of_no_overflow (state : BusErrorState) (light heavy off : Bool) :
    (besNext state ⟨light, heavy, off, false⟩).2 = false := by
  cases state <;> cases light <;> cases heavy <;> cases off <;> rfl

theorem besEvent_of_same (state : BusErrorState) (flags : Byte) :
    besEvent state state false flags = none := by simp [besEvent]

/-- Settles O53: with BS.state kept and no overflow there is no event, and the second byte meets the
state the first one met. -/
theorem repeatedFlagsReportOnce : Obligations.RepeatedFlagsReportOnce := by
  intro s t u hflag hfirst hsecond hbs
  have hs := exec_besProcess_eq s
  simp only [hfirst, hflag, besNext_snd_of_no_overflow, Host.Outcome.next.injEq] at hs
  have hnext : (besNext s.bs ⟨flagLight s.port.flags, flagHeavy s.port.flags,
      flagOff s.port.flags, false⟩).1 = s.bs := (congrArg State.bs hs).symm.trans hbs
  rw [hnext, besEvent_of_same] at hs
  have ht := exec_besProcess_eq t
  have hkept : t.bs = s.bs ∧ t.port = s.port ∧ t.tr = s.tr := by simp [hs]
  obtain ⟨-, hport, htr⟩ := hkept
  simp only [hsecond, hbs, hport, htr, hflag, hnext, besNext_snd_of_no_overflow, besEvent_of_same,
    Host.Outcome.next.injEq] at ht
  exact ⟨by rw [hs], by rw [ht, hs]⟩

end Sys2Proof.Machine
end

section
/-! SUPPORT. ENC.FRAME: the message it leaves in the slot's TXBUF, field by field (R75, R120), and its
refusal of a frame that is too long (R123). -/

namespace Sys2Proof.Machine

/-! ### Bytes from field to field -/

/-- A range of bytes is its first part and the rest. -/
theorem Memory.bytes_add (m : Memory) (a n k : Nat) :
    m.bytes a (n + k) = m.bytes a n ++ m.bytes (a + n) k := by
  simp [Memory.bytes, List.range_add, Nat.add_assoc, Function.comp_def]

/-- A range of bytes that reads a list is the list. -/
theorem Memory.bytes_eq_of_read {m : Memory} {a : Nat} {l : List Byte}
    (h : ∀ i, i < l.length → m.read (a + i) = l.getD i 0#8) : m.bytes a l.length = l := by
  refine List.ext_getElem (Memory.bytes_length ..) fun i h1 h2 => ?_
  rw [Memory.bytes_getElem, h i h2, List.getD_eq_getElem _ _ h2]

/-! ### The message -/

theorem encodeFrame_header (f : Frame) (q : Byte) :
    (encodeFrame f q).mem.bytes 0 3 = [2#8, 1#8, encodedSl f] := by
  simp [Memory.bytes, List.range_succ, encodeFrame_read]

/-- The id field, low byte first (R68). -/
theorem encodeFrame_idField (f : Frame) (q : Byte) :
    (encodeFrame f q).mem.bytes 3 (idFieldLen f.ext)
      = (List.range (idFieldLen f.ext)).map fun i => BitVec.ofNat 8 (idFieldOf f / 256 ^ i) := by
  refine List.map_congr_left fun i hi => ?_
  have hlt := List.mem_range.mp hi
  rw [encodeFrame_read, if_neg (by omega), if_neg (by omega), if_neg (by omega), if_pos (by omega),
    Nat.add_sub_cancel_left]

theorem encodeFrame_data (f : Frame) (q : Byte) :
    (encodeFrame f q).mem.bytes (3 + idFieldLen f.ext) (sentData f).length = sentData f := by
  refine Memory.bytes_eq_of_read fun i hi => ?_
  rw [encodeFrame_read, if_neg (by omega), if_neg (by omega), if_neg (by omega), if_neg (by omega),
    if_pos (by omega), Nat.add_sub_cancel_left]

theorem encodeFrame_sequence (f : Frame) (q : Byte) :
    (encodeFrame f q).mem.read (3 + idFieldLen f.ext + (sentData f).length) = q := by
  rw [encodeFrame_read, if_neg (by omega), if_neg (by omega), if_neg (by omega), if_neg (by omega),
    if_neg (by omega), if_pos rfl]

theorem txLen_eq {f : Frame} (h : f.dlc.toNat ≤ 8) :
    txLen f = 3 + idFieldLen f.ext + (sentData f).length + 1 := by
  rw [sentData_length h, txLen, idFieldLen]
  omega

/-- An encoded message is its four fields and the sequence byte. -/
theorem encodeFrame_bytes {f : Frame} (q : Byte) (h : f.dlc.toNat ≤ 8) :
    (encodeFrame f q).bytes = [2#8, 1#8, encodedSl f]
      ++ ((List.range (idFieldLen f.ext)).map fun i => BitVec.ofNat 8 (idFieldOf f / 256 ^ i))
      ++ sentData f ++ [q] := by
  rw [Buffer.bytes, encodeFrame_len q h, txLen_eq h, Memory.bytes_add, Memory.bytes_add,
    Memory.bytes_add]
  simp only [Nat.zero_add, encodeFrame_header, encodeFrame_idField, encodeFrame_data]
  simp [Memory.bytes, encodeFrame_sequence]

/-- The id field in naturals, as the statement lays it out. -/
theorem idField_toNat (f : Frame) :
    ((List.range (idFieldLen f.ext)).map fun i =>
        (BitVec.ofNat 8 (idFieldOf f / 256 ^ i)).toNat)
      = if f.ext then [f.id.toNat * 8 % 256, f.id.toNat * 8 / 256 % 256,
          f.id.toNat * 8 / 65536 % 256, f.id.toNat * 8 / 16777216 % 256]
        else [f.id.toNat * 32 % 256, f.id.toNat * 32 / 256 % 256] := by
  cases hext : f.ext with
  | true => simp [idFieldOf_eq, hext, idFieldLen, List.range_succ]
  | false =>
    simp only [idFieldOf_eq, hext, idFieldLen, Bool.false_eq_true, if_false]
    simp [List.range_succ]
    omega

/-- The encoded message is the one of R75. -/
theorem encodeFrame_bytes_toNat {f : Frame} (q : Byte) (h : f.dlc.toNat ≤ 8) :
    (encodeFrame f q).bytes.map BitVec.toNat = txMessage f q := by
  have hdata : (sentData f).map BitVec.toNat
      = if f.rtr then [] else (f.data.toList.take f.dlc.toNat).map BitVec.toNat := by
    unfold sentData; split <;> rfl
  rw [encodeFrame_bytes q h]
  simp only [List.map_append, List.map_cons, List.map_nil, List.map_map, Function.comp_def,
    idField_toNat, hdata, encodedSl_toNat h]
  rfl

/-! ### The operation -/

theorem dlcOk_iff {f : Frame} : f.dlcOk = true ↔ f.dlc.toNat ≤ 8 := decide_eq_true_iff

/-- ENC.FRAME of a frame and a slot that it takes. -/
theorem exec_encFrame_of_ok {s : State} (hdlc : s.port.frame.dlc.toNat ≤ 8)
    (hslot : isSlot s.port.slot = true) (hfree : s.port.slot ∉ s.txInFlight) :
    exec .encFrame s = .next { s with
      txbufs := setSlotBuffer s.txbufs s.port.slot (encodeFrame s.port.frame s.txSeq)
      txSeq := s.txSeq + 1#8
      outcome := some (.ok (.bytes (encodeFrame s.port.frame s.txSeq).bytes)) } := by
  have hexec : exec .encFrame s = execEncFrame s := rfl
  rw [hexec]
  simp only [execEncFrame, dlcOk_iff.mpr hdlc, hslot, exceedsTxCap_txLen hdlc,
    List.contains_eq_mem, hfree]
  rfl

/-- ENC.FRAME completes only for a frame and a slot that it takes. -/
theorem exec_encFrame_eq_next {s t : State} (h : exec .encFrame s = .next t) :
    s.port.frame.dlc.toNat ≤ 8 ∧ t = { s with
      txbufs := setSlotBuffer s.txbufs s.port.slot (encodeFrame s.port.frame s.txSeq)
      txSeq := s.txSeq + 1#8
      outcome := some (.ok (.bytes (encodeFrame s.port.frame s.txSeq).bytes)) } := by
  replace h : execEncFrame s = .next t := h
  simp only [execEncFrame] at h
  split at h
  · cases h
  next hdlc =>
    replace hdlc : s.port.frame.dlcOk = true := by simpa using hdlc
    repeat' split at h
    all_goals cases h
    exact ⟨dlcOk_iff.mp hdlc, rfl⟩

/-- Settles O28: the slot's TXBUF is the encoded message, and no other slot's changes. -/
theorem encFrameWritesMessage : Obligations.EncFrameWritesMessage := by
  intro s hdlc hslot hfree
  have hown : slotBuffer (setSlotBuffer s.txbufs s.port.slot (encodeFrame s.port.frame s.txSeq))
      s.port.slot = encodeFrame s.port.frame s.txSeq := by
    rw [slotBuffer_setSlotBuffer, if_pos rfl]
  refine ⟨setSlotBuffer s.txbufs s.port.slot (encodeFrame s.port.frame s.txSeq), s.txSeq + 1#8,
    ?_, ?_, ?_, BitVec.toNat_add .., fun k hk => ?_⟩
  · rw [exec_encFrame_of_ok hdlc hslot hfree, hown]
  · rw [hown, encodeFrame_bytes_toNat _ hdlc]
  · rw [hown, encodeFrame_len _ hdlc]; rfl
  · rw [slotBuffer_setSlotBuffer, if_neg hk]

/-- Settles O29: the length is checked first. -/
theorem encFrameRefusesLargeDlc : Obligations.EncFrameRefusesLargeDlc := by
  intro s hlarge
  have hdlc : s.port.frame.dlcOk = false :=
    Bool.eq_false_iff.mpr fun h => by have := dlcOk_iff.mp h; omega
  have hexec : exec .encFrame s = execEncFrame s := rfl
  simp [hexec, execEncFrame, hdlc]

end Sys2Proof.Machine
end

section
/-! SUPPORT. The record kinds in an open pass: the lengths and the context of R67 to R73 in the terms of
the statements, what each kind does when it fits (R134 to R143), and that it does nothing when it does
not (R132, R144). -/

namespace Sys2Proof.Machine

/-! ### Lengths and the context after a record -/

theorem tsFieldLen_eq (ts : Bool) (c : DecodeCtx) : tsFieldLen ts c = tsLen ts c := rfl

theorem dataLen_eq (rtr : Bool) (len : BitVec 4) : dataLen rtr len = recordDlc rtr len := by
  rw [dataLen, recordDlc, clampDlc_toNat]

theorem dataRest_eq (ext ts rtr : Bool) (len : BitVec 4) (c : DecodeCtx) :
    dataRest ext ts rtr len c = dataSize ext ts rtr len c := by
  rw [dataRest, dataSize, dataLen_eq, tsFieldLen_eq, idFieldLen]

theorem payloadBytes_eq (f : Byte) (len : BitVec 4) :
    payloadBytes f.toNat len = payloadLen f len := by
  have hiff (g : Byte) : f.toNat = g.toNat ↔ f = g := BitVec.toNat_inj
  have h2 : f.toNat = 2 ↔ f = 2#8 := hiff 2#8
  have h3 : f.toNat = 3 ↔ f = 3#8 := hiff 3#8
  simp only [payloadBytes, payloadLen, h2, h3]

theorem internalRest_eq (f : Byte) (ts : Bool) (len : BitVec 4) (c : DecodeCtx) :
    internalRest f.toNat ts len c = internalSize f ts len c := by
  rw [internalRest, internalSize, payloadBytes_eq, tsFieldLen_eq]

theorem tickAfter_lt (m : Memory) (a : Nat) (c : DecodeCtx) : tickAfter m a c < 2 ^ 16 := by
  have hlow := (m.read a).isLt
  have hhigh := (m.read (a + 1)).isLt
  simp only [tickAfter]
  split <;> omega

theorem tickAfter_toNat (m : Memory) (a : Nat) (c : DecodeCtx) :
    (BitVec.ofNat 16 (tickAfter m a c)).toNat = tickAfter m a c :=
  Nat.mod_eq_of_lt (tickAfter_lt m a c)

/-- The rolling counter that a timestamp field leaves (R134). -/
theorem tsStep_ts16 (b : Buffer) (c : DecodeCtx) :
    (tsStep true b c).ts16 = BitVec.ofNat 16 (tickAfter b.mem c.pc c) := by
  by_cases hfirst : c.tsIdx = 0
  · simp [tsStep, tickAfter, hfirst, Memory.memRead]
  · refine BitVec.eq_of_toNat_eq ?_
    rw [tickAfter_toNat]
    simp only [tsStep, tickAfter, hfirst, if_true, if_false, rollTick_toNat]

/-- The context after `k` bytes, a timestamp field and `n` bytes. -/
theorem tsStep_skip (ts : Bool) (b : Buffer) (c : DecodeCtx) (k n : Nat) :
    (tsStep ts b (c.skip k)).skip n
      = ctxAfter b.mem ts (c.pc + k) (c.pc + (k + tsLen ts c + n)) c := by
  have hpc : c.pc + k + tsLen ts c + n = c.pc + (k + tsLen ts c + n) := by omega
  cases ts with
  | false => simp only [tsStep, ctxAfter, DecodeCtx.skip, ← hpc]; rfl
  | true =>
    have htick := tsStep_ts16 b (c.skip k)
    have hafter : tickAfter b.mem (c.skip k).pc (c.skip k) = tickAfter b.mem (c.pc + k) c := rfl
    rw [hafter] at htick
    simp only [ctxAfter, ← htick, ← hpc]
    rfl

theorem dataStep_eq (ext ts rtr : Bool) (len : BitVec 4) (b : Buffer) (c : DecodeCtx) :
    dataStep ext ts rtr len b c = ctxAfter b.mem ts (c.pc + if ext then 4 else 2)
      (c.pc + dataRest ext ts rtr len c) c := by
  rw [dataRest_eq]
  exact tsStep_skip ts b c (idFieldLen ext) (recordDlc rtr len)

theorem internalStep_eq (f : Byte) (ts : Bool) (len : BitVec 4) (b : Buffer) (c : DecodeCtx) :
    internalStep f ts len b c
      = ctxAfter b.mem ts (c.pc + 2) (c.pc + internalRest f.toNat ts len c) c := by
  rw [internalRest_eq]
  exact tsStep_skip ts b c 2 (payloadLen f len)

/-! ### Data records -/

theorem exec_dataRecord (ext ts rtr : Bool) (len : BitVec 4) (s : State) :
    exec (dataRecord ext ts rtr len) s = runData false ext ts rtr len s := by cases ext <;> rfl

theorem idOfField_toNat (ext : Bool) (m : Memory) (a : Nat) :
    (idOfField ext (m.memRead a (idFieldLen ext))).toNat
      = if ext then m.memRead a 4 / 8 else m.memRead a 2 / 32 := by
  cases ext with
  | false =>
    have hlt := m.memRead_lt a 2
    simp only [idOfField, idFieldLen, Bool.false_eq_true, if_false, BitVec.toNat_ofNat,
      Nat.shiftRight_eq_div_pow]
    omega
  | true =>
    have hlt := m.memRead_lt a 4
    simp only [idOfField, idFieldLen, if_true, BitVec.toNat_ofNat, Nat.shiftRight_eq_div_pow]
    omega

/-- The frame a data record emits is the one its fields spell (R68, R69, R135). -/
theorem frameReads_frameOf (ext ts rtr : Bool) (len : BitVec 4) (b : Buffer) (c : DecodeCtx)
    (tick : Option Tick) (hw : Option Instant) :
    frameReads b.mem c.pc ext ts rtr len c
      (frameOf ext rtr (dataFields ext ts rtr len b c) tick hw) := by
  refine ⟨rfl, rfl, clampDlc_toNat len, idOfField_toNat ext b.mem c.pc, fun i => ?_⟩
  rw [dataLen_eq]
  exact dataAt_getElem ..

/-- A data record without timestamp that fits. -/
theorem exec_dataRecord_plain {s : State} {c : DecodeCtx} {ext rtr : Bool} {len : BitVec 4}
    (hdc : s.dc = some c) (hfits : c.pc + dataRest ext false rtr len c ≤ s.rxbuf.len) :
    exec (dataRecord ext false rtr len) s = .next { s with
      dc := some { c with pc := c.pc + dataRest ext false rtr len c }
      items := s.items
        ++ [.frame (frameOf ext rtr (dataFields ext false rtr len s.rxbuf c) none none)] } := by
  rw [dataRest_eq] at hfits
  rw [exec_dataRecord, runData, hdc]
  simp only [parseData_of_fits hfits, dataStep_eq]
  rfl

/-- Settles O33: the parse phase and the emitted frame. -/
theorem dataRecordWithoutTimestamp : Obligations.DataRecordWithoutTimestamp :=
  fun _ c ext rtr len hdc hfits => ⟨_, exec_dataRecord_plain hdc hfits,
    frameReads_frameOf ext false rtr len _ c none none, rfl, rfl⟩

theorem tssCompute_of_draw {s : State} {now : Instant} {k : HostClock}
    (h : s.clock.draw = .ok (now, k)) (tick : Tick) :
    tssCompute s tick = .ok (s.tr.compute tick now, { s with clock := k }) := by
  simp only [tssCompute, h]

theorem TimeRef.compute_toNat (tr : TimeRef) (tick : Tick) (now : Instant) :
    (tr.compute tick now).toNat = if tr.epochValid then
        (tr.hostEpoch0.toNat
          + ((tr.cumulativeTicks.toNat + (tick.toNat + 65536 - tr.devTickLast.toNat) % 65536)
              * 44739243) / 2 ^ 20) % 2 ^ 64
      else now.toNat := by
  split
  next hepoch => rw [TimeRef.compute_of_epoch hepoch, TimeRef.hostTime_toNat]
  next hnone => rw [TimeRef.compute_of_no_epoch (by simpa using hnone)]

/-- A data record with timestamp that fits is its effect phase, with the rolled tick. -/
theorem exec_dataRecord_stamped {s : State} {c : DecodeCtx} {ext rtr : Bool} {len : BitVec 4}
    (hdc : s.dc = some c) (hfits : c.pc + dataRest ext true rtr len c ≤ s.rxbuf.len) :
    let tick := BitVec.ofNat 16 (tickAfter s.rxbuf.mem (c.pc + if ext then 4 else 2) c)
    exec (dataRecord ext true rtr len) s
      = dataEffect ext rtr (dataFields ext true rtr len s.rxbuf c) tick
          { s with dc := some { c with
            pc := c.pc + dataRest ext true rtr len c, ts16 := tick, tsIdx := c.tsIdx + 1 } } := by
  rw [dataRest_eq] at hfits
  rw [exec_dataRecord, runData, hdc]
  simp only [parseData_of_fits hfits, dataStep_eq]
  rfl

/-- The effect phase of a timestamped data record, on a sample (R135, R163). -/
theorem dataEffect_of_draw {s : State} {now : Instant} {k : HostClock} {d : DataFields}
    (hdraw : s.clock.draw = .ok (now, k)) (hstamped : d.stamped = true) (ext rtr : Bool)
    (tick : Tick) : dataEffect ext rtr d tick s = .next { s with
      items := s.items
        ++ [.frame (frameOf ext rtr d (some tick) (some (s.tr.compute tick now)))]
      clock := k } := by
  simp only [dataEffect, hstamped, if_true, tssCompute_of_draw hdraw]
  rfl

/-- Settles O34: TSS.COMPUTE of the rolled tick stands in the frame. -/
theorem dataRecordWithTimestamp : Obligations.DataRecordWithTimestamp := by
  intro s c ext rtr len now k hdc hfits hdraw
  refine ⟨_, BitVec.ofNat 16 (tickAfter s.rxbuf.mem (c.pc + if ext then 4 else 2) c), s.tr.compute _ now,
    ?_, frameReads_frameOf ext true rtr len s.rxbuf c _ _, tickAfter_toNat .., rfl, rfl,
    TimeRef.compute_toNat ..⟩
  exact (exec_dataRecord_stamped hdc hfits).trans (dataEffect_of_draw (by exact hdraw) rfl ext rtr _)

/-! ### Internal records -/

/-- An internal record that fits is its effect, with the cursor past it. -/
theorem runInternal_of_fits {s : State} {c : DecodeCtx} {f : Byte} {ts : Bool} {len : BitVec 4}
    (effect : Byte → DecodeCtx → State → Answer) (hdc : s.dc = some c)
    (hfits : c.pc + internalRest f.toNat ts len c ≤ s.rxbuf.len) :
    let c' := ctxAfter s.rxbuf.mem ts (c.pc + 2) (c.pc + internalRest f.toNat ts len c) c
    runInternal f ts len effect s
      = effect (s.rxbuf.mem.read (c.pc + 1)) c' { s with dc := some c' } := by
  rw [internalRest_eq] at hfits
  simp only [runInternal, hdc, parseInternal_of_fits hfits, internalStep_eq]

/-- Settles O35: the four kinds that are skipped. -/
theorem skippedRecordsOnlyAdvance : Obligations.SkippedRecordsOnlyAdvance := by
  intro s c i f ts ign len hdc hkind hfits
  have hskip : exec i s = runInternal f ts len skipEffect s := by
    rcases hkind with ⟨rfl, rfl⟩ | ⟨rfl, rfl⟩ | ⟨rfl, rfl⟩ | ⟨rfl, -⟩ <;> rfl
  exact hskip.trans (runInternal_of_fits skipEffect hdc hfits)

/-- The effect of an error record: the state BES.PROCESS leaves, and its event if there is one. -/
theorem errorEffect_eq (number : Byte) (c : DecodeCtx) (s : State) :
    errorEffect number c s = .next { s with
      bs := (besProcess s number).1.bs
      items := s.items ++ ((besProcess s number).2.toList.map .errorEvent) } := by
  rw [errorEffect, besProcess_eq]
  cases besEvent s.bs (besNext s.bs (errorConditions (gateFlags s.tr.sampleCount number))).1
      (besNext s.bs (errorConditions (gateFlags s.tr.sampleCount number))).2 number with
  | none => simp
  | some e => rfl

/-- Settles O36: BES.PROCESS looks at BS.state, the sample count and its byte alone. -/
theorem recIntErrorDrivesBusState : Obligations.RecIntErrorDrivesBusState := by
  intro s c ts ign len hdc hfits
  refine ⟨_, _, exec_besProcess _, rfl, ?_⟩
  have hexec : exec (.recIntError ts ign len) s = runInternal 1#8 ts len errorEffect s := rfl
  rw [hexec, runInternal_of_fits (f := 1#8) errorEffect hdc hfits, errorEffect_eq]
  rfl

theorem tssSet_of_draw {s : State} {now : Instant} {k : HostClock}
    (h : s.clock.draw = .ok (now, k)) (tick : Tick) :
    tssSet s tick = .ok { s with tr := s.tr.set tick now, clock := k } := by
  simp only [tssSet, h]

/-- The first timestamped REC.INT.TS of a message, on a sample (R141, R161). -/
theorem tsEffect_of_first {s : State} {c : DecodeCtx} {now : Instant} {k : HostClock}
    (hseen : c.syncSeen = false) (hdraw : s.clock.draw = .ok (now, k)) (number : Byte) :
    tsEffect true number c s = .next { s with
      tr := s.tr.set c.ts16 now, clock := k, dc := some { c with syncSeen := true }
      items := s.items ++ [.timestampOnly c.ts16] } := by
  simp only [tsEffect, hseen, Bool.not_true, Bool.false_eq_true, if_false, tssSet_of_draw hdraw]
  rfl

/-- A later timestamped REC.INT.TS of a message (R141, R162). -/
theorem tsEffect_of_later {s : State} {c : DecodeCtx} (hseen : c.syncSeen = true) (number : Byte) :
    tsEffect true number c s = .next { s with
      tr := s.tr.accumulate c.ts16, dc := some { c with syncSeen := true }
      items := s.items ++ [.timestampOnly c.ts16] } := by
  simp only [tsEffect, hseen, Bool.not_true, Bool.false_eq_true, if_false, if_true]
  rfl

/-- Settles O37: the effect of REC.INT.TS in its three cases. -/
theorem recIntTsFeedsSynchronizer : Obligations.RecIntTsFeedsSynchronizer := by
  intro s c ign len hdc
  have hexec (ts : Bool) :
      exec (.recIntTs ts ign len) s = runInternal 4#8 ts len (tsEffect ts) s := rfl
  refine ⟨fun hfits => ?_, fun now k hfits hdraw => ?_⟩
  · rw [hexec, runInternal_of_fits (f := 4#8) _ hdc hfits]
    rfl
  · have htick := tickAfter_toNat s.rxbuf.mem (c.pc + 2) c
    rw [hexec, runInternal_of_fits (f := 4#8) _ hdc hfits]
    cases hseen : c.syncSeen with
    | true => exact ⟨_, _, htick, exec_tssUpdate _, tsEffect_of_later (by exact hseen) _⟩
    | false =>
      have hsample := hdraw hseen
      exact ⟨_, _, htick, exec_tssSet_of_draw (by exact hsample),
        tsEffect_of_first (by exact hseen) (by exact hsample) _⟩

/-! ### Records that do not fit -/

theorem State.framingAt_eq (s : State) (rec off : Nat) :
    s.abortPass (.framing rec off) = s.framingAt rec off := rfl

theorem exec_dataRecord_of_short {s : State} {c : DecodeCtx} {ext ts rtr : Bool} {len : BitVec 4}
    (hdc : s.dc = some c) (hshort : s.rxbuf.len < c.pc + dataRest ext ts rtr len c) :
    exec (dataRecord ext ts rtr len) s = .next (s.framingAt c.recIdx
      (firstUnfit s.rxbuf.len c.pc [if ext then 4 else 2, tsFieldLen ts c, dataLen rtr len])) := by
  rw [dataRest_eq] at hshort
  rw [exec_dataRecord, runData, hdc, dataLen_eq]
  simp only [parseData_of_short hshort]
  rfl

theorem runInternal_of_short {s : State} {c : DecodeCtx} {f : Byte} {ts : Bool} {len : BitVec 4}
    (effect : Byte → DecodeCtx → State → Answer) (hdc : s.dc = some c)
    (hshort : s.rxbuf.len < c.pc + internalRest f.toNat ts len c) :
    runInternal f ts len effect s = .next (s.framingAt c.recIdx
      (firstUnfit s.rxbuf.len c.pc [2, tsFieldLen ts c, payloadBytes f.toNat len])) := by
  rw [internalRest_eq] at hshort
  rw [payloadBytes_eq, runInternal, hdc]
  simp only [parseInternal_of_short hshort]
  rfl

theorem step_of_open {s : State} {c : DecodeCtx} (hdc : s.dc = some c) :
    step s = recordTurn exec s := by simp only [step, hdc]

/-- A turn whose fetch does not fit. -/
theorem step_of_shortFetch {s : State} {c : DecodeCtx} (hdc : s.dc = some c)
    (hshort : s.rxbuf.len < c.pc + (if slInt (s.rxbuf.mem.read c.pc) then 3 else 1)) :
    step s = .next (s.framingAt c.recIdx (firstUnfit s.rxbuf.len c.pc
      [1, if slInt (s.rxbuf.mem.read c.pc) then 2 else 0])) := by
  rw [step_of_open hdc, recordTurn, hdc]
  simp only [fetchRecord_of_short hshort]
  rfl

/-- Settles O38: by the parse phase of the two forms of record, and by the fetch. -/
theorem truncatedRecordHasNoEffect : Obligations.TruncatedRecordHasNoEffect := by
  refine fun s c hdc => ⟨fun ext ts rtr len hshort => exec_dataRecord_of_short hdc hshort,
    fun i f ts ign len hkind hshort => ?_, fun hshort => ?_, fun hsl hint hshort => ?_⟩
  · obtain ⟨effect, hexec⟩ : ∃ effect, exec i s = runInternal f ts len effect s := by
      rcases hkind with ⟨rfl, rfl⟩ | ⟨rfl, rfl⟩ | ⟨rfl, rfl⟩ | ⟨rfl, rfl⟩ | ⟨rfl, rfl⟩ | ⟨rfl, -⟩ <;>
        exact ⟨_, rfl⟩
    exact hexec.trans (runInternal_of_short effect hdc hshort)
  · rw [step_of_shortFetch hdc (by split <;> omega), firstUnfit, if_pos hshort]
  · replace hint : slInt (s.rxbuf.mem.read c.pc) = true := hint
    rw [step_of_shortFetch hdc (by simpa [hint] using hshort), firstUnfit, if_neg (by omega), hint,
      if_pos rfl, firstUnfit, if_pos (by omega)]

/-- Settles O39: the first field sets the counter without reading it. -/
theorem firstTimestampIgnoresCounter : Obligations.FirstTimestampIgnoresCounter := by
  intro b c ts16 hfirst
  simp only [decodeTs, hfirst, if_true]
  rfl

end Sys2Proof.Machine
end

section
/-! SUPPORT. A whole message: DEC.MESSAGE by its header (R130), and the pass over its records as one
derivation, record by record, that every statement about a message goes by (R133, R145, R146). -/

namespace Sys2Proof.Machine

/-! ### The header -/

theorem exec_decMessage_of_empty {s : State} (h : s.rxbuf.len = 0) : exec .decMessage s
    = .next { s with items := [], outcome := some (.ok (.version none)) } := by
  have hexec : exec .decMessage s = execDecMessage s := rfl
  rw [hexec, execDecMessage, if_pos h]
  rfl

theorem exec_decMessage_of_oneByte {s : State} (h : s.rxbuf.len = 1) : exec .decMessage s
    = .next { s with items := [], outcome := some (.fault (.framing 0 0)) } := by
  have hexec : exec .decMessage s = execDecMessage s := rfl
  rw [hexec, execDecMessage, if_neg (by omega), if_pos (by omega)]
  rfl

/-- With a header, DEC.MESSAGE is the pass over its records. -/
theorem exec_decMessage_of_header {s : State} (h : 2 ≤ s.rxbuf.len) :
    exec .decMessage s = runPass execRecord (s.rxbuf.mem.read 1).toNat s.openPass := by
  have hexec : exec .decMessage s = execDecMessage s := rfl
  rw [hexec, execDecMessage, if_neg (by omega), if_neg (by omega)]

/-- A header of no records ends the pass it opens. -/
theorem State.openPass_of_none {s : State} (h : s.rxbuf.mem.read 1 = 0#8) :
    s.openPass = { s with
      items := [], dc := none
      outcome := some (.ok (.version (some (s.rxbuf.mem.read 0)))) } := by
  have hdone : (headerCtx s.rxbuf).recCount.toNat ≤ (headerCtx s.rxbuf).recIdx := by
    simp [headerCtx, h]
  exact State.nextRecord_of_le hdone

theorem headerCtx_hasRecords {b : Buffer} (h : b.mem.read 1 ≠ 0#8) :
    (headerCtx b).recIdx < (headerCtx b).recCount.toNat :=
  Nat.pos_of_ne_zero fun h0 => h (BitVec.eq_of_toNat_eq h0)

/-- A header of some records leaves the context of R130. -/
theorem State.openPass_of_records {s : State} (h : s.rxbuf.mem.read 1 ≠ 0#8) :
    s.openPass = s.afterHeader := State.nextRecord_of_lt (headerCtx_hasRecords h)

theorem State.afterHeader_dc (s : State) : s.afterHeader.dc = some (headerCtx s.rxbuf) := rfl

theorem exec_decMessage_of_noRecords {s : State} (hlen : 2 ≤ s.rxbuf.len)
    (h : s.rxbuf.mem.read 1 = 0#8) : exec .decMessage s = .next { s with
      items := [], dc := none
      outcome := some (.ok (.version (some (s.rxbuf.mem.read 0)))) } := by
  rw [exec_decMessage_of_header hlen, State.openPass_of_none h, runPass_of_closed rfl]

/-- Settles O40: the two short messages, and a pass that closes as it opens. -/
theorem decMessageHeaderCases : Obligations.DecMessageHeaderCases := fun _ =>
  ⟨exec_decMessage_of_empty, exec_decMessage_of_oneByte, exec_decMessage_of_noRecords⟩

/-! ### The pass as a derivation -/

/-- The context of the next record (R130). -/
def DecodeCtx.next (c : DecodeCtx) : DecodeCtx := { c with recIdx := c.recIdx + 1 }

@[simp] theorem DecodeCtx.next_recIdx (c : DecodeCtx) : c.next.recIdx = c.recIdx + 1 := rfl
@[simp] theorem DecodeCtx.next_recCount (c : DecodeCtx) : c.next.recCount = c.recCount := rfl
@[simp] theorem DecodeCtx.next_version (c : DecodeCtx) : c.next.version = c.version := rfl

/-- What the pass from an open state with a record left comes to: a record that does not fit ends it, a
clock that ran backwards refuses it, the last record closes it, and any other goes on to the next. -/
inductive PassRun : State → DecodeCtx → Answer → Prop
  | framing {s : State} {c : DecodeCtx} {off : Nat} (hdc : s.dc = some c)
      (hleft : c.recIdx < c.recCount.toNat) (hoff : c.pc ≤ off ∧ (c.pc ≤ s.rxbuf.len → off ≤ s.rxbuf.len))
      (hturn : recordTurn execRecord s = .next (s.framingAt c.recIdx off)) :
      PassRun s c (.next (s.framingAt c.recIdx off))
  | backwards {s : State} {c : DecodeCtx} (hdc : s.dc = some c) (hleft : c.recIdx < c.recCount.toNat)
      (hturn : recordTurn execRecord s = .refused .clockBackwards)
      (hclock : s.clock.draw = .error .clockBackwards) :
      PassRun s c (.refused .clockBackwards)
  | last {s t : State} {c c' : DecodeCtx} (hdc : s.dc = some c) (hleft : c.recIdx < c.recCount.toNat)
      (heffect : s.RecordEffect t c c') (hturn : recordTurn execRecord s = .next (t.closePass c'.next)) :
      PassRun s c (.next (t.closePass c'.next))
  | more {s t : State} {c c' : DecodeCtx} {a : Answer} (hdc : s.dc = some c)
      (hleft : c.recIdx < c.recCount.toNat) (heffect : s.RecordEffect t c c')
      (hturn : recordTurn execRecord s = .next { t with dc := some c'.next })
      (hrest : PassRun { t with dc := some c'.next } c'.next a) : PassRun s c a

/-- As many turns as records are left run the pass to its end. -/
theorem runPass_passRun {n : Nat} {s : State} {c : DecodeCtx} (hdc : s.dc = some c)
    (hleft : c.recIdx < c.recCount.toNat) (hn : c.recCount.toNat ≤ c.recIdx + n) :
    PassRun s c (runPass execRecord n s) := by
  induction n generalizing s c with
  | zero => omega
  | succ n ih =>
    rw [runPass_succ hdc]
    obtain ⟨off, hge, hle, hturn⟩ | ⟨t, c', hturn, heffect⟩ | ⟨hturn, hclock⟩ := recordTurn_cases hdc
    · have hclosed : (s.framingAt c.recIdx off).dc = none := rfl
      simp only [hturn]
      rw [State.framingAt_eq, runPass_of_closed hclosed]
      exact .framing hdc hleft ⟨hge, hle⟩ hturn
    · rw [← heffect.recIdx] at hturn
      replace hturn : recordTurn execRecord s = .next (t.nextRecord c'.next) := hturn
      have hcount := heffect.recCount
      have hidx := heffect.recIdx
      simp only [hturn]
      by_cases hmore : c'.next.recIdx < c'.next.recCount.toNat
      · rw [State.nextRecord_of_lt hmore] at hturn ⊢
        exact .more hdc hleft heffect hturn (ih rfl hmore (by
          rw [DecodeCtx.next_recCount, DecodeCtx.next_recIdx, hcount, hidx]; omega))
      · rw [State.nextRecord_of_le (Nat.le_of_not_lt hmore)] at hturn ⊢
        have hclosed : (t.closePass c'.next).dc = none := rfl
        rw [runPass_of_closed hclosed]
        exact .last hdc hleft heffect hturn
    · simp only [hturn]
      exact .backwards hdc hleft hturn hclock

/-- DEC.MESSAGE of some records is the pass from the header on. -/
theorem exec_decMessage_passRun {s : State} (hlen : 2 ≤ s.rxbuf.len)
    (hrecords : s.rxbuf.mem.read 1 ≠ 0#8) :
    PassRun s.afterHeader (headerCtx s.rxbuf) (exec .decMessage s) := by
  rw [exec_decMessage_of_header hlen, State.openPass_of_records hrecords]
  exact runPass_passRun s.afterHeader_dc (headerCtx_hasRecords hrecords) (Nat.le_add_left ..)

/-- The forms DEC.MESSAGE takes: decided by its header, or the pass over its records. -/
theorem exec_decMessage_cases (s : State) :
    (∃ dc outcome, (dc = s.dc ∨ dc = none)
        ∧ exec .decMessage s = .next { s with items := [], dc, outcome })
      ∨ PassRun s.afterHeader (headerCtx s.rxbuf) (exec .decMessage s) := by
  by_cases hlen : 2 ≤ s.rxbuf.len
  · by_cases hrecords : s.rxbuf.mem.read 1 = 0#8
    · exact .inl ⟨_, _, .inr rfl, exec_decMessage_of_noRecords hlen hrecords⟩
    · exact .inr (exec_decMessage_passRun hlen hrecords)
  · by_cases hempty : s.rxbuf.len = 0
    · exact .inl ⟨s.dc, _, .inl rfl, exec_decMessage_of_empty hempty⟩
    · exact .inl ⟨s.dc, _, .inl rfl, exec_decMessage_of_oneByte (by omega)⟩

/-! ### What a pass leaves alone, and how it ends -/

theorem State.sameOutsidePass_dc (s : State) (dc : Option DecodeCtx) :
    s.SameOutsidePass { s with dc } := .of_eq s ..

theorem State.sameOutsidePass_framingAt (s : State) (rec off : Nat) :
    s.SameOutsidePass (s.framingAt rec off) := .of_eq s ..

theorem State.sameOutsidePass_closePass (s : State) (c : DecodeCtx) :
    s.SameOutsidePass (s.closePass c) := .of_eq s ..

theorem State.sameOutsidePass_afterHeader (s : State) : s.SameOutsidePass s.afterHeader :=
  .of_eq s ..

/-- A pass that ends leaves its context closed and everything outside it alone. -/
theorem PassRun.closed {s t : State} {c : DecodeCtx} {a : Answer} (h : PassRun s c a)
    (ha : a = .next t) : t.dc = none ∧ s.SameOutsidePass t := by
  induction h with
  | framing => cases ha; exact ⟨rfl, State.sameOutsidePass_framingAt ..⟩
  | backwards => cases ha
  | last hdc hleft heffect =>
    cases ha
    exact ⟨rfl, heffect.outside.trans (State.sameOutsidePass_closePass ..)⟩
  | more hdc hleft heffect hturn hrest ih =>
    obtain ⟨hclosed, hsame⟩ := ih ha
    exact ⟨hclosed, heffect.outside.trans ((State.sameOutsidePass_dc ..).trans hsame)⟩

/-- DEC.MESSAGE leaves everything outside its pass alone, and no context that it did not find. -/
theorem exec_decMessage_closed {s t : State} (h : exec .decMessage s = .next t) :
    (t.dc = s.dc ∨ t.dc = none) ∧ s.SameOutsidePass t := by
  obtain ⟨dc, outcome, hdc, hexec⟩ | hrun := exec_decMessage_cases s
  · rw [h] at hexec
    cases hexec
    exact ⟨hdc, .of_eq s ..⟩
  · obtain ⟨hclosed, hsame⟩ := hrun.closed h
    exact ⟨.inr hclosed, s.sameOutsidePass_afterHeader.trans hsame⟩

/-- A clock that keeps its duty keeps it over a record. -/
theorem State.RecordEffect.monotone {s t : State} {c c' : DecodeCtx} (h : s.RecordEffect t c c')
    (hclock : s.clock.monotone = true) : t.clock.monotone = true := by
  obtain hsame | ⟨now, hdraw⟩ := h.clock
  · rw [hsame]; exact hclock
  · obtain ⟨now', k, hdraw', hk⟩ := HostClock.draw_of_monotone hclock
    rw [hdraw] at hdraw'
    cases hdraw'
    exact hk

/-- A pass on a clock that keeps its duty ends, with Ok and the version or with FramingError of one of
the records left (R145, R146). -/
theorem PassRun.ends {s : State} {c : DecodeCtx} {a : Answer} (h : PassRun s c a)
    (hclock : s.clock.monotone = true) (hpc : c.pc ≤ s.rxbuf.len) :
    ∃ t, a = .next t ∧ (t.outcome = some (.ok (.version (some c.version)))
      ∨ ∃ rec off, t.outcome = some (.fault (.framing rec off))
          ∧ rec < c.recCount.toNat ∧ c.pc ≤ off ∧ off ≤ s.rxbuf.len) := by
  induction h with
  | framing hdc hleft hoff => exact ⟨_, rfl, .inr ⟨_, _, rfl, hleft, hoff.1, hoff.2 hpc⟩⟩
  | backwards hdc hleft hturn hdraw =>
    obtain ⟨now, k, hdraw', -⟩ := HostClock.draw_of_monotone hclock
    rw [hdraw] at hdraw'
    cases hdraw'
  | last hdc hleft heffect => exact ⟨_, rfl, .inl (by simp [heffect.version])⟩
  | more hdc hleft heffect hturn hrest ih =>
    obtain ⟨t, ha, hend⟩ := ih (heffect.monotone hclock) (heffect.outside.rxbuf ▸ heffect.pc_le)
    rw [DecodeCtx.next_version, heffect.version] at hend
    refine ⟨t, ha, hend.imp_right fun ⟨rec, off, hfault, hrec, hge, hle⟩ => ⟨rec, off, hfault, ?_, ?_, ?_⟩⟩
    · rwa [DecodeCtx.next_recCount, heffect.recCount] at hrec
    · exact heffect.pc_ge.trans hge
    · exact heffect.outside.rxbuf ▸ hle

/-- Settles O41: by the derivation of the pass, on a clock that refuses no sample. -/
theorem decMessageAlwaysEnds : Obligations.DecMessageAlwaysEnds := by
  intro s hlen hclock
  suffices h : ∃ t, exec .decMessage s = .next t ∧ t.dc = none
      ∧ (t.outcome = some (.ok (.version (some (s.rxbuf.mem.read 0))))
        ∨ ∃ rec off, t.outcome = some (.fault (.framing rec off))
          ∧ rec < (s.rxbuf.mem.read 1).toNat ∧ 2 ≤ off ∧ off ≤ s.rxbuf.len) by
    obtain ⟨t, hexec, hdc, hend⟩ := h
    obtain ⟨-, hsame⟩ := exec_decMessage_closed hexec
    exact ⟨t, hexec, hdc, hend, ⟨hsame.rxbuf, hsame.rplbuf, hsame.cmdbuf, hsame.txbufs⟩,
      hsame.txSeq, hsame.txInFlight, hsame.asyncInFlight, hsame.cmdOutstanding, hsame.events,
      hsame.calls⟩
  by_cases hrecords : s.rxbuf.mem.read 1 = 0#8
  · exact ⟨_, exec_decMessage_of_noRecords hlen hrecords, rfl, .inl rfl⟩
  · have hrun := exec_decMessage_passRun hlen hrecords
    obtain ⟨t, hexec, hend⟩ := hrun.ends hclock hlen
    exact ⟨t, hexec, (hrun.closed hexec).1, hend⟩

/-! ### The records run one step each -/

/-- A step in an open pass is a turn of it. -/
theorem step_of_turn {s : State} {c : DecodeCtx} {a : Answer} (hdc : s.dc = some c)
    (hturn : recordTurn execRecord s = a) : step s = a := by
  rw [step_of_open hdc, recordTurn_exec, hturn]

theorem core_run_of_next {s t : State} (n : Nat) (h : step s = .next t) :
    Host.Core.run core (n + 1) s = Host.Core.run core n t := by
  have hstep : core.step s = .next t := h
  simp only [Host.Core.run, hstep]

theorem core_run_of_refused {s : State} {r : Refusal} (n : Nat) (h : step s = .refused r) :
    Host.Core.run core (n + 1) s = .refused r := by
  have hstep : core.step s = .refused r := h
  simp only [Host.Core.run, hstep]

/-- The machine reaches in steps what the pass comes to. -/
theorem PassRun.run_eq {s : State} {c : DecodeCtx} {a : Answer} (h : PassRun s c a) :
    ∃ n, c.recIdx + n ≤ c.recCount.toNat ∧ Host.Core.run core n s = a := by
  induction h with
  | framing hdc hleft hoff hturn =>
    exact ⟨1, hleft, core_run_of_next 0 (step_of_turn hdc hturn)⟩
  | backwards hdc hleft hturn hclock =>
    exact ⟨1, hleft, core_run_of_refused 0 (step_of_turn hdc hturn)⟩
  | last hdc hleft heffect hturn =>
    exact ⟨1, hleft, core_run_of_next 0 (step_of_turn hdc hturn)⟩
  | more hdc hleft heffect hturn hrest ih =>
    obtain ⟨n, hn, hrun⟩ := ih
    rw [DecodeCtx.next_recIdx, DecodeCtx.next_recCount, heffect.recIdx, heffect.recCount] at hn
    exact ⟨n + 1, by omega, (core_run_of_next n (step_of_turn hdc hturn)).trans hrun⟩

/-- Settles O42: each turn of the pass is a step of the machine. -/
theorem decMessageRunsRecordsInOrder : Obligations.DecMessageRunsRecordsInOrder := by
  refine fun s hlen => ⟨exec_decMessage_of_noRecords hlen, fun hrecords => ?_⟩
  obtain ⟨n, hn, hrun⟩ := (exec_decMessage_passRun hlen hrecords).run_eq
  exact ⟨n, (Nat.le_add_left n _).trans hn, hrun⟩

/-- A pass that ends in FramingError has run the records before the faulting one, and no other. -/
theorem PassRun.framing_run {s t : State} {c : DecodeCtx} {a : Answer} {rec off : Nat}
    (h : PassRun s c a) (ha : a = .next t) (hfault : t.outcome = some (.fault (.framing rec off))) :
    ∃ k u c', rec = c.recIdx + k ∧ Host.Core.run core k s = .next u ∧ u.dc = some c'
      ∧ c'.recIdx = rec ∧ t = u.framingAt rec off := by
  induction h with
  | framing hdc hleft hoff hturn =>
    cases ha
    cases hfault
    exact ⟨0, _, _, rfl, rfl, hdc, rfl, rfl⟩
  | backwards => cases ha
  | last => cases ha; cases hfault
  | more hdc hleft heffect hturn hrest ih =>
    obtain ⟨k, u, c', hrec, hrun, hu, hidx, ht⟩ := ih ha
    rw [DecodeCtx.next_recIdx, heffect.recIdx] at hrec
    exact ⟨k + 1, u, c', by omega, (core_run_of_next k (step_of_turn hdc hturn)).trans hrun, hu,
      hidx, ht⟩

/-- Settles O43: the turns before the faulting one are steps of the machine. -/
theorem framingErrorKeepsCompleteRecords : Obligations.FramingErrorKeepsCompleteRecords := by
  intro s t rec off hlen hexec hfault
  by_cases hrecords : s.rxbuf.mem.read 1 = 0#8
  · rw [exec_decMessage_of_noRecords hlen hrecords] at hexec
    cases hexec
    cases hfault
  · obtain ⟨k, u, c, hrec, hrun, hu, hidx, ht⟩ :=
      (exec_decMessage_passRun hlen hrecords).framing_run hexec hfault
    have hk : rec = k := hrec.trans (Nat.zero_add k)
    exact ⟨u, c, hk ▸ hrun, hu, hidx, ht⟩

end Sys2Proof.Machine
end

section
/-! SUPPORT. The host clock over a whole message (R27, R241), and who writes which session register
(R29, R230). -/

namespace Sys2Proof.Machine

/-! ### Samples drawn one after another -/

/-- The clock `c'` is the clock `c` after `k` samples, none less than the one before. -/
structure HostClock.Drawn (c c' : HostClock) (k : Nat) : Prop where
  draws : c'.draws = c.draws + k
  next : c'.next = c.next.drop k
  rising : (c.last :: c.next.take k).Pairwise fun a b => a.toNat ≤ b.toNat
  le_last : ∀ a ∈ c.last :: c.next.take k, a.toNat ≤ c'.last.toNat
  last : k ≤ c.next.length → c'.last = (c.next.take k).getLast?.getD c.last

theorem HostClock.Drawn.refl (c : HostClock) : c.Drawn c 0 where
  draws := rfl
  next := rfl
  rising := by simp
  le_last := by simp
  last := by simp

/-- One more sample. -/
theorem HostClock.Drawn.draw {c c' k' : HostClock} {k : Nat} {now : Instant} (h : c.Drawn c' k)
    (hdraw : c'.draw = .ok (now, k')) : c.Drawn k' (k + 1) := by
  obtain ⟨hle, rfl, hhead⟩ := HostClock.draw_eq_ok hdraw
  rw [h.next] at hhead
  have hnext : (c'.next.drop 1) = c.next.drop (k + 1) := by rw [h.next, List.drop_drop]
  by_cases hk : k < c.next.length
  · have hnow : c.next[k] = now :=
      (hhead _ (by rw [List.head?_drop, List.getElem?_eq_getElem hk])).symm
    have htake : c.next.take (k + 1) = c.next.take k ++ [now] := by
      rw [List.take_add_one, List.getElem?_eq_getElem hk, hnow]; rfl
    have hbound : ∀ a ∈ c.last :: c.next.take k, a.toNat ≤ now.toNat :=
      fun a ha => (h.le_last a ha).trans hle
    refine ⟨by rw [h.draws, Nat.add_assoc], hnext, ?_, ?_, fun _ => by simp [htake]⟩
    · rw [htake, ← List.cons_append, List.pairwise_append]
      exact ⟨h.rising, List.pairwise_singleton .., fun a ha b hb =>
        List.mem_singleton.mp hb ▸ hbound a ha⟩
    · rw [htake, ← List.cons_append]
      intro a ha
      obtain ha | ha := List.mem_append.mp ha
      · exact hbound a ha
      · exact (List.mem_singleton.mp ha) ▸ le_refl _
  · have htake : c.next.take (k + 1) = c.next.take k := by
      rw [List.take_of_length_le (by omega), List.take_of_length_le (by omega)]
    refine ⟨by rw [h.draws, Nat.add_assoc], hnext, htake ▸ h.rising,
      htake ▸ fun a ha => (h.le_last a ha).trans hle, fun hlen => by omega⟩

theorem State.RecordEffect.drawn {s t : State} {c c' : DecodeCtx} {k₀ : HostClock} {k : Nat}
    (h : s.RecordEffect t c c') (hs : k₀.Drawn s.clock k) : ∃ k', k₀.Drawn t.clock k' := by
  obtain hsame | ⟨now, hdraw⟩ := h.clock
  · exact ⟨k, hsame ▸ hs⟩
  · exact ⟨k + 1, hs.draw hdraw⟩

/-- A pass draws rising samples: up to its end, or up to the one that is refused. -/
theorem PassRun.drawn {s : State} {c : DecodeCtx} {a : Answer} {k₀ : HostClock} {k : Nat}
    (h : PassRun s c a) (hs : k₀.Drawn s.clock k) :
    (∃ t k', a = .next t ∧ k₀.Drawn t.clock k')
      ∨ a = .refused .clockBackwards
        ∧ ∃ k' c', k₀.Drawn c' k' ∧ c'.draw = .error .clockBackwards := by
  induction h generalizing k with
  | framing => exact .inl ⟨_, k, rfl, hs⟩
  | backwards hdc hleft hturn hclock => exact .inr ⟨rfl, k, _, hs, hclock⟩
  | last hdc hleft heffect =>
    obtain ⟨k', hk'⟩ := heffect.drawn hs
    exact .inl ⟨_, k', rfl, hk'⟩
  | more hdc hleft heffect hturn hrest ih =>
    obtain ⟨k', hk'⟩ := heffect.drawn hs
    exact ih hk'

theorem exec_decMessage_drawn (s : State) :
    (∃ t k, exec .decMessage s = .next t ∧ s.clock.Drawn t.clock k)
      ∨ exec .decMessage s = .refused .clockBackwards
        ∧ ∃ k c, s.clock.Drawn c k ∧ c.draw = .error .clockBackwards := by
  obtain ⟨dc, outcome, -, hexec⟩ | hrun := exec_decMessage_cases s
  · exact .inl ⟨_, 0, hexec, .refl s.clock⟩
  · exact hrun.drawn (k₀ := s.clock) (.refl s.clock)

/-- A sample refused after `k` others is listed, and less than the one before it. -/
theorem HostClock.Drawn.backwards {c c' : HostClock} {k : Nat} (h : c.Drawn c' k)
    (herror : c'.draw = .error .clockBackwards) : ∃ pre n rest, c.next = pre ++ n :: rest
      ∧ n.toNat < (pre.getLast?.getD c.last).toNat := by
  obtain ⟨-, n, rest, hlist, hless⟩ := HostClock.draw_eq_error herror
  have hdrop : c.next.drop k = n :: rest := h.next ▸ hlist
  have hk : k ≤ c.next.length := by
    by_contra hlong
    rw [List.drop_eq_nil_of_le (by omega)] at hdrop
    cases hdrop
  exact ⟨c.next.take k, n, rest, by rw [← hdrop, List.take_append_drop], h.last hk ▸ hless⟩

/-! ### A refused sample -/

theorem HostClock.draw_of_less {c : HostClock} {n : Instant} {rest : List Instant}
    (hnext : c.next = n :: rest) (hless : n.toNat < c.last.toNat) :
    c.draw = .error .clockBackwards := by
  simp only [HostClock.draw, hnext, if_pos hless]

theorem tssSet_of_backwards {s : State} (h : s.clock.draw = .error .clockBackwards) (tick : Tick) :
    tssSet s tick = .error .clockBackwards := by simp only [tssSet, h]

theorem tssCompute_of_backwards {s : State} (h : s.clock.draw = .error .clockBackwards)
    (tick : Tick) : tssCompute s tick = .error .clockBackwards := by simp only [tssCompute, h]

theorem exec_tssSet_of_backwards {s : State} (h : s.clock.draw = .error .clockBackwards) :
    exec .tssSet s = .refused .clockBackwards := by
  have hexec : exec .tssSet s = execTssSet s := rfl
  simp only [hexec, execTssSet, tssSet_of_backwards h]

theorem exec_tssCompute_of_backwards {s : State} (h : s.clock.draw = .error .clockBackwards) :
    exec .tssCompute s = .refused .clockBackwards := by
  have hexec : exec .tssCompute s = execTssCompute s := rfl
  simp only [hexec, execTssCompute, tssCompute_of_backwards h]

theorem dataEffect_of_backwards {s : State} {d : DataFields}
    (h : s.clock.draw = .error .clockBackwards) (hstamped : d.stamped = true) (ext rtr : Bool)
    (tick : Tick) : dataEffect ext rtr d tick s = .refused .clockBackwards := by
  simp only [dataEffect, hstamped, if_true, tssCompute_of_backwards h]

theorem tsEffect_of_backwards {s : State} {c : DecodeCtx} (hseen : c.syncSeen = false)
    (h : s.clock.draw = .error .clockBackwards) (number : Byte) :
    tsEffect true number c s = .refused .clockBackwards := by
  simp only [tsEffect, hseen, Bool.not_true, Bool.false_eq_true, if_false, tssSet_of_backwards h]

/-- Settles O46: one sample, the samples of a message, the sample that refuses it, and each instruction
that draws one. -/
theorem hostClockNeverRunsBack : Obligations.HostClockNeverRunsBack := by
  refine ⟨fun c now k hdraw => ?_, fun s t hexec => ?_, fun s hnever => ?_,
    fun s n rest hnext hless => ?_⟩
  · obtain ⟨hle, rfl, hhead⟩ := HostClock.draw_eq_ok hdraw
    exact ⟨hle, rfl, rfl, hhead⟩
  · obtain ⟨u, k, hnext, hdrawn⟩ | ⟨hrefused, -⟩ := exec_decMessage_drawn s
    · rw [hexec] at hnext
      cases hnext
      exact ⟨k, hdrawn.draws, hdrawn.next, hdrawn.rising, hdrawn.le_last⟩
    · rw [hexec] at hrefused
      cases hrefused
  · obtain ⟨u, k, hnext, -⟩ | ⟨hrefused, k, c, hdrawn, herror⟩ := exec_decMessage_drawn s
    · exact absurd hnext (hnever u)
    · exact ⟨hrefused, hdrawn.backwards herror⟩
  · have herror := HostClock.draw_of_less hnext hless
    refine ⟨exec_tssSet_of_backwards herror, exec_tssCompute_of_backwards herror,
      fun c len hdc => ⟨fun ext rtr hfits => ?_, fun ign hseen hfits => ?_⟩⟩
    · exact (exec_dataRecord_stamped hdc hfits).trans
        (dataEffect_of_backwards (by exact herror) rfl ext rtr _)
    · have hexec : exec (.recIntTs true ign len) s = runInternal 4#8 true len (tsEffect true) s := rfl
      rw [hexec, runInternal_of_fits (f := 4#8) _ hdc hfits]
      exact tsEffect_of_backwards (by exact hseen) (by exact herror) _

/-! ### The registers a record writes -/

/-- A data record writes neither TR nor BS.state. -/
theorem runData_registers {ext ts rtr : Bool} {len : BitVec 4} {s t : State} {c : DecodeCtx}
    (hdc : s.dc = some c) (h : runData false ext ts rtr len s = .next t) :
    t.tr = s.tr ∧ t.bs = s.bs := by
  obtain ⟨-, hshort⟩ | ⟨-, hfits⟩ := runData_cases (ext := ext) (ts := ts) (rtr := rtr)
    (len := len) hdc
  · rw [hshort] at h
    cases h
    exact ⟨rfl, rfl⟩
  · rw [hfits, dataEffect] at h
    split at h
    · split at h
      · cases h
      next hw u hcompute =>
        obtain ⟨now, k, -, -, rfl⟩ := tssCompute_eq_ok hcompute
        cases h
        exact ⟨rfl, rfl⟩
    · cases h
      exact ⟨rfl, rfl⟩

/-- What an internal record's effect keeps, beside the context and the outcome, the record keeps. -/
theorem runInternal_keeps {α : Type} (g : State → α) {f : Byte} {ts : Bool} {len : BitVec 4}
    {effect : Byte → DecodeCtx → State → Answer} {s t : State} {c : DecodeCtx} (hdc : s.dc = some c)
    (habort : ∀ e, g (s.abortPass e) = g s)
    (heffect : ∀ n c', effect n c' { s with dc := some c' } = .next t → g t = g s)
    (h : runInternal f ts len effect s = .next t) : g t = g s := by
  obtain ⟨-, hshort⟩ | ⟨-, hfits⟩ := runInternal_cases (f := f) (ts := ts) (len := len)
    (effect := effect) hdc
  · rw [hshort] at h
    cases h
    exact habort _
  · exact heffect _ _ (hfits ▸ h)

theorem tsEffect_bs {ts : Bool} {n : Byte} {c : DecodeCtx} {s t : State}
    (h : tsEffect ts n c s = .next t) : t.bs = s.bs := by
  simp only [tsEffect] at h
  split at h
  · cases h; rfl
  split at h
  · cases h; rfl
  split at h
  · cases h
  next u hset =>
    obtain ⟨now, k, -, rfl⟩ := tssSet_eq_ok hset
    cases h
    rfl

theorem errorEffect_tr {n : Byte} {c : DecodeCtx} {s t : State}
    (h : errorEffect n c s = .next t) : t.tr = s.tr := by
  rw [errorEffect_eq] at h
  cases h
  rfl

/-- A record writes TR only if it is REC.INT.TS, and BS.state only if it is REC.INT.ERROR (R29). -/
theorem exec_record_registers {i : Instr} {s t : State} {c : DecodeCtx} (hi : i.space = .record)
    (hdc : s.dc = some c) (h : exec i s = .next t) :
    (writesTr i = false → t.tr = s.tr) ∧ (writesBs i = false → t.bs = s.bs) := by
  cases i with
  | recDataStd | recDataExt =>
    obtain ⟨htr, hbs⟩ := runData_registers hdc h
    exact ⟨fun _ => htr, fun _ => hbs⟩
  | recIntError =>
    exact ⟨fun _ => runInternal_keeps State.tr hdc (fun _ => rfl) (fun _ _ => errorEffect_tr) h, nofun⟩
  | recIntTs =>
    exact ⟨nofun, fun _ => runInternal_keeps State.bs hdc (fun _ => rfl) (fun _ _ => tsEffect_bs) h⟩
  | recIntAnalog | recIntBusload | recIntBusevt | recIntUnknown =>
    exact ⟨fun _ => runInternal_keeps State.tr hdc (fun _ => rfl) (fun _ _ hskip => by cases hskip; rfl) h,
      fun _ => runInternal_keeps State.bs hdc (fun _ => rfl) (fun _ _ hskip => by cases hskip; rfl) h⟩
  | _ => cases hi

/-- A record leaves everything outside its pass alone. -/
theorem exec_record_sameOutsidePass {i : Instr} {s t : State} {c : DecodeCtx}
    (hi : i.space = .record) (hdc : s.dc = some c) (h : exec i s = .next t) :
    s.SameOutsidePass t := by
  obtain ⟨off, -, -, habort⟩ | ⟨u, c', hrun, heffect⟩ | ⟨hclock, -⟩ := exec_recordCases hi hdc
  · rw [habort] at h; cases h; exact s.sameOutsidePass_framingAt ..
  · rw [hrun] at h; cases h; exact heffect.outside
  · rw [hclock] at h; cases h

/-- TSS.COMPUTE completes only on a sample. -/
theorem exec_tssCompute_eq_next {s t : State} (h : exec .tssCompute s = .next t) :
    ∃ now k, s.clock.draw = .ok (now, k) ∧ t = { s with
      clock := k, outcome := some (.ok (.time (s.tr.compute s.port.tick now))) } := by
  replace h : execTssCompute s = .next t := h
  unfold execTssCompute at h
  split at h
  · cases h
  next time u hcompute =>
    obtain ⟨now, k, hdraw, rfl, rfl⟩ := tssCompute_eq_ok hcompute
    cases h
    exact ⟨now, k, hdraw, rfl⟩

/-- The kinds of instruction: a command, a record, or one of the seven other operations. -/
theorem instr_kind_cases (i : Instr) : isCommand i = true ∨ i.space = .record
    ∨ i ∈ [.sessionReset, .encFrame, .decMessage, .tssSet, .tssUpdate, .tssCompute, .besProcess] := by
  cases i <;> simp [isCommand, Instr.space]

/-- Settles O54: by the kind of instruction. -/
theorem sessionRegisterOwnership : Obligations.SessionRegisterOwnership := by
  intro i s t h
  obtain hcommand | hrecord | hother := instr_kind_cases i
  · obtain ⟨u, hexec, he⟩ := exec_command hcommand s
    rw [h] at hexec
    cases hexec
    exact ⟨fun _ => he.tr, fun _ => he.bs, fun _ => he.txSeq⟩
  · cases hdc : s.dc with
    | none => rw [exec_record_of_closed hrecord hdc] at h; cases h
    | some c =>
      obtain ⟨htr, hbs⟩ := exec_record_registers hrecord hdc h
      exact ⟨htr, hbs, fun _ => (exec_record_sameOutsidePass hrecord hdc h).txSeq⟩
  · simp only [List.mem_cons, List.not_mem_nil, or_false] at hother
    rcases hother with rfl | rfl | rfl | rfl | rfl | rfl | rfl
    · exact ⟨nofun, nofun, nofun⟩
    · obtain ⟨-, rfl⟩ := exec_encFrame_eq_next h
      exact ⟨fun _ => rfl, fun _ => rfl, nofun⟩
    · exact ⟨nofun, nofun, fun _ => (exec_decMessage_closed h).2.txSeq⟩
    · obtain ⟨now, k, -, rfl⟩ := exec_tssSet_eq_next h
      exact ⟨nofun, fun _ => rfl, fun _ => rfl⟩
    · cases h
      exact ⟨nofun, fun _ => rfl, fun _ => rfl⟩
    · obtain ⟨now, k, -, rfl⟩ := exec_tssCompute_eq_next h
      exact ⟨fun _ => rfl, fun _ => rfl, fun _ => rfl⟩
    · cases h
      exact ⟨fun _ => rfl, nofun, fun _ => rfl⟩

end Sys2Proof.Machine
end

section
/-! SUPPORT. What a pass depends on (R29, R77, R130). A pass is carried from one state into another that
differs from it outside the pass and may hold more bytes in RXBUF: every parse reads the same, so every
record, turn and pass answers the same, unless a record did not fit before the bytes were added. -/

namespace Sys2Proof.Machine

/-! ### A buffer with more bytes -/

/-- The buffer `b'` holds every byte of `b` at its offset, and maybe more after them. -/
structure Buffer.Extends (b b' : Buffer) : Prop where
  len : b.len ≤ b'.len
  read : ∀ k < b.len, b'.mem.read k = b.mem.read k

theorem Buffer.Extends.refl (b : Buffer) : b.Extends b := ⟨le_refl _, fun _ _ => rfl⟩

theorem Buffer.extends_of_eq {b b' : Buffer} (h : b' = b) : b.Extends b' := h ▸ .refl b

theorem Buffer.ofBytes_extends (bs more : List Byte) :
    (Buffer.ofBytes bs).Extends (Buffer.ofBytes (bs ++ more)) where
  len := by simp [Buffer.ofBytes_len]
  read k hk := by
    rw [Buffer.ofBytes_read, Buffer.ofBytes_read, List.getD_append _ _ _ _ hk]

section
variable {b b' : Buffer} (hext : b.Extends b') {c : DecodeCtx}
include hext

theorem Buffer.Extends.memRead_eq {a n : Nat} (h : a + n ≤ b.len) :
    b'.mem.memRead a n = b.mem.memRead a n :=
  Memory.memRead_congr fun k _ hk => hext.read k (by omega)

theorem Buffer.Extends.dataAt_eq {a n : Nat} (h : a + n ≤ b.len) :
    dataAt b'.mem a n = dataAt b.mem a n := by
  have hbyte (i : Nat) : (if i < n then b'.mem.read (a + i) else 0#8)
      = if i < n then b.mem.read (a + i) else 0#8 :=
    ite_congr rfl (fun hi => hext.read _ (by omega)) fun _ => rfl
  simp only [dataAt, hbyte]

theorem Buffer.Extends.tsStep_eq {ts : Bool} (h : c.pc + tsLen ts c ≤ b.len) :
    tsStep ts b' c = tsStep ts b c := by
  cases ts with
  | false => rfl
  | true =>
    by_cases hfirst : c.tsIdx = 0
    · have hfield : c.pc + 2 ≤ b.len := by simpa [tsLen, hfirst] using h
      simp only [tsStep, hfirst, if_true, hext.memRead_eq hfield]
    · have hfield : c.pc + 1 ≤ b.len := by simpa [tsLen, hfirst] using h
      simp only [tsStep, hfirst, if_true, if_false, hext.read c.pc hfield]

/-- A data record parses the same, or did not fit. -/
theorem Buffer.Extends.parseData_eq_or_short (ext ts rtr : Bool) (len : BitVec 4) :
    parseData false ext ts rtr len b' c = parseData false ext ts rtr len b c
      ∨ b' ≠ b ∧ ∃ off, parseData false ext ts rtr len b c = .error (.framing c.recIdx off) := by
  by_cases hfits : c.pc + dataSize ext ts rtr len c ≤ b.len
  · left
    have hsize : c.pc + idFieldLen ext + tsLen ts c + recordDlc rtr len ≤ b.len := by
      unfold dataSize at hfits; omega
    have hts : tsStep ts b' (c.skip (idFieldLen ext)) = tsStep ts b (c.skip (idFieldLen ext)) :=
      hext.tsStep_eq (by simp only [DecodeCtx.skip_pc, tsLen_skip]; omega)
    rw [parseData_of_fits hfits, parseData_of_fits (hfits.trans hext.len), dataFields, dataFields,
      dataStep, dataStep, hext.memRead_eq (by omega), hext.dataAt_eq (by omega), hts]
  · by_cases hsame : b' = b
    · exact .inl (by rw [hsame])
    · exact .inr ⟨hsame, _, parseData_of_short (Nat.lt_of_not_le hfits)⟩

/-- An internal record parses the same, or did not fit. -/
theorem Buffer.Extends.parseInternal_eq_or_short (f : Byte) (ts : Bool) (len : BitVec 4) :
    parseInternal f ts len b' c = parseInternal f ts len b c
      ∨ b' ≠ b ∧ ∃ off, parseInternal f ts len b c = .error (.framing c.recIdx off) := by
  by_cases hfits : c.pc + internalSize f ts len c ≤ b.len
  · left
    have hsize : c.pc + 2 + tsLen ts c ≤ b.len := by unfold internalSize at hfits; omega
    have hts : tsStep ts b' (c.skip 2) = tsStep ts b (c.skip 2) :=
      hext.tsStep_eq (by simpa only [DecodeCtx.skip_pc, tsLen_skip] using hsize)
    rw [parseInternal_of_fits hfits, parseInternal_of_fits (hfits.trans hext.len), internalStep,
      internalStep, hext.read _ (by omega), hts]
  · by_cases hsame : b' = b
    · exact .inl (by rw [hsame])
    · exact .inr ⟨hsame, _, parseInternal_of_short (Nat.lt_of_not_le hfits)⟩

omit hext in
/-- The byte after the status/length byte matters only to an internal record (R74). -/
theorem decodeRecord_congr {sl f f' : Byte} (h : slInt sl = true → f' = f) :
    decodeRecord sl f' = decodeRecord sl f := by
  cases hint : slInt sl with
  | true => rw [h hint]
  | false => simp [decodeRecord, hint]

/-- A record is fetched the same, or its first bytes did not fit. -/
theorem Buffer.Extends.fetchRecord_eq_or_short :
    fetchRecord b' c = fetchRecord b c
      ∨ b' ≠ b ∧ ∃ off, fetchRecord b c = .error (.framing c.recIdx off) := by
  by_cases hfits : c.pc + (if slInt (b.mem.read c.pc) then 3 else 1) ≤ b.len
  · left
    have hsl : b'.mem.read c.pc = b.mem.read c.pc := hext.read _ (by split at hfits <;> omega)
    have hnext : slInt (b.mem.read c.pc) = true → b'.mem.read (c.pc + 1) = b.mem.read (c.pc + 1) :=
      fun hint => hext.read _ (by rw [hint, if_pos rfl] at hfits; omega)
    rw [fetchRecord_of_fits hfits, fetchRecord_of_fits (hsl ▸ hfits.trans hext.len), hsl,
      decodeRecord_congr hnext]
  · by_cases hsame : b' = b
    · exact .inl (by rw [hsame])
    · exact .inr ⟨hsame, _, fetchRecord_of_short (Nat.lt_of_not_le hfits)⟩

end

/-! ### A pass carried into another state -/

/-- The state `t` with the pass of `u` in it: what a pass may change is `u`'s, everything else is `t`'s.
The outcome port is `u`'s once its pass has ended. -/
def State.withPass (t u : State) : State :=
  { t with
    tr := u.tr, bs := u.bs, clock := u.clock, items := u.items, dc := u.dc
    outcome := match u.dc with
      | none => u.outcome
      | some _ => t.outcome }

@[simp] theorem State.withPass_dc (t u : State) : (t.withPass u).dc = u.dc := rfl
@[simp] theorem State.withPass_clock (t u : State) : (t.withPass u).clock = u.clock := rfl

theorem State.withPass_of_closed (t : State) {u : State} (h : u.dc = none) : t.withPass u
    = { t with
        tr := u.tr, bs := u.bs, clock := u.clock, items := u.items, outcome := u.outcome
        dc := none } := by simp only [State.withPass, h]

/-- Moving the cursor of an open pass. -/
theorem State.withPass_setDc (t : State) {u : State} {c : DecodeCtx} (h : u.dc = some c)
    (c' : DecodeCtx) :
    { t.withPass u with dc := some c' } = t.withPass { u with dc := some c' } := by
  simp only [State.withPass, h]

/-- The answer with its next state changed. -/
def mapNext (g : State → State) : Answer → Answer
  | .next s => .next (g s)
  | .fault f => .fault f
  | .refused r => .refused r

/-- An instruction's effect that runs the same when its pass is carried into `t`. -/
def CarriedInto (t s : State) (effect : State → Answer) : Prop :=
  effect (t.withPass s) = mapNext t.withPass (effect s)

section
variable (t : State) {s : State} {c : DecodeCtx} (hdc : s.dc = some c)

theorem dataEffect_carried (ext rtr : Bool) (d : DataFields) (tick : Tick) :
    CarriedInto t s (dataEffect ext rtr d tick) := by
  unfold CarriedInto dataEffect
  split
  · have hsample (u : State) : tssCompute u tick = match u.clock.draw with
        | .error r => .error r
        | .ok (now, k) => .ok (u.tr.compute tick now, { u with clock := k }) := rfl
    rw [hsample, hsample, State.withPass_clock]
    cases s.clock.draw with
    | error r => rfl
    | ok p => rfl
  · rfl

theorem skipEffect_carried (n : Byte) (c' : DecodeCtx) : CarriedInto t s (skipEffect n c') := rfl

theorem errorEffect_carried (n : Byte) (c' : DecodeCtx) : CarriedInto t s (errorEffect n c') := by
  unfold CarriedInto
  rw [errorEffect_eq, errorEffect_eq]
  rfl

include hdc in
theorem tsEffect_carried (ts : Bool) (n : Byte) (c' : DecodeCtx) :
    CarriedInto t s (tsEffect ts n c') := by
  have hmark (tr : TimeRef) (k : HostClock) :
      ({ t.withPass s with tr := tr, clock := k, dc := some { c' with syncSeen := true } } : State)
        = t.withPass { s with tr := tr, clock := k, dc := some { c' with syncSeen := true } } := by
    simp only [State.withPass, hdc]
  cases ts with
  | false => rfl
  | true =>
    unfold CarriedInto
    cases hseen : c'.syncSeen with
    | true =>
      rw [tsEffect_of_later hseen, tsEffect_of_later hseen]
      exact congrArg (fun u => Host.Outcome.next (u.emit (.timestampOnly c'.ts16)))
        (hmark (s.tr.accumulate c'.ts16) s.clock)
    | false =>
      cases hdraw : s.clock.draw with
      | error r =>
        obtain ⟨rfl, -⟩ := HostClock.draw_eq_error hdraw
        rw [tsEffect_of_backwards hseen hdraw, tsEffect_of_backwards (s := t.withPass s) hseen hdraw]
        rfl
      | ok p =>
        obtain ⟨now, k⟩ := p
        rw [tsEffect_of_first hseen hdraw, tsEffect_of_first (s := t.withPass s) hseen hdraw]
        exact congrArg (fun u => Host.Outcome.next (u.emit (.timestampOnly c'.ts16)))
          (hmark (s.tr.set c'.ts16 now) k)

variable {t}

/-- A record runs the same in `t`, or did not fit before `t` added bytes. -/
def CarriedOrShort (t s : State) (c : DecodeCtx) (effect : State → Answer) : Prop :=
  CarriedInto t s effect ∨ t.rxbuf ≠ s.rxbuf ∧ ∃ off, effect s = .next (s.framingAt c.recIdx off)

variable (hext : s.rxbuf.Extends t.rxbuf)
include hdc hext

theorem runData_carried (ext ts rtr : Bool) (len : BitVec 4) :
    CarriedOrShort t s c (runData false ext ts rtr len) := by
  obtain hparse | ⟨hne, off, hshort⟩ := hext.parseData_eq_or_short (c := c) ext ts rtr len
  · left
    replace hparse : parseData false ext ts rtr len (t.withPass s).rxbuf c = _ := hparse
    simp only [CarriedInto, runData, State.withPass_dc, hdc, hparse]
    cases parseData false ext ts rtr len s.rxbuf c with
    | error f => rfl
    | ok p =>
      simp only [State.withPass_setDc t hdc]
      exact dataEffect_carried t ext rtr p.1 p.2.ts16
  · exact .inr ⟨hne, off, by simp only [runData, hdc, hshort]; rfl⟩

theorem runInternal_carried (f : Byte) (ts : Bool) (len : BitVec 4)
    {effect : Byte → DecodeCtx → State → Answer}
    (heffect : ∀ n c', CarriedInto t { s with dc := some c' } (effect n c')) :
    CarriedOrShort t s c (runInternal f ts len effect) := by
  obtain hparse | ⟨hne, off, hshort⟩ := hext.parseInternal_eq_or_short (c := c) f ts len
  · left
    replace hparse : parseInternal f ts len (t.withPass s).rxbuf c = _ := hparse
    simp only [CarriedInto, runInternal, State.withPass_dc, hdc, hparse]
    cases parseInternal f ts len s.rxbuf c with
    | error e => rfl
    | ok p =>
      simp only [State.withPass_setDc t hdc]
      exact heffect p.1 p.2
  · exact .inr ⟨hne, off, by simp only [runInternal, hdc, hshort]; rfl⟩

theorem exec_record_carried {i : Instr} (hi : i.space = .record) :
    CarriedOrShort t s c (exec i) := by
  cases i with
  | recDataStd | recDataExt => exact runData_carried hdc hext _ _ _ _
  | recIntError => exact runInternal_carried hdc hext _ _ _ fun n c' => errorEffect_carried t n c'
  | recIntTs => exact runInternal_carried hdc hext _ _ _ fun n c' => tsEffect_carried t rfl _ n c'
  | recIntAnalog | recIntBusload | recIntBusevt | recIntUnknown =>
    exact runInternal_carried hdc hext _ _ _ fun n c' => skipEffect_carried t n c'
  | _ => cases hi

omit hdc hext in
theorem State.withPass_advance (t u : State) : (t.withPass u).advance = t.withPass u.advance := by
  cases hdc : u.dc with
  | none => simp only [State.advance, State.withPass_dc, hdc]
  | some c =>
    simp only [State.advance, State.withPass_dc, hdc, State.nextRecord]
    split
    · exact State.withPass_setDc t hdc _
    · rfl

/-- A turn runs the same in `t`, or its record did not fit before `t` added bytes. -/
theorem recordTurn_carried : CarriedOrShort t s c (recordTurn execRecord) := by
  obtain hfetch | ⟨hne, off, hshort⟩ := hext.fetchRecord_eq_or_short (c := c)
  · replace hfetch : fetchRecord (t.withPass s).rxbuf c = fetchRecord s.rxbuf c := hfetch
    simp only [CarriedOrShort, CarriedInto, recordTurn, State.withPass_dc, hdc, hfetch]
    obtain ⟨-, hok⟩ | ⟨-, off, -, -, herror⟩ := fetchRecord_cases s.rxbuf c
    · simp only [hok, execRecord_decodeRecord, State.withPass_setDc t hdc]
      obtain hexec | ⟨hne, off, hshort⟩ := exec_record_carried (t := t)
        (s := { s with dc := some (c.skip 1) }) rfl hext
        (space_decodeRecord (s.rxbuf.mem.read c.pc) (s.rxbuf.mem.read (c.pc + 1)))
      · left
        rw [hexec]
        cases exec (decodeRecord (s.rxbuf.mem.read c.pc) (s.rxbuf.mem.read (c.pc + 1)))
            { s with dc := some (c.skip 1) } with
        | next u => exact congrArg Host.Outcome.next (State.withPass_advance t u)
        | fault f => rfl
        | refused r => rfl
      · right
        rw [hshort]
        exact ⟨hne, off, rfl⟩
    · left
      simp only [herror]
      rfl
  · exact .inr ⟨hne, off, by simp only [recordTurn, hdc, hshort]; rfl⟩

end

/-- The first turn of a pass carried into `t`. -/
theorem runPass_carried {t s : State} {c : DecodeCtx} {a : Answer} {n : Nat} (hdc : s.dc = some c)
    (hleft : c.recIdx < c.recCount.toNat) (hn : c.recCount.toNat ≤ c.recIdx + n)
    (hturn : recordTurn execRecord s = a) (hcarried : CarriedInto t s (recordTurn execRecord)) :
    ∃ m, n = m + 1 ∧ runPass execRecord n (t.withPass s) = match mapNext t.withPass a with
      | .next u => runPass execRecord m u
      | .fault f => .fault f
      | .refused r => .refused r := by
  obtain ⟨m, rfl⟩ : ∃ m, n = m + 1 := ⟨n - 1, by omega⟩
  have hopen : (t.withPass s).dc = some c := hdc
  have hrun := runPass_succ (run := execRecord) (n := m) hopen
  rw [hcarried, hturn] at hrun
  exact ⟨m, rfl, hrun⟩

/-- A pass runs the same in `t`, if `t` adds no byte or the pass ended well. -/
theorem PassRun.carried {t s : State} {c : DecodeCtx} {a : Answer} {n : Nat} (h : PassRun s c a)
    (hext : s.rxbuf.Extends t.rxbuf) (hn : c.recCount.toNat ≤ c.recIdx + n)
    (hend : t.rxbuf = s.rxbuf ∨ ∃ v r, a = .next v ∧ v.outcome = some (.ok r)) :
    runPass execRecord n (t.withPass s) = mapNext t.withPass a := by
  induction h generalizing n with
  | framing hdc hleft hoff hturn =>
    have hsame := hend.resolve_right fun ⟨v, r, hv, hr⟩ => by
      cases hv
      cases hr
    obtain ⟨m, rfl, hrun⟩ := runPass_carried hdc hleft hn hturn
      ((recordTurn_carried hdc hext).resolve_right fun hshort => hshort.1 hsame)
    exact hrun.trans (runPass_of_closed (State.withPass_dc ..))
  | backwards hdc hleft hturn hclock =>
    obtain ⟨m, rfl, hrun⟩ := runPass_carried hdc hleft hn hturn
      ((recordTurn_carried hdc hext).resolve_right fun ⟨_, off, hshort⟩ => by
        rw [hturn] at hshort
        cases hshort)
    exact hrun
  | last hdc hleft heffect hturn =>
    obtain ⟨m, rfl, hrun⟩ := runPass_carried hdc hleft hn hturn
      ((recordTurn_carried hdc hext).resolve_right fun ⟨_, off, hshort⟩ => by
        rw [hturn] at hshort
        cases congrArg State.outcome (Host.Outcome.next.inj hshort))
    exact hrun.trans (runPass_of_closed (State.withPass_dc ..))
  | @more s u c c' a hdc hleft heffect hturn hrest ih =>
    obtain ⟨m, rfl, hrun⟩ := runPass_carried hdc hleft hn hturn
      ((recordTurn_carried hdc hext).resolve_right fun ⟨_, off, hshort⟩ => by
        rw [hturn] at hshort
        cases congrArg State.dc (Host.Outcome.next.inj hshort))
    have hrx : ({ u with dc := some c'.next } : State).rxbuf = s.rxbuf := heffect.outside.rxbuf
    refine hrun.trans (ih (hrx ▸ hext) ?_ (hrx ▸ hend))
    rw [DecodeCtx.next_recCount, DecodeCtx.next_recIdx, heffect.recCount, heffect.recIdx]
    omega

/-! ### DEC.MESSAGE carried into another state -/

/-- DEC.MESSAGE answers the same in a state that agrees on TR, BS.state and the clock, if RXBUF is the
same or has more bytes after a message that decodes with Ok. -/
theorem exec_decMessage_carried {s t u : State} (hlen : 2 ≤ s.rxbuf.len)
    (hext : s.rxbuf.Extends t.rxbuf) (htr : t.tr = s.tr) (hbs : t.bs = s.bs)
    (hclock : t.clock = s.clock) (hexec : exec .decMessage s = .next u)
    (hend : t.rxbuf = s.rxbuf ∨ ∃ r, u.outcome = some (.ok r)) :
    exec .decMessage t = .next (t.withPass u) ∧ u.dc = none := by
  have hversion : t.rxbuf.mem.read 0 = s.rxbuf.mem.read 0 := hext.read 0 (by omega)
  have hcount : t.rxbuf.mem.read 1 = s.rxbuf.mem.read 1 := hext.read 1 (by omega)
  by_cases hrecords : s.rxbuf.mem.read 1 = 0#8
  · rw [exec_decMessage_of_noRecords hlen hrecords] at hexec
    cases hexec
    rw [exec_decMessage_of_noRecords (hlen.trans hext.len) (hcount.trans hrecords), hversion,
      State.withPass_of_closed t rfl, htr.symm, hbs.symm, hclock.symm]
    exact ⟨rfl, rfl⟩
  · have hrun := exec_decMessage_passRun hlen hrecords
    have hctx : headerCtx t.rxbuf = headerCtx s.rxbuf := by
      simp only [headerCtx, hversion, hcount]
    have hopen : t.openPass = t.withPass s.afterHeader := by
      rw [State.openPass_of_records (hcount ▸ hrecords)]
      have hafter : t.afterHeader = { t with items := [], dc := some (headerCtx t.rxbuf) } := rfl
      rw [hafter, hctx]
      simp only [State.withPass, State.afterHeader, ← htr, ← hbs, ← hclock]
      rfl
    refine ⟨?_, (hrun.closed hexec).1⟩
    rw [exec_decMessage_of_header (hlen.trans hext.len), hopen, hrun.carried hext ?_ ?_, hexec]
    · rfl
    · rw [hcount]
      exact Nat.le_add_left ..
    · exact hend.imp_right fun ⟨r, hr⟩ => ⟨u, r, hexec, hr⟩

/-- Settles O45: the same RXBUF. -/
theorem decMessageIgnoresOutboundSide : Obligations.DecMessageIgnoresOutboundSide := by
  intro s t u hlen hrx htr hbs hclock hexec
  obtain ⟨hcarried, hclosed⟩ := exec_decMessage_carried hlen (Buffer.extends_of_eq hrx) htr hbs hclock
    hexec (.inl hrx)
  rw [hcarried, State.withPass_of_closed t hclosed]

/-- A pass that ended, carried into the state it began in with other bytes in RXBUF. -/
theorem State.withMessage_withPass {s u : State} {bs : List Byte} (more : List Byte)
    (hsame : (s.withMessage bs).SameOutsidePass u) (hclosed : u.dc = none) :
    (s.withMessage more).withPass u = u.withMessage more := by
  obtain ⟨hseq, -, hreply, hcommand, htx, hrequest, hflight, hasync, hport, hcalls, hcompletions,
    hevents⟩ := hsame
  rw [State.withPass_of_closed _ hclosed]
  simp only [State.withMessage] at *
  rw [← hseq, ← hreply, ← hcommand, ← htx, ← hrequest, ← hflight, ← hasync, ← hport, ← hcalls,
    ← hcompletions, ← hevents, ← hclosed]

/-- Settles O44: more bytes in RXBUF after a message that decodes with Ok. -/
theorem trailingBytesNeverRead : Obligations.TrailingBytesNeverRead := by
  intro s t bs more hlen hexec hok
  obtain ⟨hcarried, hclosed⟩ := exec_decMessage_carried (s := s.withMessage bs)
    (t := s.withMessage (bs ++ more)) hlen (Buffer.ofBytes_extends bs more) rfl rfl rfl hexec (.inr hok)
  rw [hcarried, State.withMessage_withPass _ (exec_decMessage_closed hexec).2 hclosed]

end Sys2Proof.Machine
end

section
/-! SUPPORT. The round trip (R124): the message ENC.FRAME writes is one data record, and its fields
spell the frame. -/

namespace Sys2Proof.Machine

/-- A step over a record that runs: the record's effect, and on to the next one. -/
theorem step_of_record {s t : State} {c : DecodeCtx} {i : Instr} (hdc : s.dc = some c)
    (hfits : c.pc + (if slInt (s.rxbuf.mem.read c.pc) then 3 else 1) ≤ s.rxbuf.len)
    (hi : decodeRecord (s.rxbuf.mem.read c.pc) (s.rxbuf.mem.read (c.pc + 1)) = i)
    (hexec : exec i { s with dc := some (c.skip 1) } = .next t) : step s = .next t.advance := by
  subst hi
  have hstep := stepRunsFetchedRecord s c hdc hfits
  replace hexec : exec _ { s with dc := some { c with pc := c.pc + 1 } } = .next t := hexec
  rw [hstep, hexec]

/-! ### The record of an encoded message -/

/-- The status/length byte of an encoded frame is that of a data record without timestamp. -/
theorem encodedSl_eq {f : Frame} : encodedSl f = encodeDataSl false f.ext f.rtr f.dlc := by
  have key : ∀ (d : BitVec 4) (r e : Bool),
      d.setWidth 8 ||| (if r then 0x10#8 else 0#8) ||| (if e then 0x20#8 else 0#8)
        = encodeDataSl false e r d := by decide
  exact key f.dlc f.rtr f.ext

theorem decodeRecord_encodedSl (f : Frame) (g : Byte) :
    decodeRecord (encodedSl f) g = dataRecord f.ext false f.rtr f.dlc := by
  rw [encodedSl_eq]
  cases hext : f.ext <;> simp [decodeRecord, dataRecord]

theorem slInt_encodedSl (f : Frame) : slInt (encodedSl f) = false := by
  rw [encodedSl_eq]
  exact (encodeDataSl_bits ..).2.1

section
variable {f : Frame} (hwf : f.wf = true)
include hwf

theorem Frame.wf_dlc : f.dlc.toNat ≤ 8 := by
  simp only [Frame.wf, Bool.and_eq_true] at hwf
  exact dlcOk_iff.mp hwf.1.1

theorem Frame.wf_id (hstandard : f.ext = false) : f.id.toNat < 2048 := by
  simp only [Frame.wf, Frame.idOk, hstandard, Bool.and_eq_true, Bool.false_or,
    decide_eq_true_eq] at hwf
  exact hwf.1.2

theorem Frame.wf_data {i : Fin 8} (h : f.rtr = true ∨ f.dlc.toNat ≤ i.val) : f.data[i] = 0#8 := by
  simp only [Frame.wf, Frame.dataOk, Bool.and_eq_true, decide_eq_true_eq] at hwf
  exact hwf.2 i h

/-- The length of the record after its status/length byte, in the terms of the encoder. -/
theorem dataRest_encoded (c : DecodeCtx) :
    dataRest f.ext false f.rtr f.dlc c = idFieldLen f.ext + (sentData f).length := by
  have hdlc := Frame.wf_dlc hwf
  rw [dataRest_eq, dataSize, sentData_length hdlc, recordDlc, clampDlc_toNat,
    Nat.min_eq_left hdlc]
  rfl

/-- The id field reads back as the id (R68). -/
theorem idOfField_encodeFrame (q : Byte) :
    idOfField f.ext ((encodeFrame f q).mem.memRead 3 (idFieldLen f.ext)) = f.id := by
  have hread : (encodeFrame f q).mem.memRead 3 (idFieldLen f.ext)
      = idFieldOf f % 256 ^ idFieldLen f.ext := Memory.memRead_of_bytes fun i hi => by
    rw [encodeFrame_read, if_neg (by omega), if_neg (by omega), if_neg (by omega),
      if_pos (by omega), Nat.add_sub_cancel_left]
  have hid := f.id.isLt
  refine BitVec.eq_of_toNat_eq ?_
  rw [idOfField_toNat]
  cases hext : f.ext with
  | true =>
    simp only [hext, idFieldLen, idFieldOf_eq, if_true] at hread ⊢
    omega
  | false =>
    have hstandard := Frame.wf_id hwf hext
    simp only [hext, idFieldLen, idFieldOf_eq, Bool.false_eq_true, if_false] at hread ⊢
    omega

/-- The data bytes read back, and zeros after them (R135). -/
theorem dataAt_encodeFrame (q : Byte) :
    dataAt (encodeFrame f q).mem (3 + idFieldLen f.ext) (sentData f).length = f.data := by
  have hdlc := Frame.wf_dlc hwf
  have hlen := sentData_length hdlc
  refine Vector.ext fun i hi => ?_
  refine (dataAt_getElem _ _ _ ⟨i, hi⟩).trans ?_
  by_cases hsent : i < (sentData f).length
  · have hdata : f.rtr = false := by
      cases hrtr : f.rtr with
      | false => rfl
      | true => simp [hlen, hrtr] at hsent
    have hi' : i < f.dlc.toNat := by simpa [hlen, hdata] using hsent
    rw [if_pos hsent, encodeFrame_read, if_neg (by omega), if_neg (by omega), if_neg (by omega),
      if_neg (by omega), if_pos (by simpa using hsent), Nat.add_sub_cancel_left,
      List.getD_eq_getElem _ _ hsent]
    simp [sentData, hdata]
  · rw [if_neg hsent]
    refine (Frame.wf_data hwf (i := ⟨i, hi⟩) ?_).symm
    cases hrtr : f.rtr with
    | true => exact .inl rfl
    | false => exact .inr (by simpa [hlen, hrtr] using hsent)

/-- The fields of an encoded message spell its frame, without timestamp. -/
theorem frameOf_encodeFrame (q : Byte) {c : DecodeCtx} (hpc : c.pc = 3) :
    frameOf f.ext f.rtr (dataFields f.ext false f.rtr f.dlc (encodeFrame f q) c) none none
      = { f with ts := none, hwtime := none } := by
  have hdlc := Frame.wf_dlc hwf
  have hclamp : clampDlc f.dlc = f.dlc := BitVec.eq_of_toNat_eq (by
    rw [clampDlc_toNat, Nat.min_eq_left hdlc])
  have hsize : recordDlc f.rtr f.dlc = (sentData f).length := by
    rw [sentData_length hdlc, recordDlc, hclamp]
  have hoffset : 3 + idFieldLen f.ext + tsLen false c = 3 + idFieldLen f.ext := rfl
  rw [dataFields, hpc, hoffset, hsize, hclamp, idOfField_encodeFrame hwf, dataAt_encodeFrame hwf]
  rfl

/-- The one record of an encoded message, run from the header on. -/
theorem step_encodeFrame {u : State} {q : Byte} (hrx : u.rxbuf = encodeFrame f q) :
    step u.afterHeader = .next { u with
      items := [.frame { f with ts := none, hwtime := none }], dc := none
      outcome := some (.ok (.version (some 2#8))) } := by
  have hdlc := Frame.wf_dlc hwf
  have hversion : u.rxbuf.mem.read 0 = 2#8 := by rw [hrx, encodeFrame_read]; rfl
  have hcount : u.rxbuf.mem.read 1 = 1#8 := by rw [hrx, encodeFrame_read]; rfl
  have hsl : u.rxbuf.mem.read 2 = encodedSl f := by rw [hrx, encodeFrame_read]; rfl
  have hlen : u.rxbuf.len = 3 + idFieldLen f.ext + (sentData f).length + 1 := by
    rw [hrx, encodeFrame_len q hdlc, txLen_eq hdlc]
  have hfetch : 2 + (if slInt (u.rxbuf.mem.read 2) then 3 else 1) ≤ u.rxbuf.len := by
    rw [hsl, slInt_encodedSl, if_neg Bool.false_ne_true, hlen]
    omega
  have hfits : 3 + dataRest f.ext false f.rtr f.dlc ((headerCtx u.rxbuf).skip 1) ≤ u.rxbuf.len := by
    rw [hlen, dataRest_encoded hwf]
    omega
  have hframe := frameOf_encodeFrame hwf q (c := (headerCtx u.rxbuf).skip 1) rfl
  rw [← hrx] at hframe
  have hlast : (headerCtx u.rxbuf).recCount.toNat ≤ 0 + 1 := by simp [headerCtx, hcount]
  refine (step_of_record (s := u.afterHeader) rfl hfetch ((congrArg (decodeRecord · _) hsl).trans
    (decodeRecord_encodedSl f _)) (exec_dataRecord_plain rfl hfits)).trans ?_
  refine congrArg Host.Outcome.next ((State.nextRecord_of_le hlast).trans ?_)
  rw [← hframe, ← hversion]
  rfl

end

/-- Settles O32: one record, one frame, and the pass closes. -/
theorem encodeThenDecodeRoundTrip : Obligations.EncodeThenDecodeRoundTrip := by
  intro s t u hwf hencode hrx
  obtain ⟨-, rfl⟩ := exec_encFrame_eq_next hencode
  have hrx : u.rxbuf = encodeFrame s.port.frame s.txSeq := by
    rw [hrx, slotBuffer_setSlotBuffer, if_pos rfl]
  have hcount : u.rxbuf.mem.read 1 = 1#8 := by rw [hrx, encodeFrame_read]; rfl
  have hlen : 2 ≤ u.rxbuf.len := by
    rw [hrx, encodeFrame_len _ (Frame.wf_dlc hwf), txLen]
    omega
  have hturn := step_encodeFrame hwf hrx
  rw [step_of_open u.afterHeader_dc, recordTurn_exec] at hturn
  have hexec : exec .decMessage u = runPass execRecord 1 u.afterHeader := by
    rw [exec_decMessage_of_header hlen, State.openPass_of_records (by rw [hcount]; decide), hcount]
    rfl
  rw [runPass_succ (n := 0) u.afterHeader_dc, hturn] at hexec
  exact ⟨_, hexec, rfl, rfl, ⟨rfl, rfl, rfl⟩, ⟨rfl, rfl, rfl, rfl⟩, rfl⟩

end Sys2Proof.Machine
end

section
/-! SUPPORT. The invariant of the machine (R31, R33, R40, R41) and the atomicity of its operations (R6,
R26), both by what an instruction, an event and a step can do. -/

namespace Sys2Proof.Machine

/-! ### The four parts of the invariant -/

theorem State.wf_iff {s : State} : s.wf = true ↔
    s.memoryOk = true ∧ s.epochOk = true ∧ s.flightOk = true ∧ s.passOk = true := by
  simp [State.wf, and_assoc]

theorem State.memoryOk_iff {s : State} : s.memoryOk = true ↔
    s.rxbuf.wf = true ∧ s.rplbuf.wf = true ∧ (∀ b ∈ s.txbufs, b.wf = true)
      ∧ s.cmdbuf.wf = true ∧ ∀ x ∈ s.cmdbuf, x.1 < 16 := by
  simp only [State.memoryOk, Bool.and_eq_true, List.all_eq_true, decide_eq_true_eq, and_assoc]
  rfl

/-- The epoch is valid exactly when a sample was taken (R33). -/
def TimeRef.EpochOk (tr : TimeRef) : Prop := tr.epochValid = true ↔ 1 ≤ tr.sampleCount.toNat

theorem State.epochOk_iff {s : State} : s.epochOk = true ↔ s.tr.EpochOk := by
  cases hvalid : s.tr.epochValid <;> simp [State.epochOk, TimeRef.EpochOk, hvalid]

theorem State.passOk_of_closed {s : State} (h : s.dc = none) : s.passOk = true := by
  simp only [State.passOk, h]

theorem State.passOk_of_open {s : State} {c : DecodeCtx} (hdc : s.dc = some c) :
    s.passOk = true ↔ c.pc ≤ s.rxbuf.len ∧ c.recIdx < c.recCount.toNat := by
  simp [State.passOk, hdc]

/-- Settles O56: every check of the reset state evaluates. -/
theorem resetIsWellFormed : Obligations.ResetIsWellFormed := ⟨rfl, rfl⟩

/-! ### The time reference -/

theorem TimeRef.epochOk_set (tr : TimeRef) (tick : Tick) (now : Instant) :
    (tr.set tick now).EpochOk := by
  have hcount := tr.set_sampleCount tick now
  exact iff_of_true (tr.set_epochValid tick now) (by omega)

theorem TimeRef.EpochOk.accumulate {tr : TimeRef} (h : tr.EpochOk) (tick : Tick) :
    (tr.accumulate tick).EpochOk := h

theorem TimeRef.epochOk_reset : TimeRef.reset.EpochOk := by simp [TimeRef.EpochOk, TimeRef.reset]

theorem State.RecordEffect.epochOk {s t : State} {c c' : DecodeCtx} (h : s.RecordEffect t c c')
    (hs : s.tr.EpochOk) : t.tr.EpochOk := by
  obtain hsame | ⟨tick, haccumulate | ⟨now, hset⟩⟩ := h.tr
  · exact hsame ▸ hs
  · exact haccumulate ▸ hs.accumulate tick
  · exact hset ▸ s.tr.epochOk_set tick now

theorem PassRun.epochOk {s t : State} {c : DecodeCtx} {a : Answer} (h : PassRun s c a)
    (ha : a = .next t) (hs : s.tr.EpochOk) : t.tr.EpochOk := by
  induction h with
  | framing => cases ha; exact hs
  | backwards => cases ha
  | last hdc hleft heffect => cases ha; exact heffect.epochOk hs
  | more hdc hleft heffect hturn hrest ih => exact ih ha (heffect.epochOk hs)

theorem exec_decMessage_epochOk {s t : State} (h : exec .decMessage s = .next t)
    (hs : s.tr.EpochOk) : t.tr.EpochOk := by
  obtain ⟨dc, outcome, -, hexec⟩ | hrun := exec_decMessage_cases s
  · rw [h] at hexec
    cases hexec
    exact hs
  · exact hrun.epochOk h hs

/-! ### What keeps the memories and the slots in flight -/

theorem State.SameOutsidePass.memoryOk {s t : State} (h : s.SameOutsidePass t)
    (hs : s.memoryOk = true) : t.memoryOk = true := by
  rw [State.memoryOk_iff] at hs ⊢
  rwa [h.rxbuf, h.rplbuf, h.txbufs, h.cmdbuf]

theorem State.SameOutsidePass.flightOk {s t : State} (h : s.SameOutsidePass t)
    (hs : s.flightOk = true) : t.flightOk = true := by
  rw [State.flightOk_iff] at hs ⊢
  rwa [h.txInFlight]

theorem State.CommandEffect.wf {s t : State} (h : s.CommandEffect t) (hs : s.wf = true) :
    t.wf = true := by
  obtain ⟨hmemory, hepoch, hflight, hpass⟩ := State.wf_iff.mp hs
  obtain ⟨hrx, hreply, htx, hcmd, hcmdLt⟩ := State.memoryOk_iff.mp hmemory
  have hpassSame : t.passOk = s.passOk := by simp only [State.passOk, h.dc, h.rxbuf]
  refine State.wf_iff.mpr ⟨State.memoryOk_iff.mpr ⟨h.rxbuf ▸ hrx, ?_, h.txbufs ▸ htx, ?_, ?_⟩,
    State.epochOk_iff.mpr (h.tr ▸ State.epochOk_iff.mp hepoch),
    State.flightOk_iff.mpr (h.txInFlight ▸ State.flightOk_iff.mp hflight), hpassSame ▸ hpass⟩
  · obtain hsame | ⟨bytes, hbytes⟩ := h.rplbuf
    · exact hsame ▸ hreply
    · exact hbytes ▸ Buffer.ofBytes_wf bytes
  · obtain hsame | ⟨f, n, args, hframe⟩ := h.cmdbuf
    · exact hsame ▸ hcmd
    · exact hframe ▸ buildFrame_wf f n args
  · obtain hsame | ⟨f, n, args, hframe⟩ := h.cmdbuf
    · exact hsame ▸ hcmdLt
    · exact hframe ▸ fun x => buildFrame_lt

/-- The registers may change as long as the epoch and the sample count agree. -/
theorem State.wf_of_registers {s : State} (hs : s.wf = true) {tr : TimeRef} (htr : tr.EpochOk)
    (bs : BusErrorState) (txSeq : Byte) (clock : HostClock) (outcome : Option OpOutcome) :
    ({ s with tr, bs, txSeq, clock, outcome } : State).wf = true := by
  obtain ⟨hmemory, -, hflight, hpass⟩ := State.wf_iff.mp hs
  exact State.wf_iff.mpr ⟨hmemory, State.epochOk_iff.mpr htr, hflight, hpass⟩

/-- A TXBUF may be filled with an encoded message. -/
theorem State.memoryOk_setSlotBuffer {s : State} (hs : s.memoryOk = true) (k : Nat) (f : Frame)
    (q q' : Byte) (outcome : Option OpOutcome) :
    ({ s with
      txbufs := setSlotBuffer s.txbufs k (encodeFrame f q), txSeq := q', outcome } : State).memoryOk
        = true := by
  obtain ⟨hrx, hreply, htx, hcmd, hcmdLt⟩ := State.memoryOk_iff.mp hs
  refine State.memoryOk_iff.mpr ⟨hrx, hreply, fun b hb => ?_, hcmd, hcmdLt⟩
  obtain rfl | rfl | hold := mem_setSlotBuffer hb
  · exact encodeFrame_wf f q
  · exact Buffer.empty_wf
  · exact htx b hold

/-! ### Operations and frames -/

/-- No record is among the operation codes. -/
theorem decodeOp_space {op : BitVec 5} {i : Instr} (h : decodeOp op = .ok i) : i.space = .op := by
  unfold decodeOp at h
  split at h
  all_goals cases h
  all_goals rfl

theorem isCommand_of_decodeCommand {b0 b1 : Byte} {i : Instr} (h : decodeCommand b0 b1 = .ok i) :
    isCommand i = true := by
  unfold decodeCommand at h
  repeat' split at h
  all_goals cases h
  all_goals rfl

/-- An operation leaves no pass and no request open that it did not find open. -/
theorem exec_op_opens_nothing {i : Instr} {s t : State} (hi : i.space = .op)
    (h : exec i s = .next t) : (t.dc = s.dc ∨ t.dc = none)
      ∧ (t.cmdOutstanding = s.cmdOutstanding ∨ t.cmdOutstanding = false) := by
  obtain hcommand | hrecord | hother := instr_kind_cases i
  · obtain ⟨u, hexec, he⟩ := exec_command hcommand s
    rw [h] at hexec
    cases hexec
    exact ⟨.inl he.dc, he.request⟩
  · rw [hi] at hrecord
    cases hrecord
  · simp only [List.mem_cons, List.not_mem_nil, or_false] at hother
    rcases hother with rfl | rfl | rfl | rfl | rfl | rfl | rfl
    · cases h
      exact ⟨.inl rfl, .inl rfl⟩
    · obtain ⟨-, rfl⟩ := exec_encFrame_eq_next h
      exact ⟨.inl rfl, .inl rfl⟩
    · obtain ⟨hdc, hsame⟩ := exec_decMessage_closed h
      exact ⟨hdc, .inl hsame.cmdOutstanding⟩
    · obtain ⟨now, k, -, rfl⟩ := exec_tssSet_eq_next h
      exact ⟨.inl rfl, .inl rfl⟩
    · cases h
      exact ⟨.inl rfl, .inl rfl⟩
    · obtain ⟨now, k, -, rfl⟩ := exec_tssCompute_eq_next h
      exact ⟨.inl rfl, .inl rfl⟩
    · cases h
      exact ⟨.inl rfl, .inl rfl⟩

/-- An operation with no pass open keeps the invariant. -/
theorem exec_op_wf {i : Instr} {s t : State} (hi : i.space = .op) (hdc : s.dc = none)
    (hs : s.wf = true) (h : exec i s = .next t) : t.wf = true := by
  obtain ⟨hmemory, hepoch, hflight, hpass⟩ := State.wf_iff.mp hs
  have hepochOk := State.epochOk_iff.mp hepoch
  obtain hcommand | hrecord | hother := instr_kind_cases i
  · obtain ⟨u, hexec, he⟩ := exec_command hcommand s
    rw [h] at hexec
    cases hexec
    exact he.wf hs
  · rw [hi] at hrecord
    cases hrecord
  · simp only [List.mem_cons, List.not_mem_nil, or_false] at hother
    rcases hother with rfl | rfl | rfl | rfl | rfl | rfl | rfl
    · cases h
      exact State.wf_of_registers hs TimeRef.epochOk_reset ..
    · obtain ⟨-, rfl⟩ := exec_encFrame_eq_next h
      exact State.wf_iff.mpr ⟨State.memoryOk_setSlotBuffer hmemory .., hepoch, hflight, hpass⟩
    · obtain ⟨hclosed, hsame⟩ := exec_decMessage_closed h
      have hnone : t.dc = none := hclosed.elim (fun hsame => hsame.trans hdc) id
      exact State.wf_iff.mpr ⟨hsame.memoryOk hmemory,
        State.epochOk_iff.mpr (exec_decMessage_epochOk h hepochOk), hsame.flightOk hflight,
        State.passOk_of_closed hnone⟩
    · obtain ⟨now, k, -, rfl⟩ := exec_tssSet_eq_next h
      exact State.wf_of_registers hs (TimeRef.epochOk_set ..) ..
    · cases h
      exact State.wf_of_registers hs (hepochOk.accumulate _) ..
    · obtain ⟨now, k, -, rfl⟩ := exec_tssCompute_eq_next h
      exact State.wf_of_registers hs hepochOk ..
    · cases h
      exact State.wf_of_registers hs hepochOk ..

/-! ### The transport -/

/-- What the transport may change between operations (R51): RXBUF and RPLBUF whole, the slots and the
commands in flight, the notifications. -/
structure State.TransportEffect (s t : State) : Prop where
  tr : t.tr = s.tr
  txbufs : t.txbufs = s.txbufs
  cmdbuf : t.cmdbuf = s.cmdbuf
  dc : t.dc = s.dc
  request : t.cmdOutstanding = s.cmdOutstanding
  rxbuf : t.rxbuf = s.rxbuf ∨ ∃ bytes, t.rxbuf = Buffer.ofBytes bytes
  rplbuf : t.rplbuf = s.rplbuf ∨ ∃ bytes, t.rplbuf = Buffer.ofBytes bytes
  flight : s.flightOk = true → t.flightOk = true

theorem State.flightOk_insertSlot {s : State} {k : Nat} (hs : s.flightOk = true)
    (hk : isSlot k = true) :
    ({ s with txInFlight := insertSlot s.txInFlight k } : State).flightOk = true := by
  obtain ⟨hrising, hslots⟩ := State.flightOk_iff.mp hs
  refine State.flightOk_iff.mpr ⟨insertSlot_pairwise k hrising, fun j hj => ?_⟩
  obtain rfl | hold := mem_insertSlot.mp hj
  · exact hk
  · exact hslots j hold

theorem State.flightOk_erase {s : State} (hs : s.flightOk = true) (k : Nat) :
    ({ s with txInFlight := s.txInFlight.erase k } : State).flightOk = true := by
  obtain ⟨hrising, hslots⟩ := State.flightOk_iff.mp hs
  exact State.flightOk_iff.mpr ⟨hrising.sublist List.erase_sublist,
    fun j hj => hslots j (List.mem_of_mem_erase hj)⟩

/-- An event presents an operation that runs, or is the transport's. -/
theorem takeEvent_cases {s t : State} {e : Event} (h : takeEvent s e = .next t) :
    (∃ i x now, i.space = .op ∧ exec i (s.accept x now) = .next t) ∨ s.TransportEffect t := by
  obtain ⟨action, during⟩ := e
  cases action with
  | present op x now =>
    simp only [takeEvent, presentOp] at h
    split at h
    · cases h
    split at h
    · cases h
    next i hop => exact .inl ⟨i, x, now, decodeOp_space hop, h⟩
  | deliverRx bytes =>
    simp only [takeEvent, deliverRx] at h
    split at h
    · cases h
    split at h
    · cases h
    cases h
    exact .inr ⟨rfl, rfl, rfl, rfl, rfl, .inr ⟨bytes, rfl⟩, .inl rfl, id⟩
  | deliverReply bytes =>
    simp only [takeEvent, deliverReply] at h
    split at h
    · cases h
    cases h
    exact .inr ⟨rfl, rfl, rfl, rfl, rfl, .inl rfl, .inr ⟨bytes, rfl⟩, id⟩
  | submitSlot slot =>
    simp only [takeEvent, submitSlot] at h
    split at h
    · cases h
    next hslot =>
      split at h
      · cases h
      cases h
      exact .inr ⟨rfl, rfl, rfl, rfl, rfl, .inl rfl, .inl rfl,
        fun hs => State.flightOk_insertSlot hs (by simpa using hslot)⟩
  | slotDone slot =>
    simp only [takeEvent, slotDone] at h
    split at h
    · cases h
      exact .inr ⟨rfl, rfl, rfl, rfl, rfl, .inl rfl, .inl rfl, fun hs => State.flightOk_erase hs slot⟩
    · cases h
  | asyncDone k error =>
    simp only [takeEvent, asyncDone] at h
    split at h
    · cases h
    · cases h
      exact .inr ⟨rfl, rfl, rfl, rfl, rfl, .inl rfl, .inl rfl, id⟩

theorem State.TransportEffect.wf {s t : State} (h : s.TransportEffect t) (hdc : s.dc = none)
    (hs : s.wf = true) : t.wf = true := by
  obtain ⟨hmemory, hepoch, hflight, -⟩ := State.wf_iff.mp hs
  obtain ⟨hrx, hreply, htx, hcmd, hcmdLt⟩ := State.memoryOk_iff.mp hmemory
  refine State.wf_iff.mpr ⟨State.memoryOk_iff.mpr ⟨?_, ?_, h.txbufs ▸ htx, h.cmdbuf ▸ hcmd,
    h.cmdbuf ▸ hcmdLt⟩, State.epochOk_iff.mpr (h.tr ▸ State.epochOk_iff.mp hepoch),
    h.flight hflight, State.passOk_of_closed (h.dc.trans hdc)⟩
  · obtain hsame | ⟨bytes, hbytes⟩ := h.rxbuf
    · exact hsame ▸ hrx
    · exact hbytes ▸ Buffer.ofBytes_wf bytes
  · obtain hsame | ⟨bytes, hbytes⟩ := h.rplbuf
    · exact hsame ▸ hreply
    · exact hbytes ▸ Buffer.ofBytes_wf bytes

/-! ### Every step -/

/-- A step between operations waits, runs one operation, or is the transport's. -/
theorem eventTurn_cases {s t : State} (h : eventTurn s = .next t) :
    t = s ∨ ∃ rest, (∃ i x now, i.space = .op
        ∧ exec i (({ s with events := rest } : State).accept x now) = .next t)
      ∨ ({ s with events := rest } : State).TransportEffect t := by
  cases hnext : nextEvent s.poolFull s.events with
  | some p =>
    rw [eventTurn_of_nextEvent hnext] at h
    exact .inr ⟨p.2, takeEvent_cases h⟩
  | none =>
    simp only [eventTurn, hnext] at h
    split at h
    · cases h
      exact .inl rfl
    · cases h

/-- A turn of an open pass keeps the invariant: the cursor stays in RXBUF, and a pass that goes on has a
record left. -/
theorem recordTurn_wf {s t : State} {c : DecodeCtx} (hdc : s.dc = some c) (hs : s.wf = true)
    (h : recordTurn execRecord s = .next t) : t.wf = true := by
  obtain ⟨hmemory, hepoch, hflight, hpass⟩ := State.wf_iff.mp hs
  obtain ⟨off, -, -, habort⟩ | ⟨u, c', hrun, he⟩ | ⟨hclock, -⟩ := recordTurn_cases hdc
  · rw [habort] at h
    cases h
    exact State.wf_iff.mpr ⟨hmemory, hepoch, hflight, State.passOk_of_closed rfl⟩
  · rw [hrun] at h
    cases h
    have hmemory' := he.outside.memoryOk hmemory
    have hflight' := he.outside.flightOk hflight
    have hepoch' := State.epochOk_iff.mpr (he.epochOk (State.epochOk_iff.mp hepoch))
    by_cases hmore : c.recIdx + 1 < c'.recCount.toNat
    · rw [State.nextRecord_of_lt hmore]
      have hpc : c'.pc ≤ u.rxbuf.len := he.outside.rxbuf ▸ he.pc_le
      exact State.wf_iff.mpr ⟨hmemory', hepoch', hflight',
        (State.passOk_of_open (c := { c' with recIdx := c.recIdx + 1 }) rfl).mpr ⟨hpc, hmore⟩⟩
    · rw [State.nextRecord_of_le (Nat.le_of_not_lt hmore)]
      exact State.wf_iff.mpr ⟨hmemory', hepoch', hflight', State.passOk_of_closed rfl⟩
  · rw [hclock] at h
    cases h

/-- An outstanding frame that runs is a command. -/
theorem commandTurn_effect {s t : State} (h : commandTurn s = .next t) : s.CommandEffect t := by
  unfold commandTurn at h
  split at h
  · cases h
  next i hi =>
    obtain ⟨u, hexec, he⟩ := exec_command (isCommand_of_decodeCommand hi) s
    rw [h] at hexec
    cases hexec
    exact he

theorem eventTurn_wf {s t : State} (hdc : s.dc = none) (hs : s.wf = true)
    (h : eventTurn s = .next t) : t.wf = true := by
  obtain rfl | ⟨rest, ⟨i, x, now, hi, hexec⟩ | htransport⟩ := eventTurn_cases h
  · exact hs
  · exact exec_op_wf (s := ({ s with events := rest } : State).accept x now) hi hdc hs hexec
  · exact htransport.wf hdc hs

/-- Settles O57: a record, an outstanding frame, or an event. -/
theorem stepKeepsWellFormed : Obligations.StepKeepsWellFormed := by
  intro s t hs h
  cases hdc : s.dc with
  | some c =>
    rw [step_of_open hdc, recordTurn_exec] at h
    exact recordTurn_wf hdc hs h
  | none =>
    cases hcommand : s.cmdOutstanding with
    | true => exact (commandTurn_effect (step_of_outstanding hdc hcommand ▸ h)).wf hs
    | false =>
      have hbetween : s.betweenOps = true := by simp [State.betweenOps, hdc, hcommand]
      exact eventTurn_wf hdc hs (step_of_betweenOps hbetween ▸ h)

/-- Settles O58: an operation closes what it opens, and the transport opens nothing. -/
theorem stepsLeaveNothingOpen : Obligations.StepsLeaveNothingOpen := by
  intro s t hbetween h
  rw [step_of_betweenOps hbetween] at h
  obtain ⟨hdc, hcommand⟩ : s.dc = none ∧ s.cmdOutstanding = false := by
    simpa [State.betweenOps] using hbetween
  suffices hclosed : t.dc = none ∧ t.cmdOutstanding = false by simp [State.betweenOps, hclosed]
  obtain rfl | ⟨rest, ⟨i, x, now, hi, hexec⟩ | htransport⟩ := eventTurn_cases h
  · exact ⟨hdc, hcommand⟩
  · obtain ⟨hpass, hrequest⟩ := exec_op_opens_nothing hi hexec
    exact ⟨hpass.elim (fun hsame => hsame.trans hdc) id,
      hrequest.elim (fun hsame => hsame.trans hcommand) id⟩
  · exact ⟨htransport.dc.trans hdc, htransport.request.trans hcommand⟩

end Sys2Proof.Machine
end
